-- ==== Sys2Proof/Word.lean ====
section
/-! DEFINITION. The word types of the block (spec/00_scope.md R8, R10). Every architectural value is unsigned. -/

namespace Sys2Proof

/-- A command word, and the CSR data width (R8). -/
abbrev Word := BitVec 32

/-- A symbol, a packed byte, and one element of an output stream (R8). -/
abbrev Byte := BitVec 8

/-- A node frequency, NFREQ_W = 40 bits (R8, R155). -/
abbrev Freq := BitVec 40

/-- A bit or symbol counter, CNT_W = 64 bits, wrapping modulo 2^64 (R8, R10). -/
abbrev Counter := BitVec 64

/-- A CSR byte address, 16 bits (R8, R72). -/
abbrev Addr := BitVec 16

/-- The index of a node of the arena, 0..510 (R8, R31). -/
abbrev NodeIdx := Fin 511

end Sys2Proof
end

