-- ==== Sys2Proof/Config.lean ====
section
/-! DEFINITION. What is fixed for the block (spec/00_scope.md R8, spec/10_state.md R23) and the values the spec leaves
free (spec/93_implementation_defined.md U1 to U4). -/

namespace Sys2Proof

/-- The value the ID register always reads, the ASCII of HUF1 (R23). -/
def Config.idValue : Word := 0x48554631#32

/-- The deepest walk CG_GEN makes, counted in nodes: a code is at most 255 bits (R8, R176), so a path holds at most
256 nodes. DESIGN CHOICE, log entry 9: it cuts the walk only on an arena that is no tree. -/
def Config.maxPathNodes : Nat := 256

/-- FREE VALUE: the `n`-th free draw of an unspecified CSR read (R35, R43, R280, R287; 93_implementation_defined U1 to
U4). It has no body: nothing can be proved of what it is. Log entry 5. -/
opaque Config.freeWord : Nat → Word

/-- FREE VALUE: what the `left` and `right` fields of a leaf hold, which R31 calls meaningful only for an internal
node. No run reads it (R222). Log entry 8. -/
opaque Config.leafChild : NodeIdx

end Sys2Proof
end

