-- ==== Sys2Proof/Syntax.lean ====
section
/-! DEFINITION. The command set HUF1 (spec/30_encoding.md R105): one constructor for each row of spec/opcode_table.json,
and the assembly text of a command (R111). -/

namespace Sys2Proof

/-- A legal command (R105). A format-N command carries nothing, a format-I command one byte (R101, R102). -/
inductive Instr where
  | nop
  | sreset
  | errClear
  | tbBuild
  | cgGen
  | encBegin
  | encSym (sym : Byte)
  | encFlush
  | decBegin
  | decByte (packed : Byte)
  | decEnd
  deriving DecidableEq, Repr

/-- The mnemonic of a command (R105). -/
def Instr.mnemonic : Instr → String
  | .nop => "NOP"
  | .sreset => "SRESET"
  | .errClear => "ERR_CLEAR"
  | .tbBuild => "TB_BUILD"
  | .cgGen => "CG_GEN"
  | .encBegin => "ENC_BEGIN"
  | .encSym _ => "ENC_SYM"
  | .encFlush => "ENC_FLUSH"
  | .decBegin => "DEC_BEGIN"
  | .decByte _ => "DEC_BYTE"
  | .decEnd => "DEC_END"

/-- The operand of a format-I command (R102). -/
def Instr.operand : Instr → Option Byte
  | .encSym x => some x
  | .decByte b => some b
  | .nop | .sreset | .errClear | .tbBuild | .cgGen | .encBegin | .encFlush | .decBegin | .decEnd => none

/-- The assembly text of a command: its mnemonic, then the operand of a format-I command in decimal (R111). -/
def Instr.asm (i : Instr) : String :=
  match i.operand with
  | none => i.mnemonic
  | some b => i.mnemonic ++ " " ++ toString b.toNat

end Sys2Proof
end

