-- ==== Sys2Proof/WellFormed.lean ====
section
/-! DEFINITION. Which command words and which instructions are well formed (spec/30_encoding.md R101, R105, R107), said by
the match and mask rows of R105. The decoder of Decode.lean is written from R109 instead, by fields, so that the two can
be proved to agree. -/

namespace Sys2Proof

/-- One row of the opcode map with its match and mask (R105). -/
structure OpcodeRow where
  mnemonic : String
  matchBits : Word
  maskBits : Word
  deriving DecidableEq, Repr

/-- The mask of a format-N command and of a format-I command (R105). -/
def maskN : Word := 0xFFFFFFFF#32

/-- The mask of a format-I command: IMM8 is free (R105). -/
def maskI : Word := 0xFFFF00FF#32

/-- The opcode map (R105). -/
def opcodeRows : List OpcodeRow :=
  [⟨"NOP", 0x00#32, maskN⟩, ⟨"SRESET", 0x01#32, maskN⟩, ⟨"ERR_CLEAR", 0x02#32, maskN⟩,
   ⟨"TB_BUILD", 0x10#32, maskN⟩, ⟨"CG_GEN", 0x20#32, maskN⟩, ⟨"ENC_BEGIN", 0x30#32, maskN⟩,
   ⟨"ENC_SYM", 0x31#32, maskI⟩, ⟨"ENC_FLUSH", 0x32#32, maskN⟩, ⟨"DEC_BEGIN", 0x40#32, maskN⟩,
   ⟨"DEC_BYTE", 0x41#32, maskI⟩, ⟨"DEC_END", 0x42#32, maskN⟩]

/-- A word fits a row when it agrees with the row's match on the row's mask (R105). -/
def OpcodeRow.fits (r : OpcodeRow) (w : Word) : Bool := w &&& r.maskBits == r.matchBits

/-- A command word is well formed when it fits a row of the opcode map; every other word is illegal (R107, R108). -/
def wordWellFormed (w : Word) : Bool := opcodeRows.any (fun r => r.fits w)

/-- Whether an operand given as a plain number fits the 8-bit field IMM8 (R101, R102). -/
def operandFits (n : Nat) : Bool := n < 256

/-- An instruction is well formed when its operand, if its format has one, fits IMM8 (R101, R102). The operand's type
already says so; the check is written out for a reader, and Tests/Slice0.lean shows what it refuses. -/
def Instr.wellFormed (i : Instr) : Bool :=
  match i.operand with
  | none => true
  | some b => operandFits b.toNat

end Sys2Proof
end

