-- ==== Sys2Proof/Decode.lean ====
section
/-! DEFINITION. Decoding a command word (spec/30_encoding.md R107, R109), total on all words and rejecting by name, and after
it the encoder (R101, R105). -/

namespace Sys2Proof

/-- Why a command word is illegal (R107). -/
inductive Illegal where
  /-- (a) OP is not in the opcode map. -/
  | unknownOp
  /-- (b) RSV is not 0. -/
  | reservedNotZero
  /-- (c) the format is N and IMM8 is not 0. -/
  | operandNotZero
  deriving DecidableEq, Repr

/-- OP = w[7:0] (R101). -/
def opOf (w : Word) : Byte := w.extractLsb' 0 8

/-- IMM8 = w[15:8] (R101). -/
def immOf (w : Word) : Byte := w.extractLsb' 8 8

/-- RSV = w[31:16] (R101). -/
def rsvOf (w : Word) : BitVec 16 := w.extractLsb' 16 16

/-- A format-N command: its IMM8 must be 0 (R101, R107 (c)). -/
def formatN (imm : Byte) (i : Instr) : Except Illegal Instr :=
  if imm = 0#8 then .ok i else .error .operandNotZero

/-- The opcode map by fields, once RSV is known to be 0 (R109). -/
def decodeOp (op imm : Byte) : Except Illegal Instr :=
  if op = 0x00#8 then formatN imm .nop
  else if op = 0x01#8 then formatN imm .sreset
  else if op = 0x02#8 then formatN imm .errClear
  else if op = 0x10#8 then formatN imm .tbBuild
  else if op = 0x20#8 then formatN imm .cgGen
  else if op = 0x30#8 then formatN imm .encBegin
  else if op = 0x31#8 then .ok (.encSym imm)
  else if op = 0x32#8 then formatN imm .encFlush
  else if op = 0x40#8 then formatN imm .decBegin
  else if op = 0x41#8 then .ok (.decByte imm)
  else if op = 0x42#8 then formatN imm .decEnd
  else .error .unknownOp

/-- Decoding is total on all 2^32 words (R109). -/
def decode (w : Word) : Except Illegal Instr :=
  if rsvOf w = 0#16 then decodeOp (opOf w) (immOf w) else .error .reservedNotZero

/-- The OP byte of a command (R105). -/
def opcodeOf : Instr → Byte
  | .nop => 0x00#8
  | .sreset => 0x01#8
  | .errClear => 0x02#8
  | .tbBuild => 0x10#8
  | .cgGen => 0x20#8
  | .encBegin => 0x30#8
  | .encSym _ => 0x31#8
  | .encFlush => 0x32#8
  | .decBegin => 0x40#8
  | .decByte _ => 0x41#8
  | .decEnd => 0x42#8

/-- The IMM8 byte of a command: the operand in format I, 0 in format N (R101). -/
def immediateOf : Instr → Byte
  | .encSym x => x
  | .decByte b => b
  | .nop | .sreset | .errClear | .tbBuild | .cgGen | .encBegin | .encFlush | .decBegin | .decEnd => 0#8

/-- The command word of an instruction: RSV 0, then IMM8, then OP (R101, R105). -/
def encode (i : Instr) : Word := 0#16 ++ immediateOf i ++ opcodeOf i

/-- The instruction this decoder reads from the table's word `w` of `nbits` bits. Every command is one 32-bit word
(R100); the port carries it whole, so no byte order enters (spec/20_memory.md R70, R80). Log entry 20. -/
def decodeTableWord (nbits w : Nat) : Option Instr :=
  if nbits ≤ 32 then
    match decode (BitVec.ofNat 32 (w % 2 ^ nbits)) with
    | .ok i => some i
    | .error _ => none
  else none

end Sys2Proof
end

