-- ==== Sys2Proof/Machine/State.lean ====
section
/-! DEFINITION. The state of the block (spec/10_state.md R22 to R55), of its ports (spec/20_memory.md R70, R84) and of the
host that drives it (spec/00_scope.md R13), as plain data; the stops a step can make; and the state after reset. -/

namespace Sys2Proof.Machine

/-- The engine (R22): IDLE, or BUSY with the command word it holds, latched whole at acceptance (R90). -/
inductive Engine where
  | idle
  | busy (w : Word)
  deriving DecidableEq, Repr

/-- The values of STATUS.ERR_CODE by name (spec/60_exceptions.md R250). `format` is never raised (R256). -/
inductive ErrCode where
  | none
  | emptyInput
  | logic
  | truncatedStream
  | sequence
  | illegalCmd
  | format
  deriving DecidableEq, Repr

/-- CTRL, the write-1-to-clear bits of STATUS, and the error record (R24, R25, R26). -/
structure Ctl where
  irqEnErr : Bool
  irqEnDone : Bool
  done : Bool
  busyWr : Bool
  errCode : ErrCode
  errInfo : Word
  deriving DecidableEq, Repr

/-- An entry of the node arena (R31). -/
inductive Node where
  | leaf (sym : Byte) (freq : Freq)
  | internal (left right : NodeIdx) (freq : Freq)
  deriving DecidableEq, Repr

/-- TB: TREE_VALID, the node arena, NLEAF and ROOT (R25, R31, R32, R33). -/
structure TreeRegs where
  valid : Bool
  node : Vector Node 511
  nleaf : Fin 257
  root : NodeIdx
  deriving DecidableEq, Repr

/-- CG: CODES_VALID, CODE_LEN, CODE_BITS and MAXLEN (R25, R40, R41, R42). The 256 stored bits of a symbol are its
eight words with word 0 most significant, so code bit i is bit i counted from the most significant (R41). -/
structure CodeRegs where
  valid : Bool
  len : Vector Byte 256
  bits : Vector (BitVec 256) 256
  maxlen : Byte
  deriving DecidableEq, Repr

/-- ENC: ENC_ACTIVE, ACC, ACC_CNT, ENC_BITCNT and ENC_SYMCNT (R25, R44, R45, R46). -/
structure EncRegs where
  active : Bool
  acc : Byte
  accCnt : BitVec 3
  bitcnt : Counter
  symcnt : Counter
  deriving DecidableEq, Repr

/-- DEC: DEC_ACTIVE, DEC_NBITS, DEC_REMAIN, DEC_CURSOR and DEC_SYMCNT (R25, R48 to R51). -/
structure DecRegs where
  active : Bool
  nbits : Counter
  remain : Counter
  cursor : NodeIdx
  symcnt : Counter
  deriving DecidableEq, Repr

/-- An output stream (R54, R84): the bytes pushed since reset are `taken ++ pending`, and the host has received the
part `taken`. -/
structure Stream where
  taken : List Byte
  pending : List Byte
  deriving DecidableEq, Repr

/-- One turn of an agent: of the engine, of the command port's handshake, or an action of the host
(spec/00_scope.md R13, spec/40_control.md R131, spec/70_reset_and_hazards.md R280). Log entry 1. -/
inductive Turn where
  /-- The engine executes and retires the command it holds, if it is BUSY. -/
  | engine
  /-- The command port's handshake: the oldest offered word is accepted if `cmd_ready` is 1. -/
  | accept
  /-- The host holds out one more word on the command port. -/
  | offer (w : Word)
  | csrRead (a : Addr)
  | csrWrite (a : Addr) (v : Word)
  /-- The host takes one byte from enc_out, if one is there. -/
  | takeEnc
  | takeDec
  /-- From here on the host does, or does not, keep taking bytes from enc_out (R290). -/
  | drainEnc (on : Bool)
  | drainDec (on : Bool)
  /-- The host drives the rst_n pin (R280). -/
  | setRst (level : Bool)
  deriving DecidableEq, Repr

/-- The host's side of the ports: what it offers, what it will do, whether it drains the streams (R290), and what its
CSR reads returned. None of it is the block's. Log entries 1, 2, 3, 14. -/
structure HostSide where
  offers : List Word
  script : List Turn
  drainsEnc : Bool
  drainsDec : Bool
  reads : List Word
  deriving DecidableEq, Repr

/-- The state of the block, its ports and its host. `draws` is the model's own counter of free draws (log entry 5). -/
structure State where
  eng : Engine
  rstN : Bool
  ctl : Ctl
  freq : Vector Word 256
  tb : TreeRegs
  cg : CodeRegs
  enc : EncRegs
  dec : DecRegs
  encOut : Stream
  decOut : Stream
  host : HostSide
  draws : Nat
  deriving DecidableEq, Repr

/-- The stops of a step. The block itself never stops (its errors are recorded in ERR_CODE, R258). -/
inductive Fault where
  /-- The engine's turn must push to enc_out and the host does not drain it: ENC_SYM and ENC_FLUSH raise it. The spec
  treats it as stuck (R86, R290, spec/93_implementation_defined.md H-1). Safe. Log entries 3, 4. -/
  | encOutUndrained
  /-- The engine's turn must push to dec_out and the host does not drain it: DEC_BYTE raises it. The spec treats it as
  stuck (R86, R290, H-1). Safe. Log entries 3, 4. -/
  | decOutUndrained
  deriving DecidableEq, Repr

/-- What has no meaning in the model. -/
inductive Refusal where
  /-- An instruction whose arm has no meaning yet. No arm raises it now. Safe. -/
  | notModelled (mnemonic : String)
  deriving DecidableEq, Repr

/-- CTRL, STATUS and ERR_INFO after reset (R55). -/
def Ctl.reset : Ctl :=
  { irqEnErr := false, irqEnDone := false, done := false, busyWr := false, errCode := .none, errInfo := 0#32 }

/-- TB after reset (R55). The arena's contents are unspecified there and no read shows them (R35); the stored entry is
a DESIGN CHOICE, log entry 7. -/
def TreeRegs.reset : TreeRegs :=
  { valid := false, node := Vector.replicate 511 (.leaf 0#8 0#40), nleaf := 0, root := 0 }

/-- CG after reset (R55). The table's contents are unspecified there and no read shows them (R43); the stored zeros are
a DESIGN CHOICE, log entry 7. -/
def CodeRegs.reset : CodeRegs :=
  { valid := false, len := Vector.replicate 256 0#8, bits := Vector.replicate 256 0#256, maxlen := 0#8 }

/-- ENC after reset (R55). -/
def EncRegs.reset : EncRegs := { active := false, acc := 0#8, accCnt := 0#3, bitcnt := 0#64, symcnt := 0#64 }

/-- DEC after reset (R55). -/
def DecRegs.reset : DecRegs := { active := false, nbits := 0#64, remain := 0#64, cursor := 0, symcnt := 0#64 }

/-- An output stream nothing was pushed to (R55). -/
def Stream.empty : Stream := { taken := [], pending := [] }

/-- A host that offers nothing, has nothing left to do and drains both streams. DESIGN CHOICE, log entries 2 and 3. -/
def HostSide.quiet : HostSide := { offers := [], script := [], drainsEnc := true, drainsDec := true, reads := [] }

/-- The machine right after reset: the table of R55, with rst_n back at 1 (R282). -/
def State.reset : State :=
  { eng := .idle, rstN := true, ctl := Ctl.reset, freq := Vector.replicate 256 0#32, tb := TreeRegs.reset,
    cg := CodeRegs.reset, enc := EncRegs.reset, dec := DecRegs.reset, encOut := Stream.empty, decOut := Stream.empty,
    host := HostSide.quiet, draws := 0 }

end Sys2Proof.Machine
end

