-- ==== Sys2Proof/Machine/Operands.lean ====
section
/-! DEFINITION. How the arrays, the bit strings and the one operand form are read (spec/30_encoding.md R102,
spec/20_memory.md R81, spec/10_state.md R30, R31, R40, R41, spec/43_stream_encoder.md R191). -/

namespace Sys2Proof.Machine

/-- A node index from a number (R31: indices 0..510). Every number the rules give it is below 511. -/
def nodeIdx (k : Nat) : NodeIdx := Fin.ofNat 511 k

/-- FREQ[x] (R30). -/
def State.freqAt (s : State) (x : Byte) : Word := s.freq.get x.toFin

/-- NODE[k] (R31). -/
def TreeRegs.at (t : TreeRegs) (k : NodeIdx) : Node := t.node.get k

/-- CODE_LEN[x] (R40). -/
def CodeRegs.lenAt (t : CodeRegs) (x : Byte) : Byte := t.len.get x.toFin

/-- The 256 stored code bits of x (R41). -/
def CodeRegs.bitsAt (t : CodeRegs) (x : Byte) : BitVec 256 := t.bits.get x.toFin

/-- The `is_leaf` field of a node (R31). -/
def Node.isLeaf : Node → Bool
  | .leaf _ _ => true
  | .internal _ _ _ => false

/-- The `freq` field of a node (R31). -/
def Node.freq : Node → Freq
  | .leaf _ f => f
  | .internal _ _ f => f

/-- The `left` field of a node; a leaf's is meaningless and free (R31, log entry 8). -/
def Node.left : Node → NodeIdx
  | .leaf _ _ => Config.leafChild
  | .internal l _ _ => l

/-- The `right` field of a node; a leaf's is meaningless and free (R31, log entry 8). -/
def Node.right : Node → NodeIdx
  | .leaf _ _ => Config.leafChild
  | .internal _ r _ => r

/-- The child a bit leads to: 0 to the left, 1 to the right (R172, R222). -/
def Node.child (b : Bool) (n : Node) : NodeIdx := if b then n.right else n.left

/-- Every symbol in ascending order, 0..255 (R8, R152). -/
def allSymbols : List Byte := (List.range 256).map (BitVec.ofNat 8)

/-- A packed byte read most significant bit first, as DEC takes its operand (R81, R102, R224). -/
def bitsMsbFirst (b : Byte) : List Bool :=
  [b.getLsbD 7, b.getLsbD 6, b.getLsbD 5, b.getLsbD 4, b.getLsbD 3, b.getLsbD 2, b.getLsbD 1, b.getLsbD 0]

/-- CODE_BITS[x][w] for w = 0..7 (R41). -/
def CodeRegs.wordAt (t : CodeRegs) (x : Byte) (w : Fin 8) : Word := (t.bitsAt x).extractLsb' (32 * (7 - w.val)) 32

/-- Code bit i of symbol x: bit 31 - (i mod 32) of CODE_BITS[x][i div 32] (R41, R191). -/
def CodeRegs.codeBit (t : CodeRegs) (x : Byte) (i : Nat) : Bool := (t.bitsAt x).getMsbD i

/-- The code of symbol x as a bit string, first bit first, of length CODE_LEN[x] (R191). -/
def CodeRegs.codeOf (t : CodeRegs) (x : Byte) : List Bool := (List.range (t.lenAt x).toNat).map (t.codeBit x)

/-- The code bits `c`, from bit position `i` on, laid out first bit first (R41). -/
def packCodeFrom (i : Nat) : List Bool → BitVec 256
  | [] => 0#256
  | b :: c => (if b then 1#256 <<< (255 - i) else 0#256) ||| packCodeFrom (i + 1) c

/-- The stored bits of a code: code bit i at position i, every later bit 0 (R41). -/
def packCode (c : List Bool) : BitVec 256 := packCodeFrom 0 c

/-- The byte `v` with bit `i` replaced by `b`, the `v[i] <- b` of the pseudocode (R10, R11). -/
def setByteBit (v : Byte) (i : Nat) (b : Bool) : Byte :=
  if b then v ||| 1#8 <<< i else v &&& ~~~(1#8 <<< i)

end Sys2Proof.Machine
end

