-- ==== Sys2Proof/Machine/Flags.lean ====
section
/-! DEFINITION. The status and control words, the interrupt line and the ready and valid outputs, computed from State
(spec/10_state.md R22, R24, R25, R34, spec/60_exceptions.md R250, R266, spec/70_reset_and_hazards.md R280). -/

namespace Sys2Proof.Machine

/-- The number of an error (R250). -/
def ErrCode.code : ErrCode → BitVec 4
  | .none => 0#4
  | .emptyInput => 1#4
  | .logic => 2#4
  | .truncatedStream => 3#4
  | .sequence => 4#4
  | .illegalCmd => 5#4
  | .format => 6#4

/-- STATUS.BUSY (R22, R25). -/
def Engine.isBusy : Engine → Bool
  | .idle => false
  | .busy _ => true

/-- STATUS.DEC_MIDPATH = DEC_ACTIVE & (DEC_CURSOR != ROOT) (R25). -/
def State.decMidpath (s : State) : Bool := s.dec.active && s.dec.cursor != s.tb.root

/-- STATUS (R25): reserved, ERR_CODE, BUSY_WR, DEC_MIDPATH, DEC_ACTIVE, ENC_ACTIVE, CODES_VALID, TREE_VALID, DONE, BUSY. -/
def State.statusWord (s : State) : Word :=
  0#20 ++ s.ctl.errCode.code ++ BitVec.ofBool s.ctl.busyWr ++ BitVec.ofBool s.decMidpath
    ++ BitVec.ofBool s.dec.active ++ BitVec.ofBool s.enc.active ++ BitVec.ofBool s.cg.valid
    ++ BitVec.ofBool s.tb.valid ++ BitVec.ofBool s.ctl.done ++ BitVec.ofBool s.eng.isBusy

/-- CTRL (R24): reserved bits read 0. -/
def Ctl.ctrlWord (c : Ctl) : Word := 0#30 ++ BitVec.ofBool c.irqEnDone ++ BitVec.ofBool c.irqEnErr

/-- ENC_ACC (R44): ACC_CNT in [10:8], ACC in [7:0]. -/
def EncRegs.accWord (e : EncRegs) : Word := 0#21 ++ e.accCnt ++ e.acc

/-- ROOT_FREQ: NODE[ROOT].freq while TREE_VALID is 1, else 0 (R34). -/
def TreeRegs.rootFreq (t : TreeRegs) : Freq := if t.valid then (t.at t.root).freq else 0#40

/-- NODE_INFO of an entry (R31). -/
def Node.infoWord : Node → Word
  | .leaf sym _ => 1#1 ++ 0#23 ++ sym
  | .internal l r _ => 0#7 ++ BitVec.ofNat 9 r.val ++ 0#7 ++ BitVec.ofNat 9 l.val

/-- The level interrupt output (R266). -/
def State.irq (s : State) : Bool :=
  (s.ctl.irqEnErr && (s.ctl.errCode != .none || s.ctl.busyWr)) || (s.ctl.irqEnDone && s.ctl.done)

/-- `cmd_ready`: 1 exactly when the engine is IDLE and reset is not asserted (R22, R280). -/
def State.cmdReady (s : State) : Bool := s.rstN && s.eng == .idle

/-- `enc_out_valid`: a byte is there to take, and reset is not asserted (R70, R280). -/
def State.encOutValid (s : State) : Bool := s.rstN && s.encOut.pending != []

/-- `dec_out_valid` (R70, R280). -/
def State.decOutValid (s : State) : Bool := s.rstN && s.decOut.pending != []

end Sys2Proof.Machine
end

