-- ==== Sys2Proof/Machine/Ops.lean ====
section
/-! DEFINITION. The shared operations of the commands: recording an error (the block's trap entry, spec/60_exceptions.md
R258) and acknowledging it (R263), acceptance (spec/10_state.md R22) and retirement (spec/40_control.md R131), the
acceptance gate (R130), the preconditions (R132), the reset of the block (R55, R280), and pushing a byte to an output
stream (spec/20_memory.md R84, R86). -/

namespace Sys2Proof.Machine

/-- `raise E(w)`: ERR_CODE and ERR_INFO record the error and the command word, and nothing else is saved (R258). The
abort effect of E (R259) is written by the command that raises it. Only a command that passed the gate raises, so
ERR_CODE was 0 (R264). Log entry 18. -/
def raise (e : ErrCode) (w : Word) (s : State) : State :=
  { s with ctl := { s.ctl with errCode := e, errInfo := w } }

/-- The return from an error, ERR_CLEAR's effect: ERR_CODE and ERR_INFO become 0 and nothing is restored (R135, R263). -/
def acknowledge (s : State) : State :=
  { s with ctl := { s.ctl with errCode := .none, errInfo := 0#32 } }

/-- Acceptance: the engine goes from IDLE to BUSY with the word, latched whole (R22, R90). DONE becomes 0, so that a DONE that
reads 1 says that every accepted command has retired (spec/20_memory.md R88). DEDUCED, log entry 12. -/
def latch (w : Word) (s : State) : State := { s with eng := .busy w, ctl := { s.ctl with done := false } }

/-- Retirement: DONE becomes 1 and the engine IDLE, nothing else (R131). -/
def retire (s : State) : State := { s with eng := .idle, ctl := { s.ctl with done := true } }

/-- Every command that did not stop retires (R130, R131). -/
def retireOutcome : Host.Outcome State Fault Refusal → Host.Outcome State Fault Refusal
  | .next s => .next (retire s)
  | .fault r => .fault r
  | .refused r => .refused r

/-- The bytes the host has not taken are dropped, the taken prefix is kept (R134, R280). -/
def Stream.discard (st : Stream) : Stream := { st with pending := [] }

/-- A byte appended to a stream (R84). -/
def Stream.push (st : Stream) (b : Byte) : Stream := { st with pending := st.pending ++ [b] }

/-- The host takes the oldest byte it has not taken, if there is one (R84). -/
def Stream.take (st : Stream) : Stream :=
  match st.pending with
  | [] => st
  | b :: rest => { taken := st.taken ++ [b], pending := rest }

/-- Every byte pushed since reset and kept, oldest first (R84): `encOut` and `decOut` of the rules. -/
def Stream.all (st : Stream) : List Byte := st.taken ++ st.pending

/-- Every state item of R55 at its reset value, the untaken stream bytes dropped (R134, R280). The host's side and the
level of rst_n are not the block's and stay. Log entry 13. -/
def resetBlock (s : State) : State :=
  { State.reset with
    rstN := s.rstN, encOut := s.encOut.discard, decOut := s.decOut.discard, host := s.host, draws := s.draws }

/-- `push_enc(b)` (R11, R84). -/
def pushEnc (b : Byte) (s : State) : State := { s with encOut := s.encOut.push b }

/-- `push_dec(x)` (R11, R84). -/
def pushDec (x : Byte) (s : State) : State := { s with decOut := s.decOut.push x }

/-- A command that took the state from `s` to `t` can retire only if the host takes every byte it pushed (R86, R290);
otherwise the engine stays BUSY for good, which the spec treats as stuck (93_implementation_defined H-1). Log entries 3, 4. -/
def drained (s t : State) : Host.Outcome State Fault Refusal :=
  if t.encOut ≠ s.encOut ∧ s.host.drainsEnc = false then .fault .encOutUndrained
  else if t.decOut ≠ s.decOut ∧ s.host.drainsDec = false then .fault .decOutUndrained
  else .next t

/-- Whether the precondition of a command fails, so that it raises SEQUENCE (the table of R132). -/
def sequenceFails (i : Instr) (s : State) : Bool :=
  match i with
  | .nop | .sreset | .errClear => false
  | .tbBuild => s.enc.active || s.dec.active
  | .cgGen => !s.tb.valid || s.enc.active || s.dec.active
  | .encBegin => !s.cg.valid || s.enc.active
  | .encSym _ | .encFlush => !s.enc.active
  | .decBegin => !s.tb.valid || s.dec.active
  | .decByte _ | .decEnd => !s.dec.active

/-- The symbols with a nonzero count, in ascending order (R151, R157). -/
def State.presentSymbols (s : State) : List Byte := allSymbols.filter (fun x => s.freqAt x ≠ 0#32)

/-- The error a command that passed the gate raises, if any (R261: SEQUENCE first, then the operation's own error). -/
def errorOf (i : Instr) (s : State) : Option ErrCode :=
  if sequenceFails i s then some .sequence
  else
    match i with
    | .tbBuild => if s.presentSymbols = [] then some .emptyInput else none
    | .encSym x => if s.cg.lenAt x = 0#8 then some .logic else none
    | .decEnd => if s.dec.remain ≠ 0#64 ∨ s.dec.cursor ≠ s.tb.root then some .truncatedStream else none
    | .nop | .sreset | .errClear | .cgGen | .encBegin | .encFlush | .decBegin | .decByte _ => none

/-- NOP, SRESET and ERR_CLEAR run even while an error is pending (R130). -/
def passesPendingError : Instr → Bool
  | .nop | .sreset | .errClear => true
  | .tbBuild | .cgGen | .encBegin | .encSym _ | .encFlush | .decBegin | .decByte _ | .decEnd => false

/-- The acceptance gate rejects the word (R130): an error is pending and the word is none of NOP, SRESET, ERR_CLEAR. -/
def gateRejects (d : Except Illegal Instr) (s : State) : Bool :=
  s.ctl.errCode != .none &&
    match d with
    | .ok i => !passesPendingError i
    | .error _ => true

end Sys2Proof.Machine
end

