-- ==== Sys2Proof/Machine/CodeGen.lean ====
section
/-! DEFINITION. The code generator CG and its command CG_GEN (spec/42_code_gen.md R170 to R177). -/

namespace Sys2Proof.Machine

/-- `walk(k, c)`: depth first, '0' to the left and '1' to the right, each leaf with the path to it (R171, R172). `nodes`
bounds the nodes of a path; 256 is enough for every tree (R176, log entry 9). -/
def walk (t : TreeRegs) : (nodes : Nat) → (k : NodeIdx) → (c : List Bool) → List (Byte × List Bool)
  | 0, _, _ => []
  | nodes + 1, k, c =>
    match t.at k with
    | .leaf x _ => [(x, c)]
    | .internal l r _ => walk t nodes l (c ++ [false]) ++ walk t nodes r (c ++ [true])

/-- The code of every leaf: its path from the root, or "0" where the root is the only leaf (R171, R173). -/
def leafCodes (t : TreeRegs) : List (Byte × List Bool) :=
  match t.at t.root with
  | .leaf x _ => [(x, [false])]
  | .internal _ _ _ => walk t Config.maxPathNodes t.root []

/-- `set_code(x, c)` (R171). -/
def CodeRegs.setCode (r : CodeRegs) (x : Byte) (c : List Bool) : CodeRegs :=
  { r with len := r.len.set x.toNat (BitVec.ofNat 8 c.length) x.isLt, bits := r.bits.set x.toNat (packCode c) x.isLt }

/-- The largest CODE_LEN of a table (R171, R177). -/
def CodeRegs.longest (r : CodeRegs) : Nat := allSymbols.foldl (fun m x => max m (r.lenAt x).toNat) 0

/-- CODE_LEN and CODE_BITS: cleared, then the code of each leaf set (R171). -/
def codeEntries (t : TreeRegs) : CodeRegs :=
  (leafCodes t).foldl (fun r p => r.setCode p.1 p.2) { CodeRegs.reset with valid := true }

/-- The code table CG_GEN makes from a tree, with MAXLEN and CODES_VALID (R171). -/
def generatedCodes (t : TreeRegs) : CodeRegs :=
  { codeEntries t with maxlen := BitVec.ofNat 8 (codeEntries t).longest }

/-- CG_GEN (R171). -/
def execCgGen (s : State) : Host.Outcome State Fault Refusal :=
  if sequenceFails .cgGen s then .next (raise .sequence (encode .cgGen) s)
  else .next { s with cg := generatedCodes s.tb }

end Sys2Proof.Machine
end

