-- ==== Sys2Proof/Machine/Control.lean ====
section
/-! DEFINITION. The control commands NOP, SRESET and ERR_CLEAR (spec/40_control.md R133 to R135). The gate and the retirement
around them are the frame's (R130, R131; Machine/Execute.lean). -/

namespace Sys2Proof.Machine

/-- NOP: no operation (R133). -/
def execNop (s : State) : Host.Outcome State Fault Refusal := .next s

/-- SRESET: every state item of R55 to its reset value, the untaken stream bytes discarded (R134). -/
def execSreset (s : State) : Host.Outcome State Fault Refusal := .next (resetBlock s)

/-- ERR_CLEAR: ERR_CODE and ERR_INFO become 0 (R135). -/
def execErrClear (s : State) : Host.Outcome State Fault Refusal := .next (acknowledge s)

end Sys2Proof.Machine
end

