-- ==== Sys2Proof/Machine/Decoder.lean ====
section
/-! DEFINITION. The bit-walker DEC and its commands DEC_BEGIN, DEC_BYTE and DEC_END (spec/44_stream_decoder.md R220 to R231). -/

namespace Sys2Proof.Machine

/-- A decoded symbol pushed and counted (R222). -/
def emitSymbol (x : Byte) (s : State) : State :=
  pushDec x { s with dec := { s.dec with symcnt := s.dec.symcnt + 1#64 } }

/-- `dec_bit(b)`: one step of the walk (R222). A single-leaf tree pushes its symbol for every bit (R225). -/
def decBit (b : Bool) (s : State) : State :=
  match s.tb.at s.tb.root with
  | .leaf x _ => emitSymbol x s
  | .internal _ _ _ =>
    let k := (s.tb.at s.dec.cursor).child b
    match s.tb.at k with
    | .leaf x _ => emitSymbol x { s with dec := { s.dec with cursor := s.tb.root } }
    | .internal _ _ _ => { s with dec := { s.dec with cursor := k } }

/-- The bits of a packed byte walked while DEC_REMAIN is not 0, each one counted down first (R223, R224, R226). -/
def walkBits : List Bool → State → State
  | [], s => s
  | b :: bs, s =>
    if s.dec.remain = 0#64 then s
    else walkBits bs (decBit b { s with dec := { s.dec with remain := s.dec.remain - 1#64 } })

/-- DEC_BEGIN (R220). -/
def execDecBegin (s : State) : Host.Outcome State Fault Refusal :=
  if sequenceFails .decBegin s then .next (raise .sequence (encode .decBegin) s)
  else .next { s with dec := { s.dec with
    active := true, remain := s.dec.nbits, cursor := s.tb.root, symcnt := 0#64 } }

/-- DEC_BYTE b (R224). -/
def execDecByte (b : Byte) (s : State) : Host.Outcome State Fault Refusal :=
  if sequenceFails (.decByte b) s then .next (raise .sequence (encode (.decByte b)) s)
  else drained s (walkBits (bitsMsbFirst b) s)

/-- DEC_END (R227): the decode ends; bits still owed, or a cursor off the root, raise TRUNCATED_STREAM (R228). -/
def execDecEnd (s : State) : Host.Outcome State Fault Refusal :=
  if sequenceFails .decEnd s then .next (raise .sequence (encode .decEnd) s)
  else
    let t := { s with dec := { s.dec with active := false } }
    if s.dec.remain ≠ 0#64 then .next (raise .truncatedStream (encode .decEnd) t)
    else if s.dec.cursor ≠ s.tb.root then .next (raise .truncatedStream (encode .decEnd) t)
    else .next t

end Sys2Proof.Machine
end

