-- ==== Sys2Proof/Machine/Encoder.lean ====
section
/-! DEFINITION. The bit-packer ENC and its commands ENC_BEGIN, ENC_SYM and ENC_FLUSH (spec/43_stream_encoder.md R190 to R200). -/

namespace Sys2Proof.Machine

/-- `emit_bit(b)`: one code bit into ACC, most significant first, and the full byte pushed at once (R193). -/
def emitBit (b : Bool) (s : State) : State :=
  let acc := setByteBit s.enc.acc (7 - s.enc.accCnt.toNat) b
  if s.enc.accCnt.toNat + 1 = 8 then
    pushEnc acc { s with enc := { s.enc with acc := 0#8, accCnt := 0#3, bitcnt := s.enc.bitcnt + 1#64 } }
  else
    { s with enc := { s.enc with acc := acc, accCnt := s.enc.accCnt + 1#3, bitcnt := s.enc.bitcnt + 1#64 } }

/-- The bits of a code appended in order (R191, R194). -/
def emitBits : List Bool → State → State
  | [], s => s
  | b :: c, s => emitBits c (emitBit b s)

/-- ENC_BEGIN (R190). -/
def execEncBegin (s : State) : Host.Outcome State Fault Refusal :=
  if sequenceFails .encBegin s then .next (raise .sequence (encode .encBegin) s)
  else .next { s with enc := { active := true, acc := 0#8, accCnt := 0#3, bitcnt := 0#64, symcnt := 0#64 } }

/-- ENC_SYM x (R194): the code of x appended bit by bit, or LOGIC with the encode aborted where x has none (R195, R259). -/
def execEncSym (x : Byte) (s : State) : Host.Outcome State Fault Refusal :=
  if sequenceFails (.encSym x) s then .next (raise .sequence (encode (.encSym x)) s)
  else if s.cg.lenAt x = 0#8 then
    .next (raise .logic (encode (.encSym x)) { s with enc := { s.enc with active := false } })
  else
    let t := emitBits (s.cg.codeOf x) s
    drained s { t with enc := { t.enc with symcnt := t.enc.symcnt + 1#64 } }

/-- ENC_FLUSH (R197): a partial byte is pushed as it stands, zero padded, and the encode ends. -/
def execEncFlush (s : State) : Host.Outcome State Fault Refusal :=
  if sequenceFails .encFlush s then .next (raise .sequence (encode .encFlush) s)
  else
    let t := if s.enc.accCnt = 0#3 then s else pushEnc s.enc.acc s
    drained s { t with enc := { s.enc with active := false, acc := 0#8, accCnt := 0#3 } }

end Sys2Proof.Machine
end

