-- ==== Sys2Proof/Machine/TreeBuilder.lean ====
section
/-! DEFINITION. The tree builder TB and its command TB_BUILD (spec/41_tree_builder.md R150 to R162). -/

namespace Sys2Proof.Machine

/-- A live node of the build: its frequency and its index (R52, R153). -/
structure Entry where
  freq : Freq
  idx : NodeIdx
  deriving DecidableEq, Repr

/-- The selection key (freq, index), smaller first (R154). -/
def Entry.before (a b : Entry) : Bool := a.freq < b.freq || (a.freq == b.freq && a.idx < b.idx)

/-- The live node with the smallest key, and the others (R154). -/
def extractMin (m : Entry) : List Entry → Entry × List Entry
  | [] => (m, [])
  | e :: es =>
    if e.before m then ((extractMin e es).1, m :: (extractMin e es).2)
    else ((extractMin m es).1, e :: (extractMin m es).2)

/-- The pairing loop (R152, R153): while two nodes are live, remove the smallest, then the smallest of the rest, and make
them the left and the right child of the node at index `next` (R155, R156). Gives the internal nodes in creation
order; `passes` bounds the number of loop passes. -/
def pairUp : (passes : Nat) → (live : List Entry) → (next : Nat) → List Node
  | 0, _, _ => []
  | _ + 1, [], _ => []
  | passes + 1, e :: es, next =>
    match extractMin e es with
    | (_, []) => []
    | (a, e' :: es') =>
      let (b, others) := extractMin e' es'
      let sum := a.freq + b.freq
      .internal a.idx b.idx sum :: pairUp passes ({ freq := sum, idx := nodeIdx next } :: others) (next + 1)

/-- The leaves, one for each present symbol in ascending order, with the zero-extended count (R155, R157). -/
def leafNodes (s : State) : List Node :=
  s.presentSymbols.map (fun x => .leaf x ((s.freqAt x).setWidth 40))

/-- The first live set: every leaf with its index (R152, R153). -/
def liveEntries (leaves : List Node) : List Entry :=
  leaves.zipIdx.map (fun p => { freq := p.1.freq, idx := nodeIdx p.2 })

/-- NODE[0..2n-2]: the leaves, then the internal nodes in creation order (R152, R157). -/
def builtNodes (s : State) : List Node :=
  leafNodes s ++ pairUp (leafNodes s).length (liveEntries (leafNodes s)) (leafNodes s).length

/-- The nodes `ns` written to the arena from index `k` on (R152). -/
def writeNodes (arena : Vector Node 511) (k : Nat) : List Node → Vector Node 511
  | [] => arena
  | n :: ns => writeNodes (arena.setIfInBounds k n) (k + 1) ns

/-- The tree registers after a build of at least one leaf: ROOT is the last node made (R152, R159). -/
def builtTree (s : State) : TreeRegs :=
  { valid := true, node := writeNodes s.tb.node 0 (builtNodes s), nleaf := Fin.ofNat 257 (leafNodes s).length,
    root := nodeIdx ((builtNodes s).length - 1) }

/-- TB_BUILD (R152). CODES_VALID and MAXLEN are cleared on every build; with no present symbol EMPTY_INPUT is raised
with TREE_VALID, NLEAF and ROOT at 0 (R158, R259). -/
def execTbBuild (s : State) : Host.Outcome State Fault Refusal :=
  if sequenceFails .tbBuild s then .next (raise .sequence (encode .tbBuild) s)
  else
    let s' := { s with cg := { s.cg with valid := false, maxlen := 0#8 } }
    if s.presentSymbols = [] then
      .next (raise .emptyInput (encode .tbBuild) { s' with tb := { s.tb with valid := false, nleaf := 0, root := 0 } })
    else .next { s' with tb := builtTree s }

end Sys2Proof.Machine
end

