-- ==== Sys2Proof/Machine/Dispatch.lean ====
section
/-! DEFINITION. The meaning of each command, one arm a command ("perform the rule of d", spec/40_control.md R130). -/

namespace Sys2Proof.Machine

def exec (i : Instr) (s : State) : Host.Outcome State Fault Refusal :=
  match i with
  | .nop => Sys2Proof.Machine.execNop s
  | .sreset => Sys2Proof.Machine.execSreset s
  | .errClear => Sys2Proof.Machine.execErrClear s
  | .tbBuild => Sys2Proof.Machine.execTbBuild s
  | .cgGen => Sys2Proof.Machine.execCgGen s
  | .encBegin => Sys2Proof.Machine.execEncBegin s
  | .encSym x => Sys2Proof.Machine.execEncSym x s
  | .encFlush => Sys2Proof.Machine.execEncFlush s
  | .decBegin => Sys2Proof.Machine.execDecBegin s
  | .decByte b => Sys2Proof.Machine.execDecByte b s
  | .decEnd => Sys2Proof.Machine.execDecEnd s

end Sys2Proof.Machine
end

