-- ==== Sys2Proof/Machine/Execute.lean ====
section
/-! DEFINITION. The frame common to every command: the acceptance gate, ILLEGAL_CMD, the command's own rule, retirement
(spec/40_control.md R130, R131), and the engine's and the command port's turns (spec/10_state.md R22). -/

namespace Sys2Proof.Machine

/-- `execute(w)` (R130): reject, raise ILLEGAL_CMD (R107, R255), or perform the command; then retire (R131). -/
def execute (w : Word) (s : State) : Host.Outcome State Fault Refusal :=
  if gateRejects (decode w) s then .next (retire s)
  else
    match decode w with
    | .error _ => .next (retire (raise .illegalCmd w s))
    | .ok i => retireOutcome (exec i s)

/-- The engine's turn: it executes the command it holds; an IDLE engine only waits (R22, R273). -/
def engineTurn (s : State) : Host.Outcome State Fault Refusal :=
  match s.eng with
  | .idle => .next s
  | .busy w => execute w s

/-- The command port's handshake (R70): the oldest offered word is accepted, whole, when `cmd_ready` is 1; otherwise it
waits (R22, R90, R285). -/
def acceptTurn (s : State) : State :=
  match s.host.offers with
  | [] => s
  | w :: rest =>
    if s.cmdReady then latch w { s with host := { s.host with offers := rest } } else s

end Sys2Proof.Machine
end

