-- ==== Sys2Proof/Machine/Csr.lean ====
section
/-! DEFINITION. The CSR bus: the address map (spec/20_memory.md R72, R73), reads (R74, R76, R78), the reads that are
unspecified (spec/10_state.md R35, R43, spec/70_reset_and_hazards.md R280, R287), and writes (R75 to R77, R262). -/

namespace Sys2Proof.Machine

/-- What the word at a CSR address is (R73). -/
inductive CsrReg where
  | id
  | ctrl
  | status
  | errInfo
  | nleaf
  | root
  | rootFreqLo
  | rootFreqHi
  | maxlen
  | encBitcntLo
  | encBitcntHi
  | encSymcntLo
  | encSymcntHi
  | encAcc
  | decNbitsLo
  | decNbitsHi
  | decRemainLo
  | decRemainHi
  | decSymcntLo
  | decSymcntHi
  | decCursor
  | freq (x : Byte)
  | codeLen (x : Byte)
  | codeBits (x : Byte) (w : Fin 8)
  | nodeInfo (k : NodeIdx)
  | nodeFreqLo (k : NodeIdx)
  | nodeFreqHi (k : NodeIdx)
  | reserved
  deriving DecidableEq, Repr

/-- The word an access reaches: `a & 0xFFFC` (R72). -/
def wordAddr (a : Addr) : Nat := (a &&& 0xFFFC#16).toNat

/-- The registers below 0x0060 (R73). -/
def csrScalar (word : Nat) : CsrReg :=
  if word = 0x00 then .id
  else if word = 0x04 then .ctrl
  else if word = 0x08 then .status
  else if word = 0x0C then .errInfo
  else if word = 0x10 then .nleaf
  else if word = 0x14 then .root
  else if word = 0x18 then .rootFreqLo
  else if word = 0x1C then .rootFreqHi
  else if word = 0x20 then .maxlen
  else if word = 0x28 then .encBitcntLo
  else if word = 0x2C then .encBitcntHi
  else if word = 0x30 then .encSymcntLo
  else if word = 0x34 then .encSymcntHi
  else if word = 0x38 then .encAcc
  else if word = 0x40 then .decNbitsLo
  else if word = 0x44 then .decNbitsHi
  else if word = 0x48 then .decRemainLo
  else if word = 0x4C then .decRemainHi
  else if word = 0x50 then .decSymcntLo
  else if word = 0x54 then .decSymcntHi
  else if word = 0x58 then .decCursor
  else .reserved

/-- The CSR address map (R73). -/
def csrAt (a : Addr) : CsrReg :=
  let word := wordAddr a
  if word < 0x400 then csrScalar word
  else if word < 0x800 then .freq (BitVec.ofNat 8 ((word - 0x400) / 4))
  else if word < 0xC00 then .codeLen (BitVec.ofNat 8 ((word - 0x800) / 4))
  else if word < 0x1000 then .reserved
  else if word < 0x3000 then
    .codeBits (BitVec.ofNat 8 ((word - 0x1000) / 32)) (Fin.ofNat 8 ((word - 0x1000) % 32 / 4))
  else if word < 0x37FC then .nodeInfo (nodeIdx ((word - 0x3000) / 4))
  else if word < 0x4000 then .reserved
  else if word < 0x4FF8 then
    if (word - 0x4000) % 8 = 0 then .nodeFreqLo (nodeIdx ((word - 0x4000) / 8))
    else .nodeFreqHi (nodeIdx ((word - 0x4000) / 8))
  else .reserved

/-- The low and the high word of a 64-bit register (R79). -/
def lowWord (v : Counter) : Word := v.extractLsb' 0 32

/-- The high word of a 64-bit register (R79). -/
def highWord (v : Counter) : Word := v.extractLsb' 32 32

/-- The low word of a 40-bit frequency (R31, R34). -/
def freqLow (f : Freq) : Word := f.extractLsb' 0 32

/-- The high word of a 40-bit frequency, zero extended (R31, R34). -/
def freqHigh (f : Freq) : Word := (f.extractLsb' 32 8).setWidth 32

/-- What a register holds, laid out as its rule says (R74). -/
def csrValue (r : CsrReg) (s : State) : Word :=
  match r with
  | .id => Config.idValue
  | .ctrl => s.ctl.ctrlWord
  | .status => s.statusWord
  | .errInfo => s.ctl.errInfo
  | .nleaf => BitVec.ofNat 32 s.tb.nleaf.val
  | .root => BitVec.ofNat 32 s.tb.root.val
  | .rootFreqLo => freqLow s.tb.rootFreq
  | .rootFreqHi => freqHigh s.tb.rootFreq
  | .maxlen => s.cg.maxlen.setWidth 32
  | .encBitcntLo => lowWord s.enc.bitcnt
  | .encBitcntHi => highWord s.enc.bitcnt
  | .encSymcntLo => lowWord s.enc.symcnt
  | .encSymcntHi => highWord s.enc.symcnt
  | .encAcc => s.enc.accWord
  | .decNbitsLo => lowWord s.dec.nbits
  | .decNbitsHi => highWord s.dec.nbits
  | .decRemainLo => lowWord s.dec.remain
  | .decRemainHi => highWord s.dec.remain
  | .decSymcntLo => lowWord s.dec.symcnt
  | .decSymcntHi => highWord s.dec.symcnt
  | .decCursor => BitVec.ofNat 32 s.dec.cursor.val
  | .freq x => s.freqAt x
  | .codeLen x => (s.cg.lenAt x).setWidth 32
  | .codeBits x w => s.cg.wordAt x w
  | .nodeInfo k => (s.tb.at k).infoWord
  | .nodeFreqLo k => freqLow (s.tb.at k).freq
  | .nodeFreqHi k => freqHigh (s.tb.at k).freq
  | .reserved => 0#32

/-- A mask with every bit set, and one with none. -/
def everyBit : Word := 0xFFFFFFFF#32

/-- The bits of an array register that are unspecified whatever the engine does: NODE reads with TREE_VALID = 0 or
beyond 2*NLEAF - 2 (R35), CODE reads with CODES_VALID = 0 (R43). -/
def staleFree (r : CsrReg) (s : State) : Word :=
  match r with
  | .nodeInfo k | .nodeFreqLo k | .nodeFreqHi k =>
    if s.tb.valid && k.val + 2 ≤ 2 * s.tb.nleaf.val then 0#32 else everyBit
  | .codeLen _ | .codeBits _ _ => if s.cg.valid then 0#32 else everyBit
  | .id | .ctrl | .status | .errInfo | .nleaf | .root | .rootFreqLo | .rootFreqHi | .maxlen
  | .encBitcntLo | .encBitcntHi | .encSymcntLo | .encSymcntHi | .encAcc | .decNbitsLo | .decNbitsHi
  | .decRemainLo | .decRemainHi | .decSymcntLo | .decSymcntHi | .decCursor | .freq _ | .reserved => 0#32

/-- The row of R287 of NOP, of ERR_CLEAR, and of a command that is rejected or raises an error: STATUS[11:8], ERR_INFO. -/
def errorRow (r : CsrReg) : Word :=
  match r with
  | .status => 0x00000F00#32
  | .errInfo => everyBit
  | _ => 0#32

/-- The row of R287 of SRESET: every register but ID. STATUS.BUSY reads 1 all the same (R287), and DONE 0 until SRESET
retires (R88); a reserved address is no register. Log entry 6. -/
def resetRow (r : CsrReg) : Word :=
  match r with
  | .id | .reserved => 0#32
  | .status => 0xFFFFFFFC#32
  | _ => everyBit

/-- The row of R287 of TB_BUILD. -/
def treeRow (r : CsrReg) : Word :=
  match r with
  | .nodeInfo _ | .nodeFreqLo _ | .nodeFreqHi _ | .nleaf | .root | .rootFreqLo | .rootFreqHi | .maxlen
  | .codeLen _ | .codeBits _ _ => everyBit
  | .status => 0x0000000C#32
  | .id | .ctrl | .errInfo | .encBitcntLo | .encBitcntHi | .encSymcntLo | .encSymcntHi | .encAcc | .decNbitsLo
  | .decNbitsHi | .decRemainLo | .decRemainHi | .decSymcntLo | .decSymcntHi | .decCursor | .freq _ | .reserved => 0#32

/-- The row of R287 of CG_GEN. -/
def codeRow (r : CsrReg) : Word :=
  match r with
  | .codeLen _ | .codeBits _ _ | .maxlen => everyBit
  | .status => 0x00000008#32
  | .id | .ctrl | .errInfo | .nleaf | .root | .rootFreqLo | .rootFreqHi | .encBitcntLo | .encBitcntHi | .encSymcntLo
  | .encSymcntHi | .encAcc | .decNbitsLo | .decNbitsHi | .decRemainLo | .decRemainHi | .decSymcntLo | .decSymcntHi
  | .decCursor | .freq _ | .nodeInfo _ | .nodeFreqLo _ | .nodeFreqHi _ | .reserved => 0#32

/-- The row of R287 of ENC_BEGIN, ENC_SYM and ENC_FLUSH. -/
def encodeRow (r : CsrReg) : Word :=
  match r with
  | .encAcc | .encBitcntLo | .encBitcntHi | .encSymcntLo | .encSymcntHi => everyBit
  | .status => 0x00000010#32
  | .id | .ctrl | .errInfo | .nleaf | .root | .rootFreqLo | .rootFreqHi | .maxlen | .decNbitsLo | .decNbitsHi
  | .decRemainLo | .decRemainHi | .decSymcntLo | .decSymcntHi | .decCursor | .freq _ | .codeLen _ | .codeBits _ _
  | .nodeInfo _ | .nodeFreqLo _ | .nodeFreqHi _ | .reserved => 0#32

/-- The row of R287 of DEC_BEGIN, DEC_BYTE and DEC_END. -/
def decodeRow (r : CsrReg) : Word :=
  match r with
  | .decRemainLo | .decRemainHi | .decCursor | .decSymcntLo | .decSymcntHi => everyBit
  | .status => 0x00000060#32
  | .id | .ctrl | .errInfo | .nleaf | .root | .rootFreqLo | .rootFreqHi | .maxlen | .encBitcntLo | .encBitcntHi
  | .encSymcntLo | .encSymcntHi | .encAcc | .decNbitsLo | .decNbitsHi | .freq _ | .codeLen _ | .codeBits _ _
  | .nodeInfo _ | .nodeFreqLo _ | .nodeFreqHi _ | .reserved => 0#32

/-- The bits a running command may write (the table of R287). -/
def commandRow (i : Instr) (r : CsrReg) : Word :=
  match i with
  | .nop | .errClear => errorRow r
  | .sreset => resetRow r
  | .tbBuild => treeRow r
  | .cgGen => codeRow r
  | .encBegin | .encSym _ | .encFlush => encodeRow r
  | .decBegin | .decByte _ | .decEnd => decodeRow r

/-- The bits of a register that are unspecified because the engine is BUSY (R287). A command that raises an error may
write its own row as well. Log entry 6. -/
def busyFree (r : CsrReg) (s : State) : Word :=
  match s.eng with
  | .idle => 0#32
  | .busy w =>
    match decode w with
    | .error _ => errorRow r
    | .ok i =>
      if gateRejects (.ok i) s then errorRow r
      else if (errorOf i s).isSome then errorRow r ||| commandRow i r
      else commandRow i r

/-- The unspecified bits of a read (R35, R43, R287); while rst_n is 0 all of them are (R280). -/
def csrFree (r : CsrReg) (s : State) : Word :=
  if s.rstN then staleFree r s ||| busyFree r s else everyBit

/-- The host reads a CSR (R74): the specified bits hold the register's value, the others a fresh free draw. The value is
added to the host's record; nothing of the block changes (R78). Log entries 5, 14. -/
def csrRead (a : Addr) (s : State) : State :=
  let r := csrAt a
  let free := csrFree r s
  if free = 0#32 then { s with host := { s.host with reads := s.host.reads ++ [csrValue r s] } }
  else
    let v := (csrValue r s &&& ~~~free) ||| (Config.freeWord s.draws &&& free)
    { s with host := { s.host with reads := s.host.reads ++ [v] }, draws := s.draws + 1 }

/-- A write that is refused while the engine is BUSY sets BUSY_WR and changes nothing else (R75, R262). -/
def refuseBusyWrite (s : State) : State := { s with ctl := { s.ctl with busyWr := true } }

/-- Whether a write to the register is refused while BUSY: FREQ and DEC_NBITS (R75, R262). -/
def CsrReg.busyProtected : CsrReg → Bool
  | .freq _ | .decNbitsLo | .decNbitsHi => true
  | _ => false

/-- The effect of a write that is not refused (R75): CTRL[1:0], the write-1-to-clear bits of STATUS, FREQ and DEC_NBITS;
a write to anything else has none (R76, R77). -/
def csrStore (r : CsrReg) (v : Word) (s : State) : State :=
  match r with
  | .ctrl => { s with ctl := { s.ctl with irqEnErr := v.getLsbD 0, irqEnDone := v.getLsbD 1 } }
  | .status =>
    { s with ctl := { s.ctl with done := s.ctl.done && !v.getLsbD 1, busyWr := s.ctl.busyWr && !v.getLsbD 7 } }
  | .freq x => { s with freq := s.freq.set x.toNat v x.isLt }
  | .decNbitsLo => { s with dec := { s.dec with nbits := highWord s.dec.nbits ++ v } }
  | .decNbitsHi => { s with dec := { s.dec with nbits := v ++ lowWord s.dec.nbits } }
  | _ => s

/-- The host writes a CSR (R75); while rst_n is 0 a write has no effect (R280). -/
def csrWrite (a : Addr) (v : Word) (s : State) : State :=
  if !s.rstN then s
  else if s.eng.isBusy && (csrAt a).busyProtected then refuseBusyWrite s
  else csrStore (csrAt a) v s

end Sys2Proof.Machine
end

