-- ==== Sys2Proof/Machine/HostTurn.lean ====
section
/-! DEFINITION. The turns of the host and the choice of the next turn (spec/00_scope.md R13, spec/40_control.md R131,
spec/20_memory.md R84, spec/70_reset_and_hazards.md R280). -/

namespace Sys2Proof.Machine

/-- The host drives rst_n (R280): at 0 the block takes its reset state at once and a held command is abandoned without
retiring; back at 1 the block is ready (R282). -/
def setRst (level : Bool) (s : State) : State :=
  if level then { s with rstN := true } else resetBlock { s with rstN := false }

/-- One turn. Only the engine's can stop. -/
def takeTurn (t : Turn) (s : State) : Host.Outcome State Fault Refusal :=
  match t with
  | .engine => engineTurn s
  | .accept => .next (acceptTurn s)
  | .offer w => .next { s with host := { s.host with offers := s.host.offers ++ [w] } }
  | .csrRead a => .next (csrRead a s)
  | .csrWrite a v => .next (csrWrite a v s)
  | .takeEnc => .next { s with encOut := s.encOut.take }
  | .takeDec => .next { s with decOut := s.decOut.take }
  | .drainEnc on => .next { s with host := { s.host with drainsEnc := on } }
  | .drainDec on => .next { s with host := { s.host with drainsDec := on } }
  | .setRst level => .next (setRst level s)

/-- The turn that comes when the script says none: a BUSY engine moves, an IDLE one accepts an offered word if there is
one, and otherwise waits (R273, R282, R294). Log entry 1. -/
def autoTurn (s : State) : Turn := if s.eng.isBusy then .engine else .accept

/-- The next turn, with the script moved on past it. -/
def nextTurn (s : State) : Turn × State :=
  match s.host.script with
  | [] => (autoTurn s, s)
  | t :: rest => (t, { s with host := { s.host with script := rest } })

/-- The engine has accepted `w` and moves next, with rst_n at 1: the state in which the very next step executes `w`. -/
def holdCommand (w : Word) (s : State) : State :=
  latch w { s with rstN := true, host := { s.host with script := .engine :: s.host.script } }

end Sys2Proof.Machine
end

