-- ==== Sys2Proof/Machine/Step.lean ====
section
/-! DEFINITION. One step: the next turn is taken (spec/00_scope.md R13, spec/40_control.md R131). The block has no program
counter and fetches nothing (spec/10_state.md R21); its next command is the word the engine holds. -/

namespace Sys2Proof.Machine

def step (s : State) : Host.Outcome State Fault Refusal := takeTurn (nextTurn s).1 (nextTurn s).2

/-- `s` with the table's word `w` held by the engine, whose turn is next. A command is one 32-bit word (R100), so its
bits above `nbits` are 0. Log entries 2, 20. -/
def State.withFetchWord (s : State) (nbits w : Nat) : State :=
  holdCommand (BitVec.ofNat 32 (w % 2 ^ nbits)) s

end Sys2Proof.Machine
end

