-- ==== Sys2Proof/Machine/HostProgram.lean ====
section
/-! DEFINITION. The host pseudo-instructions and their expansions into turns, from any state of the engine
(spec/30_encoding.md R111, R112, with the duties of spec/70_reset_and_hazards.md R283, R284, R286). -/

namespace Sys2Proof.Machine

/-- Host actions one after another: the second starts where the first ended, unless that stopped. -/
def andThen (o : Host.Outcome State Fault Refusal) (next : State → Host.Outcome State Fault Refusal) :
    Host.Outcome State Fault Refusal :=
  match o with
  | .next t => next t
  | .fault r => .fault r
  | .refused r => .refused r

/-- Turns taken one after another, up to the first stop. -/
def takeTurns : List Turn → State → Host.Outcome State Fault Refusal
  | [], s => .next s
  | t :: ts, s => andThen (takeTurn t s) (takeTurns ts)

/-- A host program: its actions one after another, up to the first stop. -/
def inOrder : List (State → Host.Outcome State Fault Refusal) → State → Host.Outcome State Fault Refusal
  | [], s => .next s
  | p :: ps, s => andThen (p s) (inOrder ps)

/-- `cmd w` (R111), from any state. The word is held out on the port behind the words already offered; while the engine is
BUSY the handshake holds it back (R22, R112), so the command under way retires first; then it is accepted and run. With
rst_n at 0 nothing is accepted and the word stays offered. Log entry 21. -/
def hostWord (w : Word) (s : State) : Host.Outcome State Fault Refusal :=
  takeTurns (.offer w :: (List.replicate (s.host.offers.length + 1) [Turn.engine, .accept]).flatten ++ [.engine]) s

/-- A command written by its mnemonic (R111). -/
def hostCommand (i : Instr) : State → Host.Outcome State Fault Refusal := hostWord (encode i)

/-- `wait_idle` (R112): STATUS is read until BUSY is 0. The reads that still show BUSY change nothing (R78), so the
expansion lets the engine finish and reads STATUS once. Log entry 21. -/
def waitIdle : List Turn := [.engine, .csrRead 0x0008#16]

/-- An expansion that writes a CSR and comes after a command: FREQ_LOAD and DECODE wait first, since their writes would be
refused (R112, R262, R286). -/
def afterCommand (p : State → Host.Outcome State Fault Refusal) : State → Host.Outcome State Fault Refusal :=
  inOrder [takeTurns waitIdle, p]

/-- The address of FREQ[x] (R30, R111). -/
def freqAddr (x : Byte) : Addr := 0x0400#16 + x.setWidth 16 * 4#16

/-- `FREQ_LOAD S` (R112): for each symbol, its count in S. The block cannot take a count of 2^32 or more (R8); what is
written for one, the count modulo 2^32, is a DESIGN CHOICE, log entry 23. -/
def freqLoad (S : List Byte) : List Turn :=
  allSymbols.map (fun x => .csrWrite (freqAddr x) (BitVec.ofNat 32 (S.count x)))

/-- `FREQ_LOAD S` run (R112). -/
def hostFreqLoad (S : List Byte) : State → Host.Outcome State Fault Refusal := takeTurns (freqLoad S)

/-- `BUILD` (R112). -/
def hostBuild : State → Host.Outcome State Fault Refusal := inOrder [hostCommand .tbBuild, hostCommand .cgGen]

/-- The 64-bit value of the host's last two reads, the low half read first (R79). -/
def lastCounter (s : State) : Counter :=
  match s.host.reads.reverse with
  | hi :: lo :: _ => hi ++ lo
  | _ => 0#64

/-- The bytes of an encode taken: ceil(ENC_BITCNT / 8) of them, by the count the host has just read (R112). Log entry 24. -/
def takeEncBytes (s : State) : Host.Outcome State Fault Refusal :=
  takeTurns (List.replicate (((lastCounter s).toNat + 7) / 8) .takeEnc) s

/-- The dec_out bytes taken: every one that waits (R112). Log entry 24. -/
def takeDecBytes (s : State) : Host.Outcome State Fault Refusal :=
  takeTurns (List.replicate s.decOut.pending.length .takeDec) s

/-- `ENCODE S` (R112): the commands, `wait_idle`, the two reads of ENC_BITCNT, and the bytes taken. -/
def hostEncode (S : List Byte) : State → Host.Outcome State Fault Refusal :=
  inOrder (hostCommand .encBegin :: S.map (fun x => hostCommand (.encSym x)) ++
    [hostCommand .encFlush, takeTurns (waitIdle ++ [.csrRead 0x0028#16, .csrRead 0x002C#16]), takeEncBytes])

/-- `DECODE B, N` (R112): DEC_NBITS written, DEC_BEGIN, DEC_BYTE for each byte, DEC_END, and the bytes taken. -/
def hostDecode (B : List Byte) (N : Counter) : State → Host.Outcome State Fault Refusal :=
  inOrder (takeTurns [.csrWrite 0x0040#16 (lowWord N), .csrWrite 0x0044#16 (highWord N)] ::
    hostCommand .decBegin :: B.map (fun b => hostCommand (.decByte b)) ++ [hostCommand .decEnd, takeDecBytes])

end Sys2Proof.Machine
end

