-- ==== Sys2Proof/Safety.lean ====
section
/-! DEFINITION. What counts as a safe state and a safe run, in the terms claims use: the arena invariants of
spec/10_state.md R36, the paths and keys the tree rules speak of (spec/41_tree_builder.md R153, R154,
spec/42_code_gen.md R172), the bits an encoder has emitted (spec/20_memory.md R81), and the state invariant. -/

namespace Sys2Proof.Machine

/-- NODE[k] by number. -/
def TreeRegs.nodeNo (t : TreeRegs) (k : Nat) : Node := t.at (nodeIdx k)

/-- Both nodes are leaves and the first has the lower symbol. -/
def Node.symBefore : Node → Node → Bool
  | .leaf x _, .leaf y _ => x < y
  | _, _ => false

/-- The children of the internal nodes NODE[NLEAF..2*NLEAF-2], in creation order. -/
def TreeRegs.children (t : TreeRegs) : List NodeIdx :=
  (List.range (t.nleaf.val - 1)).flatMap fun j =>
    [(t.nodeNo (t.nleaf.val + j)).left, (t.nodeNo (t.nleaf.val + j)).right]

/-- The invariants of a valid arena (R36, R32, R33). -/
structure TreeOk (t : TreeRegs) : Prop where
  nleaf_pos : 1 ≤ t.nleaf.val
  /-- ROOT = 2*NLEAF - 2, which is 0 for one leaf (R33). -/
  root_eq : t.root.val = 2 * t.nleaf.val - 2
  /-- The leaves come first (R36 (1)). -/
  leaf_of_lt : ∀ k, k < t.nleaf.val → (t.nodeNo k).isLeaf = true
  /-- The leaves' symbols ascend (R36 (1)). -/
  leaves_ascend : ∀ k, k < t.nleaf.val → ∀ j, j < k → (t.nodeNo j).symBefore (t.nodeNo k) = true
  /-- A leaf's count is not 0 (R151). -/
  leaf_freq : ∀ k, k < t.nleaf.val → (t.nodeNo k).freq ≠ 0#40
  /-- The others are internal, with children of lower index and the exact sum of their frequencies (R36 (2)). -/
  internal_of_ge : ∀ k, k < 2 * t.nleaf.val - 1 → t.nleaf.val ≤ k →
    (t.nodeNo k).isLeaf = false ∧ (t.nodeNo k).left.val < k ∧ (t.nodeNo k).right.val < k ∧
      (t.nodeNo k).freq.toNat = (t.at (t.nodeNo k).left).freq.toNat + (t.at (t.nodeNo k).right).freq.toNat
  /-- Every node but ROOT is the child of exactly one internal node, on one side (R36 (3)). -/
  one_parent : ∀ k, k < 2 * t.nleaf.val - 2 → t.children.count (nodeIdx k) = 1

/-- The node reached from `k` by a bit string, '0' to the left and '1' to the right (R172, R222). -/
def TreeRegs.follow (t : TreeRegs) : NodeIdx → List Bool → NodeIdx
  | k, [] => k
  | k, b :: c => t.follow ((t.at k).child b) c

/-- The bit string leads from `k` through internal nodes only, to a leaf that holds `x` (R172). -/
def TreeRegs.leadsTo (t : TreeRegs) : NodeIdx → List Bool → Byte → Prop
  | k, [], x => ∃ f, t.at k = .leaf x f
  | k, b :: c, x => (t.at k).isLeaf = false ∧ t.leadsTo ((t.at k).child b) c x

/-- Node `m` is live when node `k` is made: it exists and no internal node made before `k` has it as a child (R153). -/
def TreeRegs.liveAt (t : TreeRegs) (k m : Nat) : Prop :=
  m < k ∧ ∀ j, t.nleaf.val ≤ j → j < k → (t.nodeNo j).left.val ≠ m ∧ (t.nodeNo j).right.val ≠ m

/-- The key (freq, index) of node `a` is smaller than that of node `b` (R154). -/
def TreeRegs.keyLt (t : TreeRegs) (a b : Nat) : Prop :=
  (t.nodeNo a).freq.toNat < (t.nodeNo b).freq.toNat ∨
    ((t.nodeNo a).freq.toNat = (t.nodeNo b).freq.toNat ∧ a < b)

/-- The code bits the packer has taken in since reset, pad bits included: those of the bytes pushed, then the ACC_CNT
bits still in ACC (R44, R81). -/
def State.encBits (s : State) : List Bool :=
  s.encOut.all.flatMap bitsMsbFirst ++ (bitsMsbFirst s.enc.acc).take s.enc.accCnt.toNat

/-- The cursor of an active decode names ROOT or an internal node in use (R50, R222). -/
def CursorOk (s : State) : Prop :=
  s.dec.cursor = s.tb.root ∨ (s.tb.nleaf.val ≤ s.dec.cursor.val ∧ s.dec.cursor.val < s.tb.root.val)

/-- `t` is the block of `s` with every item of R55 at its reset value and the untaken stream bytes discarded (R134, R280).
The contents of the node arena and of the code table are unspecified and not spoken of. -/
structure ResetFrom (s t : State) : Prop where
  eng : t.eng = .idle
  ctrl : t.ctl.irqEnErr = false ∧ t.ctl.irqEnDone = false
  status : t.ctl.done = false ∧ t.ctl.busyWr = false
  error : t.ctl.errCode = .none ∧ t.ctl.errInfo = 0#32
  freq : ∀ x, t.freqAt x = 0#32
  tree : t.tb.valid = false ∧ t.tb.nleaf.val = 0 ∧ t.tb.root.val = 0
  codes : t.cg.valid = false ∧ t.cg.maxlen = 0#8
  enc : t.enc = { active := false, acc := 0#8, accCnt := 0#3, bitcnt := 0#64, symcnt := 0#64 }
  dec : t.dec = { active := false, nbits := 0#64, remain := 0#64, cursor := 0, symcnt := 0#64 }
  enc_out : t.encOut = { taken := s.encOut.taken, pending := [] }
  dec_out : t.decOut = { taken := s.decOut.taken, pending := [] }
  /-- The host's side and the model's draw counter are not the block's. -/
  outside : t.host = s.host ∧ t.draws = s.draws

/-- The invariant of the block's state. -/
structure Inv (s : State) : Prop where
  /-- A valid tree meets R36. -/
  tree : s.tb.valid = true → TreeOk s.tb
  /-- Without a tree NLEAF and ROOT are 0 (R55, R152). -/
  no_tree : s.tb.valid = false → s.tb.nleaf = 0 ∧ s.tb.root = 0
  /-- Valid codes are codes of a valid tree (R25, R152). -/
  codes_need_tree : s.cg.valid = true → s.tb.valid = true
  /-- Valid codes are those CG_GEN makes from the current tree (R25). -/
  codes : s.cg.valid = true → s.cg = generatedCodes s.tb
  /-- Without codes MAXLEN is 0 (R42, R55). -/
  no_codes : s.cg.valid = false → s.cg.maxlen = 0#8
  /-- An encode runs only on valid codes (R132). -/
  enc_needs_codes : s.enc.active = true → s.cg.valid = true
  /-- A decode runs only on a valid tree (R132). -/
  dec_needs_tree : s.dec.active = true → s.tb.valid = true
  /-- The cursor of an active decode is on the tree (R222). -/
  cursor : s.dec.active = true → CursorOk s
  /-- The bits of ACC below the pending ones are 0 (R44). -/
  acc_padded : ∀ i, i < 8 - s.enc.accCnt.toNat → s.enc.acc.getLsbD i = false
  /-- ERR_INFO is cleared with ERR_CODE (R26). -/
  no_error : s.ctl.errCode = .none → s.ctl.errInfo = 0#32
  /-- FORMAT is never raised (R256). -/
  no_format : s.ctl.errCode ≠ .format
  /-- DONE is 1 only with no command pending (R88). Log entry 12. -/
  done_idle : s.ctl.done = true → s.eng = .idle
  /-- While rst_n is 0 every item of R55 is at its reset value (R280). The pin's level in State is log entry 13. -/
  in_reset : s.rstN = false → ResetFrom s s

/-- No encode and no decode is active: the precondition TB_BUILD and CG_GEN share (R132). -/
def State.Inactive (s : State) : Prop := s.enc.active = false ∧ s.dec.active = false

/-- The host drains both streams (R290). -/
def State.Drains (s : State) : Prop := s.host.drainsEnc = true ∧ s.host.drainsDec = true

/-- The symbols with a nonzero count exist: the frequency table is not empty (R150, R158). -/
def State.SomeCount (s : State) : Prop := ∃ x, s.freqAt x ≠ 0#32

/-- `s` after a retirement: DONE is 1, the engine IDLE, nothing else changed (R131). -/
def State.retired (s : State) : State := { s with eng := .idle, ctl := { s.ctl with done := true } }

/-- `s` with an error recorded: ERR_CODE and ERR_INFO, nothing else (R258). -/
def State.withError (s : State) (e : ErrCode) (w : Word) : State :=
  { s with ctl := { s.ctl with errCode := e, errInfo := w } }

/-- The array entries that are unspecified whatever the engine does: of the arena without a tree, or beyond
2*NLEAF - 2 (R35); of the code table without codes (R43). -/
def State.stale (s : State) : CsrReg → Prop
  | .nodeInfo k | .nodeFreqLo k | .nodeFreqHi k => s.tb.valid = false ∨ 2 * s.tb.nleaf.val < k.val + 2
  | .codeLen _ | .codeBits _ _ => s.cg.valid = false
  | _ => False

/-- A CSR read while the engine is BUSY (R287): at an address of a register `P` names, or of a stale entry, it returns a
fresh draw; at an address of STATUS, a fresh draw in the bits of `mask` and the current value in the others; at any
other address, the current value. -/
structure ReadsFree (s : State) (mask : Word) (P : CsrReg → Prop) : Prop where
  status : ∀ a, csrAt a = .status → csrRead a s =
    { s with host := { s.host with
               reads := s.host.reads ++ [(s.statusWord &&& ~~~mask) ||| (Config.freeWord s.draws &&& mask)] },
             draws := s.draws + 1 }
  free : ∀ a, csrAt a ≠ .status → (P (csrAt a) ∨ s.stale (csrAt a)) → csrRead a s =
    { s with host := { s.host with reads := s.host.reads ++ [Config.freeWord s.draws] }, draws := s.draws + 1 }
  current : ∀ a, csrAt a ≠ .status → ¬ (P (csrAt a) ∨ s.stale (csrAt a)) → csrRead a s =
    { s with host := { s.host with reads := s.host.reads ++ [csrValue (csrAt a) s] } }

/-- The reads while a legal command runs: the bits and registers its row of R287 lists, and those of the error row besides
where the command raises an error. -/
def RowReads (i : Instr) (s : State) (mask : Word) (P : CsrReg → Prop) : Prop :=
  (errorOf i s = none → ReadsFree s mask P) ∧
    (errorOf i s ≠ none → ReadsFree s (0x00000F00#32 ||| mask) fun r => P r ∨ r = .errInfo)

/-- The state after DEC_BYTE has walked its operand: its bits, most significant first, as many as DEC_REMAIN allows, each
counted down first (R223, R224). -/
def State.walkedBy (s : State) (b : Byte) : State :=
  ((bitsMsbFirst b).take s.dec.remain.toNat).foldl
    (fun u d => decBit d { u with dec := { u.dec with remain := u.dec.remain - 1#64 } }) s

/-- The next turn puts the block into its reset state: rst_n goes to 0 (R280), or the engine executes SRESET (R134). -/
def ResetsNext (s : State) : Prop :=
  (nextTurn s).1 = .setRst false ∨ ((nextTurn s).1 = .engine ∧ s.eng = .busy (encode .sreset))

/-- The commands' own rules one after another, without the frame around them. -/
def execAll : List Instr → State → Host.Outcome State Fault Refusal
  | [], s => .next s
  | i :: is, s =>
    match exec i s with
    | .next t => execAll is t
    | .fault r => .fault r
    | .refused r => .refused r

/-- A run has ended: the engine is IDLE, the host offers no more commands and has taken every byte (R293). -/
def RunEnded (s : State) : Prop :=
  s.eng = .idle ∧ s.host.offers = [] ∧ (∀ w, Turn.offer w ∉ s.host.script) ∧ s.encOut.pending = [] ∧
    s.decOut.pending = []

end Sys2Proof.Machine
end

