-- ==== Sys2Proof/Certificates/Slice0/Obligations.lean ====
section
/-! DEFINITION. The statements for the provers. Each docstring names the rules of spec/ the statement formalises. "log n" is
notes/assumptions/n.md. -/

open Sys2Proof Sys2Proof.Machine

/-! ### The encoding (spec/30_encoding.md) -/

/-- R105, R109: decoding the word of a command gives the command back, for every operand byte. -/
def Obligations.DecodeOfEncodeIsTheCommand : Prop :=
  ∀ i : Instr, decode (encode i) = .ok i

/-- R105, R109: a legal word is the word of the command it decodes to, so no bit of it is dropped. -/
def Obligations.EncodeOfDecodeIsTheWord : Prop :=
  ∀ (w : Word) (i : Instr), decode w = .ok i → encode i = w

/-- R105, R108: the decoder of R109 accepts exactly the words that fit a match and mask row of the opcode map. -/
def Obligations.LegalWordsAreTheOpcodeMap : Prop :=
  ∀ w : Word, (∃ i, decode w = .ok i) ↔ wordWellFormed w = true

/-- R105, R194, R224: words written out from the opcode map decode to the commands they stand for. -/
def Obligations.WordsOfTheMapDecode : Prop :=
  decode 0x00000000#32 = .ok .nop ∧ decode 0x00000001#32 = .ok .sreset ∧ decode 0x00000002#32 = .ok .errClear ∧
    decode 0x00000010#32 = .ok .tbBuild ∧ decode 0x00000020#32 = .ok .cgGen ∧
    decode 0x00000030#32 = .ok .encBegin ∧ decode 0x00004231#32 = .ok (.encSym 0x42#8) ∧
    decode 0x00000032#32 = .ok .encFlush ∧ decode 0x00000040#32 = .ok .decBegin ∧
    decode 0x0000E041#32 = .ok (.decByte 0xE0#8) ∧ decode 0x00000042#32 = .ok .decEnd

/-! ### The frame common to every command, and the control commands (spec/40_control.md) -/

/-- R22, R130, R131: when the engine holds a legal word the gate lets through and its turn is next (said by the script,
or by default with an empty script, log 1), the step is the command's own rule followed by retirement. -/
def Obligations.StepRunsTheHeldCommand : Prop :=
  ∀ (s : State) (w : Word) (i : Instr), s.eng = .busy w → decode w = .ok i →
    (s.ctl.errCode = .none ∨ i = .nop ∨ i = .sreset ∨ i = .errClear) →
    (∀ rest, s.host.script = .engine :: rest →
      (∀ t, exec i { s with host := { s.host with script := rest } } = .next t → step s = .next t.retired) ∧
      (∀ r, exec i { s with host := { s.host with script := rest } } = .fault r → step s = .fault r)) ∧
    (s.host.script = [] →
      (∀ t, exec i s = .next t → step s = .next t.retired) ∧ (∀ r, exec i s = .fault r → step s = .fault r))

/-- R130, R255: while an error is pending every word but those of NOP, SRESET and ERR_CLEAR is rejected and only retires;
otherwise an illegal word raises ILLEGAL_CMD with the word, and a legal one performs its rule; then it retires. -/
def Obligations.AcceptanceGate : Prop :=
  ∀ (s : State) (w : Word), s.eng = .busy w →
    (s.ctl.errCode ≠ .none → decode w ≠ .ok .nop → decode w ≠ .ok .sreset → decode w ≠ .ok .errClear →
      engineTurn s = .next s.retired) ∧
    (s.ctl.errCode = .none → (∃ e, decode w = .error e) →
      engineTurn s = .next (s.withError .illegalCmd w).retired) ∧
    (∀ i, decode w = .ok i → (s.ctl.errCode = .none ∨ i = .nop ∨ i = .sreset ∨ i = .errClear) →
      (∀ t, exec i s = .next t → engineTurn s = .next t.retired) ∧
      (∀ r, exec i s = .fault r → engineTurn s = .fault r))

/-- R131, R294: whatever word the engine holds, legal or not, with or without an error pending, the host draining both
streams, the command retires: DONE is 1 and the engine IDLE. -/
def Obligations.EveryAcceptedCommandRetires : Prop :=
  ∀ (s : State) (w : Word), s.eng = .busy w → s.Drains →
    ∃ t, engineTurn s = .next t ∧ t.eng = .idle ∧ t.ctl.done = true

/-- R133: NOP has no effect of its own, and its turn only retires, an error pending or not. The word with IMM8 = 1 is not
NOP: it raises ILLEGAL_CMD, or is rejected while an error is pending. -/
def Obligations.NopOnlyRetires : Prop :=
  ∀ s : State, exec .nop s = .next s ∧ (s.eng = .busy 0x00000000#32 → engineTurn s = .next s.retired) ∧
    (s.eng = .busy 0x00000100#32 →
      (s.ctl.errCode = .none → engineTurn s = .next (s.withError .illegalCmd 0x00000100#32).retired) ∧
      (s.ctl.errCode ≠ .none → engineTurn s = .next s.retired))

/-- R134, R281: SRESET leaves the reset state, whatever was active or pending, and its turn then sets DONE. That the host's
side, the draw counter and the level of rst_n stay is the model's choice (log 13). -/
def Obligations.SresetLeavesTheResetState : Prop :=
  ∀ s : State, ∃ t, exec .sreset s = .next t ∧ ResetFrom s t ∧ t.rstN = s.rstN ∧
    (s.eng = .busy 0x00000001#32 → engineTurn s = .next { t with ctl := { t.ctl with done := true } })

/-- R135, R263: ERR_CLEAR makes ERR_CODE and ERR_INFO 0 and changes nothing else; its turn retires, an error pending or
not. -/
def Obligations.ErrClearAcknowledges : Prop :=
  ∀ s : State, exec .errClear s = .next (s.withError .none 0#32) ∧
    (s.eng = .busy 0x00000002#32 → engineTurn s = .next (s.withError .none 0#32).retired)

/-- R132, R254: a command whose precondition fails records SEQUENCE and its word, and changes nothing else. -/
def Obligations.FailedPreconditionRaisesSequence : Prop :=
  ∀ s : State,
    (s.enc.active = true ∨ s.dec.active = true → exec .tbBuild s = .next (s.withError .sequence 0x00000010#32)) ∧
    (s.tb.valid = false ∨ s.enc.active = true ∨ s.dec.active = true →
      exec .cgGen s = .next (s.withError .sequence 0x00000020#32)) ∧
    (s.cg.valid = false ∨ s.enc.active = true → exec .encBegin s = .next (s.withError .sequence 0x00000030#32)) ∧
    (s.enc.active = false → ∀ x : Byte,
      exec (.encSym x) s = .next (s.withError .sequence (x.setWidth 32 <<< 8 ||| 0x00000031#32))) ∧
    (s.enc.active = false → exec .encFlush s = .next (s.withError .sequence 0x00000032#32)) ∧
    (s.tb.valid = false ∨ s.dec.active = true → exec .decBegin s = .next (s.withError .sequence 0x00000040#32)) ∧
    (s.dec.active = false → ∀ b : Byte,
      exec (.decByte b) s = .next (s.withError .sequence (b.setWidth 32 <<< 8 ||| 0x00000041#32))) ∧
    (s.dec.active = false → exec .decEnd s = .next (s.withError .sequence 0x00000042#32))

/-- R264: while an error is pending no turn of the engine records another: ERR_CODE and ERR_INFO stay, or ERR_CODE is
cleared. -/
def Obligations.ErrorsDoNotNest : Prop :=
  ∀ s t : State, s.ctl.errCode ≠ .none → engineTurn s = .next t →
    (t.ctl.errCode = s.ctl.errCode ∧ t.ctl.errInfo = s.ctl.errInfo) ∨
      (t.ctl.errCode = .none ∧ t.ctl.errInfo = 0#32)

/-- R258, R261: a legal command that passes the gate with no error pending records exactly the first error of R261 that
applies to it, with its word; with none, ERR_CODE stays 0. -/
def Obligations.ErrorRecordedIsTheFirstThatApplies : Prop :=
  ∀ (s t : State) (w : Word) (i : Instr), s.eng = .busy w → decode w = .ok i → s.ctl.errCode = .none →
    engineTurn s = .next t →
    (errorOf i s = none → t.ctl.errCode = .none) ∧
      (∀ e, errorOf i s = some e → t.ctl.errCode = e ∧ t.ctl.errInfo = w)

/-! ### The tree builder (spec/41_tree_builder.md) -/

/-- R152: with a count and nothing active TB_BUILD completes: the tree is valid with NLEAF the number of present symbols
and ROOT = 2*NLEAF - 2, the codes are invalid and MAXLEN 0; FREQ, the ENC and DEC registers and the streams stay. That arena entries beyond ROOT
and the invalid code table keep what they held is the model's choice (log 19). -/
def Obligations.TbBuildCompletes : Prop :=
  ∀ s : State, s.Inactive → s.SomeCount →
    ∃ tree : TreeRegs,
      exec .tbBuild s = .next { s with tb := tree, cg := { s.cg with valid := false, maxlen := 0#8 } } ∧
      tree.valid = true ∧ tree.nleaf.val = (allSymbols.filter fun x => s.freqAt x ≠ 0#32).length ∧
      tree.root.val = 2 * tree.nleaf.val - 2 ∧ ∀ k : NodeIdx, tree.root.val < k.val → tree.at k = s.tb.at k

/-- R152, R158, R251, R259: with every count 0 and nothing active TB_BUILD raises EMPTY_INPUT, with TREE_VALID, CODES_VALID,
MAXLEN, NLEAF and ROOT at 0; nothing else changes. That the arena and the invalid code table keep what they held is the
model's choice (log 19). -/
def Obligations.TbBuildOfNoSymbolRaisesEmptyInput : Prop :=
  ∀ s : State, s.Inactive → ¬ s.SomeCount →
    exec .tbBuild s = .next
      ({ s with tb := { s.tb with valid := false, nleaf := 0, root := 0 },
                cg := { s.cg with valid := false, maxlen := 0#8 } }.withError .emptyInput 0x00000010#32)

/-- R151, R157: the leaves NODE[0..NLEAF-1] are exactly the present symbols with their zero-extended counts, in ascending
symbol order. -/
def Obligations.LeavesAreThePresentSymbols : Prop :=
  ∀ s t : State, s.Inactive → exec .tbBuild s = .next t →
    (∀ (x : Byte) (f : Freq), (∃ k, k < t.tb.nleaf.val ∧ t.tb.nodeNo k = .leaf x f) ↔
      s.freqAt x ≠ 0#32 ∧ f = (s.freqAt x).setWidth 40) ∧
    ∀ j k, j < k → k < t.tb.nleaf.val → (t.tb.nodeNo j).symBefore (t.tb.nodeNo k) = true

/-- R153, R154, R155, R156: each internal node, in creation order, has as left child the live node of smallest key
(freq, index), as right child the smallest of the others, and as frequency their exact sum. -/
def Obligations.InternalNodesPairTheTwoSmallestLive : Prop :=
  ∀ s t : State, s.Inactive → s.SomeCount → exec .tbBuild s = .next t →
    ∀ k, t.tb.nleaf.val ≤ k → k ≤ t.tb.root.val →
      ∃ l r f, t.tb.nodeNo k = .internal l r f ∧ t.tb.liveAt k l.val ∧ t.tb.liveAt k r.val ∧ l ≠ r ∧
        (∀ m, t.tb.liveAt k m → m ≠ l.val → t.tb.keyLt l.val m) ∧
        (∀ m, t.tb.liveAt k m → m ≠ l.val → m ≠ r.val → t.tb.keyLt r.val m) ∧
        f.toNat = (t.tb.at l).freq.toNat + (t.tb.at r).freq.toNat

/-- R36, R160: what a successful TB_BUILD leaves meets the arena's invariants, from any state at all. -/
def Obligations.BuiltArenaIsAValidTree : Prop :=
  ∀ s t : State, s.Inactive → s.SomeCount → exec .tbBuild s = .next t → TreeOk t.tb

/-- R155, R160, R34: ROOT_FREQ after a build is the exact sum of all 256 counts, so no addition wrapped. -/
def Obligations.RootFrequencyIsTheSumOfCounts : Prop :=
  ∀ s t : State, s.Inactive → s.SomeCount → exec .tbBuild s = .next t →
    t.tb.rootFreq.toNat = (allSymbols.map fun x => (s.freqAt x).toNat).sum

/-- R161: two builds from the same FREQ give the same NLEAF, ROOT and nodes in use, whatever else differs between the two
states. -/
def Obligations.TreeDependsOnlyOnFreq : Prop :=
  ∀ s₁ s₂ t₁ t₂ : State, s₁.Inactive → s₂.Inactive → s₁.SomeCount → s₁.freq = s₂.freq →
    exec .tbBuild s₁ = .next t₁ → exec .tbBuild s₂ = .next t₂ →
    t₁.tb.nleaf = t₂.tb.nleaf ∧ t₁.tb.root = t₂.tb.root ∧
      ∀ k : NodeIdx, k.val ≤ t₁.tb.root.val → t₁.tb.at k = t₂.tb.at k

/-- R162: of two present symbols the one with the higher count has a code no longer than the other's, after TB_BUILD and
CG_GEN. -/
def Obligations.HigherCountIsNoDeeper : Prop :=
  ∀ (s t : State) (x y : Byte), s.Inactive → execAll [.tbBuild, .cgGen] s = .next t →
    s.freqAt y ≠ 0#32 → s.freqAt y < s.freqAt x → t.cg.lenAt x ≤ t.cg.lenAt y

/-! ### The code generator (spec/42_code_gen.md) -/

/-- R171: with a valid tree and nothing active CG_GEN completes and writes nothing but the code table, now valid, with
MAXLEN the largest CODE_LEN. -/
def Obligations.CgGenCompletes : Prop :=
  ∀ s : State, s.Inactive → s.tb.valid = true →
    ∃ codes : CodeRegs, exec .cgGen s = .next { s with cg := codes } ∧ codes.valid = true ∧
      (∀ x, codes.lenAt x ≤ codes.maxlen) ∧ ∃ x, codes.lenAt x = codes.maxlen

/-- R173: a single-leaf tree gives its symbol the one-bit code "0" and every other symbol none. -/
def Obligations.SingleLeafCodeIsZero : Prop :=
  ∀ (s : State) (x : Byte) (f : Freq), s.Inactive → s.tb.valid = true → s.tb.at s.tb.root = .leaf x f →
    ∃ t, exec .cgGen s = .next t ∧ t.cg.codeOf x = [false] ∧ t.cg.lenAt x = 1#8 ∧ t.cg.maxlen = 1#8 ∧
      ∀ y, y ≠ x → t.cg.lenAt y = 0#8 ∧ t.cg.bitsAt y = 0#256

/-- R172: on a valid tree with two leaves or more, the code of each leaf's symbol is the path from ROOT to that leaf, '0'
to the left and '1' to the right. -/
def Obligations.CodesAreTreePaths : Prop :=
  ∀ s : State, s.Inactive → s.tb.valid = true → TreeOk s.tb → 2 ≤ s.tb.nleaf.val →
    ∃ t, exec .cgGen s = .next t ∧
      ∀ (k : NodeIdx) (x : Byte) (f : Freq), k.val < s.tb.nleaf.val → s.tb.at k = .leaf x f →
        s.tb.leadsTo s.tb.root (t.cg.codeOf x) x ∧ s.tb.follow s.tb.root (t.cg.codeOf x) = k

/-- R174, R41: after CG_GEN on a valid tree exactly the symbols of its leaves have a code, and every stored bit from
CODE_LEN on is 0. -/
def Obligations.CodesOfExactlyTheLeaves : Prop :=
  ∀ s t : State, s.Inactive → s.tb.valid = true → TreeOk s.tb → exec .cgGen s = .next t →
    ∀ x : Byte,
      (t.cg.lenAt x ≠ 0#8 ↔ ∃ (k : NodeIdx) (f : Freq), k.val < s.tb.nleaf.val ∧ s.tb.at k = .leaf x f) ∧
      ∀ i, (t.cg.lenAt x).toNat ≤ i → t.cg.codeBit x i = false

/-- R175: after CG_GEN on a valid tree no code is a prefix of another symbol's. -/
def Obligations.NoCodeIsAPrefixOfAnother : Prop :=
  ∀ s t : State, s.Inactive → s.tb.valid = true → TreeOk s.tb → exec .cgGen s = .next t →
    ∀ x y : Byte, t.cg.lenAt x ≠ 0#8 → t.cg.lenAt y ≠ 0#8 → t.cg.codeOf x <+: t.cg.codeOf y → x = y

/-- R176, R177: after CG_GEN on a valid tree every code has length 1 to NLEAF - 1 (1 for one leaf), and MAXLEN is the
largest, from 1 to 255. -/
def Obligations.CodeLengthsAreBounded : Prop :=
  ∀ s t : State, s.Inactive → s.tb.valid = true → TreeOk s.tb → exec .cgGen s = .next t →
    (∀ x, t.cg.lenAt x ≠ 0#8 → (t.cg.lenAt x).toNat ≤ max 1 (s.tb.nleaf.val - 1)) ∧
      (∀ x, (t.cg.lenAt x).toNat ≤ t.cg.maxlen.toNat) ∧ (∃ x, t.cg.lenAt x = t.cg.maxlen) ∧ t.cg.maxlen ≠ 0#8

/-! ### The encoder (spec/43_stream_encoder.md) -/

/-- R190: with valid codes and no encode active ENC_BEGIN completes: ACC, ACC_CNT and both counters are 0, ENC_ACTIVE is 1,
nothing is pushed and nothing else changes. -/
def Obligations.EncBeginStartsAnEncode : Prop :=
  ∀ s : State, s.cg.valid = true → s.enc.active = false →
    exec .encBegin s = .next { s with enc := { active := true, acc := 0#8, accCnt := 0#3, bitcnt := 0#64, symcnt := 0#64 } }

/-- R194, R193, R81: ENC_SYM of a symbol with a code appends exactly the code's bits, most significant first in each
byte: the packer's bit string grows by the code, ENC_BITCNT by its length, ENC_SYMCNT by 1, and
floor((ACC_CNT + CODE_LEN) / 8) bytes are pushed; ACC stays zero below its pending bits; nothing else changes. Where no
byte is completed it runs drained or not (log 4). -/
def Obligations.EncSymAppendsTheCode : Prop :=
  ∀ (s : State) (x : Byte), s.enc.active = true → s.cg.lenAt x ≠ 0#8 →
    (s.host.drainsEnc = true ∨ s.enc.accCnt.toNat + (s.cg.lenAt x).toNat < 8) →
    ∃ (acc : Byte) (cnt : BitVec 3) (new : List Byte),
      exec (.encSym x) s = .next
        { s with enc := { active := true, acc := acc, accCnt := cnt,
                          bitcnt := s.enc.bitcnt + (s.cg.lenAt x).setWidth 64, symcnt := s.enc.symcnt + 1#64 },
                 encOut := { taken := s.encOut.taken, pending := s.encOut.pending ++ new } } ∧
      new.length = (s.enc.accCnt.toNat + (s.cg.lenAt x).toNat) / 8 ∧
      cnt.toNat = (s.enc.accCnt.toNat + (s.cg.lenAt x).toNat) % 8 ∧
      new.flatMap bitsMsbFirst ++ (bitsMsbFirst acc).take cnt.toNat =
        (bitsMsbFirst s.enc.acc).take s.enc.accCnt.toNat ++ s.cg.codeOf x ∧
      ((∀ i, i < 8 - s.enc.accCnt.toNat → s.enc.acc.getLsbD i = false) →
        ∀ i, i < 8 - cnt.toNat → acc.getLsbD i = false)

/-- R195, R252, R259: ENC_SYM of a symbol with no code raises LOGIC with its word, ends the encode, appends no bit and
changes nothing else; a decode that is active stays so. -/
def Obligations.EncSymOfAnAbsentSymbolRaisesLogic : Prop :=
  ∀ (s : State) (x : Byte), s.enc.active = true → s.cg.lenAt x = 0#8 →
    exec (.encSym x) s = .next
      ({ s with enc := { s.enc with active := false } }.withError .logic (x.setWidth 32 <<< 8 ||| 0x00000031#32))

/-- R197, R82: ENC_FLUSH pushes ACC as it stands when bits are pending and nothing otherwise, clears ACC and ACC_CNT and
ends the encode; ENC_BITCNT, ENC_SYMCNT and everything else stay. -/
def Obligations.EncFlushEndsTheEncode : Prop :=
  ∀ s : State, s.enc.active = true →
    (s.enc.accCnt = 0#3 →
      exec .encFlush s = .next { s with enc := { s.enc with active := false, acc := 0#8, accCnt := 0#3 } }) ∧
    (s.enc.accCnt ≠ 0#3 → s.host.drainsEnc = true →
      exec .encFlush s = .next
        { s with enc := { s.enc with active := false, acc := 0#8, accCnt := 0#3 },
                 encOut := { taken := s.encOut.taken, pending := s.encOut.pending ++ [s.enc.acc] } })

/-- R198: ENC_BEGIN, ENC_SYM for each symbol of S, ENC_FLUSH. With B the concatenation of the codes and L its length,
ENC_BITCNT is L and ENC_SYMCNT the number of symbols modulo 2^64, and exactly ceil(L / 8) bytes are appended whose bits
are B and then zeros. -/
def Obligations.EncodeProducesThePackedCodes : Prop :=
  ∀ (s : State) (S : List Byte), s.cg.valid = true → s.enc.active = false → s.host.drainsEnc = true →
    (∀ x ∈ S, s.cg.lenAt x ≠ 0#8) →
    ∃ (t : State) (new : List Byte), execAll (.encBegin :: S.map .encSym ++ [.encFlush]) s = .next t ∧
      t.encOut.all = s.encOut.all ++ new ∧
      t.enc.bitcnt = BitVec.ofNat 64 (S.flatMap s.cg.codeOf).length ∧ t.enc.symcnt = BitVec.ofNat 64 S.length ∧
      new.length = ((S.flatMap s.cg.codeOf).length + 7) / 8 ∧
      new.flatMap bitsMsbFirst = S.flatMap s.cg.codeOf ++
        List.replicate (8 * new.length - (S.flatMap s.cg.codeOf).length) false

/-! ### The decoder (spec/44_stream_decoder.md) -/

/-- R220, R48: with a valid tree and no decode active DEC_BEGIN completes: DEC_REMAIN is DEC_NBITS, DEC_CURSOR is ROOT,
DEC_SYMCNT 0 and DEC_ACTIVE 1; nothing else changes. -/
def Obligations.DecBeginStartsADecode : Prop :=
  ∀ s : State, s.tb.valid = true → s.dec.active = false →
    exec .decBegin s = .next { s with dec :=
      { active := true, nbits := s.dec.nbits, remain := s.dec.nbits, cursor := s.tb.root, symcnt := 0#64 } }

/-- R222, R225: one walked bit. On a single-leaf tree it pushes the sole symbol; otherwise it moves to the child, and a
leaf reached is pushed, counted, and puts the cursor back to ROOT. On a valid tree the cursor stays at ROOT or an
internal node in use, so with two leaves or more its children exist. -/
def Obligations.WalkedBitMovesTheCursor : Prop :=
  ∀ (s : State) (b : Bool),
    (TreeOk s.tb → CursorOk s →
      CursorOk (decBit b s) ∧ (2 ≤ s.tb.nleaf.val → (s.tb.at s.dec.cursor).isLeaf = false)) ∧
    (∀ x f, s.tb.at s.tb.root = .leaf x f →
      decBit b s = { s with dec := { s.dec with symcnt := s.dec.symcnt + 1#64 },
                            decOut := { s.decOut with pending := s.decOut.pending ++ [x] } }) ∧
    (∀ l r f k, (s.tb.at s.tb.root).isLeaf = false → s.tb.at s.dec.cursor = .internal l r f →
      k = (if b then r else l) →
      (∀ x g, s.tb.at k = .leaf x g →
        decBit b s = { s with dec := { s.dec with cursor := s.tb.root, symcnt := s.dec.symcnt + 1#64 },
                              decOut := { s.decOut with pending := s.decOut.pending ++ [x] } }) ∧
      ((s.tb.at k).isLeaf = false → decBit b s = { s with dec := { s.dec with cursor := k } }))

/-- R224, R223, R226, R81: DEC_BYTE walks its operand's bits, most significant first, as many as DEC_REMAIN still allows,
counting DEC_REMAIN down before each; it pushes at most one symbol a bit and changes nothing but DEC_REMAIN,
DEC_CURSOR, DEC_SYMCNT and dec_out. With DEC_REMAIN at 0 the byte is ignored (R226). That a walk which pushes nothing runs
drained or not is the model's choice (log 4). -/
def Obligations.DecByteWalksItsBits : Prop :=
  (∀ (s : State) (b : Byte), s.dec.active = true → s.dec.remain = 0#64 → exec (.decByte b) s = .next s) ∧
  ∀ (s : State) (b : Byte), s.dec.active = true →
    (s.host.drainsDec = true ∨ (s.walkedBy b).decOut.pending = s.decOut.pending) →
    ∃ (cur : NodeIdx) (new : List Byte),
      exec (.decByte b) s = .next
        (((bitsMsbFirst b).take s.dec.remain.toNat).foldl
          (fun u d => decBit d { u with dec := { u.dec with remain := u.dec.remain - 1#64 } }) s) ∧
      exec (.decByte b) s = .next
        { s with dec := { s.dec with remain := BitVec.ofNat 64 (s.dec.remain.toNat - 8), cursor := cur,
                                     symcnt := s.dec.symcnt + BitVec.ofNat 64 new.length },
                 decOut := { taken := s.decOut.taken, pending := s.decOut.pending ++ new } } ∧
      new.length ≤ min 8 s.dec.remain.toNat

/-- R227, R228, R253, R259: DEC_END ends the decode; with bits still owed or the cursor off ROOT it raises
TRUNCATED_STREAM with its word, otherwise it ends cleanly. DEC_REMAIN, DEC_CURSOR, DEC_SYMCNT and everything else stay. -/
def Obligations.DecEndTellsACleanStopFromATruncatedOne : Prop :=
  ∀ s : State, s.dec.active = true →
    (s.dec.remain = 0#64 → s.dec.cursor = s.tb.root →
      exec .decEnd s = .next { s with dec := { s.dec with active := false } }) ∧
    (s.dec.remain ≠ 0#64 ∨ s.dec.cursor ≠ s.tb.root →
      exec .decEnd s = .next
        ({ s with dec := { s.dec with active := false } }.withError .truncatedStream 0x00000042#32))

/-- R230: the round trip. For a non-empty byte sequence whose counts FREQ holds, TB_BUILD, CG_GEN and the encode give bytes
E and ENC_BITCNT; a decode of E with DEC_NBITS = ENC_BITCNT pushes exactly the sequence and ends cleanly. -/
def Obligations.DecodeOfTheEncodedStreamIsTheInput : Prop :=
  ∀ (s : State) (S : List Byte), S ≠ [] → (∀ x, (s.freqAt x).toNat = S.count x) → s.Inactive → s.Drains →
    ∃ (t : State) (E : List Byte),
      execAll (.tbBuild :: .cgGen :: .encBegin :: S.map .encSym ++ [.encFlush]) s = .next t ∧
      t.encOut.all = s.encOut.all ++ E ∧
      ∃ u, execAll (.decBegin :: E.map .decByte ++ [.decEnd]) { t with dec := { t.dec with nbits := t.enc.bitcnt } } =
          .next u ∧
        u.decOut.all = s.decOut.all ++ S ∧ u.ctl.errCode = s.ctl.errCode ∧ u.dec.active = false

/-! ### The CSR bus and the ports (spec/20_memory.md, spec/10_state.md, spec/60_exceptions.md) -/

/-- R72: the low two address bits are ignored by reads and writes. -/
def Obligations.MisalignedAccessReachesTheWord : Prop :=
  ∀ (a : Addr) (v : Word) (s : State),
    csrRead a s = csrRead (a &&& 0xFFFC#16) s ∧ csrWrite a v s = csrWrite (a &&& 0xFFFC#16) v s

/-- R30, R40, R41, R31, R79, R73: with the engine IDLE and valid tables, a read at each array address of the map returns
the entry laid out as its rule says (NODE_INFO of a leaf: bit 31 and the symbol; of an internal node: right in [24:16], left
in [8:0]), without a draw; and code bit i of a symbol stands in word i div 32 of CODE_BITS at
bit position 31 - (i mod 32). -/
def Obligations.ArrayReadsReturnTheEntries : Prop :=
  (∀ (r : CodeRegs) (x : Byte) (i : Nat) (h : i / 32 < 8),
    (r.wordAt x ⟨i / 32, h⟩).getLsbD (31 - i % 32) = r.codeBit x i) ∧
  ∀ s : State, s.rstN = true → s.eng = .idle →
    (∀ x : Byte, csrRead (BitVec.ofNat 16 (0x400 + 4 * x.toNat)) s =
      { s with host := { s.host with reads := s.host.reads ++ [s.freqAt x] } }) ∧
    (s.cg.valid = true → ∀ x : Byte, csrRead (BitVec.ofNat 16 (0x800 + 4 * x.toNat)) s =
      { s with host := { s.host with reads := s.host.reads ++ [(s.cg.lenAt x).setWidth 32] } }) ∧
    (s.cg.valid = true → ∀ (x : Byte) (w : Fin 8), csrRead (BitVec.ofNat 16 (0x1000 + 32 * x.toNat + 4 * w.val)) s =
      { s with host := { s.host with reads := s.host.reads ++ [s.cg.wordAt x w] } }) ∧
    (s.tb.valid = true → ∀ k : NodeIdx, k.val + 2 ≤ 2 * s.tb.nleaf.val →
      csrRead (BitVec.ofNat 16 (0x3000 + 4 * k.val)) s =
        { s with host := { s.host with reads := s.host.reads ++ [match s.tb.at k with
          | .leaf sym _ => BitVec.ofNat 32 (0x80000000 + sym.toNat)
          | .internal l r _ => BitVec.ofNat 32 (r.val * 0x10000 + l.val)] } } ∧
      csrRead (BitVec.ofNat 16 (0x4000 + 8 * k.val)) s =
        { s with host := { s.host with reads := s.host.reads ++ [(s.tb.at k).freq.extractLsb' 0 32] } } ∧
      csrRead (BitVec.ofNat 16 (0x4004 + 8 * k.val)) s =
        { s with host := { s.host with reads := s.host.reads ++ [((s.tb.at k).freq.extractLsb' 32 8).setWidth 32] } })

/-- R23 to R26, R32 to R34, R42, R44 to R51, R76: with the engine IDLE, a read at each scalar address of the map returns the
register (ROOT_FREQ reads 0 without a tree); and one at a reserved address returns 0, at any time but while rst_n is 0. -/
def Obligations.ScalarReadsReturnTheRegisters : Prop :=
  (∀ (s : State) (a : Addr), s.rstN = true →
    (a &&& 0xFFFC#16 = 0x0024#16 ∨ a &&& 0xFFFC#16 = 0x003C#16 ∨ (0x005C#16 ≤ a ∧ a < 0x0400#16) ∨
      (0x0C00#16 ≤ a ∧ a < 0x1000#16) ∨ (0x37FC#16 ≤ a ∧ a < 0x4000#16) ∨ 0x4FF8#16 ≤ a) →
    csrRead a s = { s with host := { s.host with reads := s.host.reads ++ [0#32] } }) ∧
  ∀ s : State, s.rstN = true → s.eng = .idle →
    ∀ p ∈ ([(0x000, 0x48554631#32), (0x004, 0#30 ++ BitVec.ofBool s.ctl.irqEnDone ++ BitVec.ofBool s.ctl.irqEnErr),
        (0x008, s.statusWord), (0x00C, s.ctl.errInfo), (0x010, BitVec.ofNat 32 s.tb.nleaf.val), (0x014, BitVec.ofNat 32 s.tb.root.val),
        (0x018, if s.tb.valid then (s.tb.at s.tb.root).freq.extractLsb' 0 32 else 0#32),
        (0x01C, if s.tb.valid then ((s.tb.at s.tb.root).freq.extractLsb' 32 8).setWidth 32 else 0#32),
        (0x020, s.cg.maxlen.setWidth 32),
        (0x028, s.enc.bitcnt.extractLsb' 0 32), (0x02C, s.enc.bitcnt.extractLsb' 32 32),
        (0x030, s.enc.symcnt.extractLsb' 0 32), (0x034, s.enc.symcnt.extractLsb' 32 32),
        (0x038, 0#21 ++ s.enc.accCnt ++ s.enc.acc),
        (0x040, s.dec.nbits.extractLsb' 0 32), (0x044, s.dec.nbits.extractLsb' 32 32),
        (0x048, s.dec.remain.extractLsb' 0 32), (0x04C, s.dec.remain.extractLsb' 32 32),
        (0x050, s.dec.symcnt.extractLsb' 0 32), (0x054, s.dec.symcnt.extractLsb' 32 32),
        (0x058, BitVec.ofNat 32 s.dec.cursor.val)] : List (Nat × Word)),
      csrRead (BitVec.ofNat 16 p.1) s = { s with host := { s.host with reads := s.host.reads ++ [p.2] } }

/-- R25, R250: the fields of STATUS by bit, and the numbers of the errors. -/
def Obligations.StatusBitsAreTheirFields : Prop :=
  ∀ s : State,
    s.statusWord.getLsbD 0 = decide (s.eng ≠ .idle) ∧ s.statusWord.getLsbD 1 = s.ctl.done ∧
      s.statusWord.getLsbD 2 = s.tb.valid ∧ s.statusWord.getLsbD 3 = s.cg.valid ∧
      s.statusWord.getLsbD 4 = s.enc.active ∧ s.statusWord.getLsbD 5 = s.dec.active ∧
      s.statusWord.getLsbD 6 = (s.dec.active && decide (s.dec.cursor ≠ s.tb.root)) ∧
      s.statusWord.getLsbD 7 = s.ctl.busyWr ∧
      s.statusWord.extractLsb' 8 4 = (match s.ctl.errCode with
        | .none => 0#4 | .emptyInput => 1#4 | .logic => 2#4 | .truncatedStream => 3#4 | .sequence => 4#4
        | .illegalCmd => 5#4 | .format => 6#4) ∧
      s.statusWord.extractLsb' 12 20 = 0#20

/-- R35, R43: a read of a node entry without a valid tree or beyond 2*NLEAF - 2, or of a code entry without valid codes,
returns a fresh free draw, whatever it is. The draw counter and the record of reads are the model's choice (log 5, 14). -/
def Obligations.StaleArrayReadsAreFreeDraws : Prop :=
  ∀ (s : State) (a : Addr), s.rstN = true → s.eng = .idle →
    ((∃ k, (csrAt a = .nodeInfo k ∨ csrAt a = .nodeFreqLo k ∨ csrAt a = .nodeFreqHi k) ∧
        (s.tb.valid = false ∨ 2 * s.tb.nleaf.val < k.val + 2)) ∨
      (s.cg.valid = false ∧ ((∃ x, csrAt a = .codeLen x) ∨ ∃ x w, csrAt a = .codeBits x w))) →
    csrRead a s =
      { s with host := { s.host with reads := s.host.reads ++ [Config.freeWord s.draws] }, draws := s.draws + 1 }

/-- R287: while the engine is BUSY with a command the gate lets through, an error pending or not, a CSR read returns a
fresh draw in the registers and STATUS bits the command's row lists (for SRESET all of STATUS but BUSY and DONE), and in those of
the error row besides where the command raises an error; the current value in every other, stale entries apart (R35,
R43). For a word the gate rejects, and for an illegal one, the free bits are STATUS[11:8] and ERR_INFO. Whole registers
and SRESET's STATUS are the model's reading of the table (log 6), the draws log 5. -/
def Obligations.BusyReadsAreDrawsWhereTheCommandWrites : Prop :=
  (∀ (s : State) (w : Word), s.rstN = true → s.eng = .busy w →
    ((∃ e, decode w = .error e) ∨
      (s.ctl.errCode ≠ .none ∧ decode w ≠ .ok .nop ∧ decode w ≠ .ok .sreset ∧ decode w ≠ .ok .errClear)) →
    ReadsFree s 0x00000F00#32 fun r => r = .errInfo) ∧
  ∀ (s : State) (w : Word) (i : Instr), s.rstN = true → s.eng = .busy w → decode w = .ok i →
    (s.ctl.errCode = .none ∨ i = .nop ∨ i = .sreset ∨ i = .errClear) →
    (i = .tbBuild → RowReads i s 0x0000000C#32 fun r =>
      (∃ k, r = .nodeInfo k ∨ r = .nodeFreqLo k ∨ r = .nodeFreqHi k) ∨ r = .nleaf ∨ r = .root ∨ r = .rootFreqLo ∨
        r = .rootFreqHi ∨ r = .maxlen ∨ (∃ x, r = .codeLen x) ∨ ∃ x v, r = .codeBits x v) ∧
    (i = .cgGen → RowReads i s 0x00000008#32 fun r => (∃ x, r = .codeLen x) ∨ (∃ x v, r = .codeBits x v) ∨ r = .maxlen) ∧
    ((i = .encBegin ∨ (∃ x, i = .encSym x) ∨ i = .encFlush) → RowReads i s 0x00000010#32 fun r =>
      r = .encAcc ∨ r = .encBitcntLo ∨ r = .encBitcntHi ∨ r = .encSymcntLo ∨ r = .encSymcntHi) ∧
    ((i = .decBegin ∨ (∃ b, i = .decByte b) ∨ i = .decEnd) → RowReads i s 0x00000060#32 fun r =>
      r = .decRemainLo ∨ r = .decRemainHi ∨ r = .decCursor ∨ r = .decSymcntLo ∨ r = .decSymcntHi) ∧
    (i = .sreset → ReadsFree s 0xFFFFFFFC#32 fun r => r ≠ .id ∧ r ≠ .reserved) ∧
    ((i = .nop ∨ i = .errClear) → ReadsFree s 0x00000F00#32 fun r => r = .errInfo)

/-- R74, R78: a CSR read changes nothing of the block: only the host's record and the model's draw counter move. What it
returns agrees with the register's value on every bit that is not unspecified, and with a fresh draw on the others. The
counter and the record are the model's choice (log 5, 14). -/
def Obligations.CsrReadHasNoSideEffect : Prop :=
  ∀ (a : Addr) (s : State), ∃ (v : Word) (d : Nat),
    csrRead a s = { s with host := { s.host with reads := s.host.reads ++ [v] }, draws := d } ∧
      (∀ j, j < 32 → (csrFree (csrAt a) s).getLsbD j = false → v.getLsbD j = (csrValue (csrAt a) s).getLsbD j) ∧
      (∀ j, j < 32 → (csrFree (csrAt a) s).getLsbD j = true →
        v.getLsbD j = (Config.freeWord s.draws).getLsbD j ∧ d = s.draws + 1)

/-- R75, R24, R25, R262: each write with an effect, and the refusal while BUSY. -/
def Obligations.CsrWritesHaveTheirEffects : Prop :=
  ∀ (s : State) (v : Word), s.rstN = true →
    csrWrite 0x0004#16 v s = { s with ctl := { s.ctl with irqEnErr := v.getLsbD 0, irqEnDone := v.getLsbD 1 } } ∧
    csrWrite 0x0008#16 v s =
      { s with ctl := { s.ctl with done := if v.getLsbD 1 then false else s.ctl.done,
                                   busyWr := if v.getLsbD 7 then false else s.ctl.busyWr } } ∧
    (s.eng = .idle →
      (∀ x : Byte, csrWrite (BitVec.ofNat 16 (0x400 + 4 * x.toNat)) v s =
        { s with freq := s.freq.set x.toNat v x.isLt }) ∧
      csrWrite 0x0040#16 v s = { s with dec := { s.dec with nbits := s.dec.nbits.extractLsb' 32 32 ++ v } } ∧
      csrWrite 0x0044#16 v s = { s with dec := { s.dec with nbits := v ++ s.dec.nbits.extractLsb' 0 32 } }) ∧
    (s.eng ≠ .idle →
      (∀ x : Byte, csrWrite (BitVec.ofNat 16 (0x400 + 4 * x.toNat)) v s =
        { s with ctl := { s.ctl with busyWr := true } }) ∧
      csrWrite 0x0040#16 v s = { s with ctl := { s.ctl with busyWr := true } } ∧
      csrWrite 0x0044#16 v s = { s with ctl := { s.ctl with busyWr := true } })

/-- R76, R77: a write anywhere else, to a read-only register or a reserved address, has no effect at any time. -/
def Obligations.OtherCsrWritesHaveNoEffect : Prop :=
  ∀ (s : State) (a : Addr) (v : Word),
    (a &&& 0xFFFC#16) ≠ 0x0004#16 → (a &&& 0xFFFC#16) ≠ 0x0008#16 → (a &&& 0xFFFC#16) ≠ 0x0040#16 →
    (a &&& 0xFFFC#16) ≠ 0x0044#16 → (a < 0x0400#16 ∨ 0x0800#16 ≤ a) → csrWrite a v s = s

/-- R266: the interrupt line. -/
def Obligations.IrqIsTheEnabledSources : Prop :=
  ∀ s : State, s.irq = true ↔
    (s.ctl.irqEnErr = true ∧ (s.ctl.errCode ≠ .none ∨ s.ctl.busyWr = true)) ∨
      (s.ctl.irqEnDone = true ∧ s.ctl.done = true)

/-- R22, R285, R112: the oldest offered word is accepted whole exactly when the engine is IDLE and reset is not asserted; a
word offered early waits and nothing changes. So a command the host issues is held back until the one under way retires,
and is then accepted and run. The list of offered words is the model's choice (log 15), the issue's turns log 21, and that
acceptance makes DONE 0 is deduced from R88 (log 12). -/
def Obligations.OfferedWordWaitsForTheEngine : Prop :=
  (∀ (s : State) (w : Word) (rest : List Word), s.host.offers = w :: rest →
    (s.rstN = true → s.eng = .idle →
      takeTurn .accept s = .next { s with eng := .busy w, ctl := { s.ctl with done := false },
                                          host := { s.host with offers := rest } }) ∧
    (s.rstN = false ∨ s.eng ≠ .idle → takeTurn .accept s = .next s)) ∧
  ∀ (s t : State) (w : Word), s.rstN = true → s.host.offers = [] →
    engineTurn { s with host := { s.host with offers := [w] } } = .next t →
    t.eng = .idle ∧
      hostWord w s = engineTurn { t with eng := .busy w, ctl := { t.ctl with done := false },
                                         host := { t.host with offers := [] } }

/-- R86, R290 (log 3, 4): a command stops exactly where it must push a byte to a stream the host does not drain: ENC_SYM of
a code that completes a byte, ENC_FLUSH with bits pending, DEC_BYTE whose walk pushes a symbol. Everywhere else it
completes, undrained or not. -/
def Obligations.OnlyAnUndrainedPushStops : Prop :=
  ∀ (s : State) (i : Instr),
    (∀ r : Fault, exec i s = .fault r ↔
      (r = .encOutUndrained ∧ s.host.drainsEnc = false ∧ s.enc.active = true ∧
        ((∃ x, i = .encSym x ∧ s.cg.lenAt x ≠ 0#8 ∧ 8 ≤ s.enc.accCnt.toNat + (s.cg.lenAt x).toNat) ∨
          (i = .encFlush ∧ s.enc.accCnt ≠ 0#3))) ∨
      (r = .decOutUndrained ∧ s.host.drainsDec = false ∧ s.dec.active = true ∧
        ∃ b, i = .decByte b ∧ (s.walkedBy b).decOut.pending ≠ s.decOut.pending)) ∧
    ((∀ r : Fault, exec i s ≠ .fault r) → ∃ t, exec i s = .next t)

/-! ### Reset (spec/70_reset_and_hazards.md) -/

/-- R55, R282: the machine right after reset. That rst_n is back at 1 there is the model's choice (log 13). -/
def Obligations.ResetStateHoldsTheTable : Prop :=
  ResetFrom State.reset State.reset ∧ State.reset.encOut.all = [] ∧ State.reset.decOut.all = [] ∧
    State.reset.rstN = true ∧ State.reset.cmdReady = true ∧ State.reset.irq = false ∧ State.reset.statusWord = 0#32

/-- R280: rst_n at 0 puts the block into its reset state with DONE 0 and abandons a held command; while it is 0 nothing is
accepted, valid or interrupting, writes have no effect and reads are free draws. That the host's side stays, and the draw
counter, are the model's choice (log 5, 13, 14). -/
def Obligations.HardwareResetForcesTheResetState : Prop :=
  ∀ s : State, ∃ t, takeTurn (.setRst false) s = .next t ∧ ResetFrom s t ∧ t.rstN = false ∧ t.cmdReady = false ∧
    t.encOutValid = false ∧ t.decOutValid = false ∧ t.irq = false ∧ (∀ a v, csrWrite a v t = t) ∧
    (∀ a, csrRead a t =
      { t with host := { t.host with reads := t.host.reads ++ [Config.freeWord t.draws] }, draws := t.draws + 1 }) ∧
    takeTurn (.setRst true) t = .next { t with rstN := true }

/-! ### Rules of the whole machine -/

/-- R25, R26, R36, R42, R44, R88, R132, R222, R256, R280: every step keeps the invariant, from every state that meets it. That
State keeps the level of rst_n is the model's choice (log 13); that acceptance makes DONE 0 is deduced (log 12). -/
def Obligations.StepKeepsTheInvariant : Prop :=
  ∀ s t : State, Inv s → step s = .next t → Inv t

/-- The reset state meets the invariant. -/
def Obligations.ResetMeetsTheInvariant : Prop := Inv State.reset

/-- R132: while an encode or a decode is active no step changes the tree or the code table, a reset or SRESET apart. -/
def Obligations.TreeAndCodesStayWhileActive : Prop :=
  ∀ s t : State, ¬ s.Inactive → step s = .next t → ¬ ResetsNext s → t.tb = s.tb ∧ t.cg = s.cg

/-- R30, R77: no step changes FREQ but a host write to it, a reset or SRESET. -/
def Obligations.OnlyTheHostWritesFreq : Prop :=
  ∀ s t : State, step s = .next t → t.freq ≠ s.freq →
    ResetsNext s ∨ ∃ a v x, (nextTurn s).1 = .csrWrite a v ∧ csrAt a = .freq x ∧ s.eng = .idle

/-- R91: CODES_VALID falls only by the engine's turn on TB_BUILD, or by a reset or SRESET. -/
def Obligations.OnlyABuildInvalidatesTheCodes : Prop :=
  ∀ s t : State, s.cg.valid = true → step s = .next t → t.cg.valid = false →
    ResetsNext s ∨ ((nextTurn s).1 = .engine ∧ s.eng = .busy 0x00000010#32)

/-- R84, R260: no step drops, changes or reorders a byte the host has taken, and none but a reset or SRESET takes back a
byte that was pushed. -/
def Obligations.PushedBytesAreNeverTakenBack : Prop :=
  ∀ s t : State, step s = .next t →
    (s.encOut.taken <+: t.encOut.taken ∧ s.decOut.taken <+: t.decOut.taken) ∧
      (¬ ResetsNext s → s.encOut.all <+: t.encOut.all ∧ s.decOut.all <+: t.decOut.all)

/-- R79, R273, R282: while the engine is IDLE no register of the block changes in a step but by a host write or a reset, or
DONE by the acceptance that ends the IDLE state (log 12); with no command offered and the host doing nothing, the step
changes nothing at all: no command runs by itself. That an empty script is a host doing nothing is the model's choice
(log 1). -/
def Obligations.IdleBlockChangesOnlyByTheHost : Prop :=
  (∀ s : State, s.eng = .idle → s.host.script = [] → s.host.offers = [] → step s = .next s) ∧
  ∀ s t : State, s.eng = .idle → step s = .next t →
    (∀ a v, (nextTurn s).1 ≠ .csrWrite a v) → (nextTurn s).1 ≠ .setRst false →
    t.ctl = (if t.eng = .idle then s.ctl else { s.ctl with done := false }) ∧
      t.freq = s.freq ∧ t.tb = s.tb ∧ t.cg = s.cg ∧ t.enc = s.enc ∧ t.dec = s.dec

/-- R88, R90, R131: a BUSY engine goes on holding its word, whole, until its own turn retires it or a reset abandons it, and
no other step sets DONE. So when STATUS reads DONE = 1 or BUSY = 0, and when irq is 1 by its DONE term, every accepted
command has retired. The premise is the invariant; acceptance making DONE 0 is deduced from R88 (log 12). -/
def Obligations.HeldWordStaysUntilRetirement : Prop :=
  (∀ (s t : State) (w : Word), s.eng = .busy w → step s = .next t →
    (nextTurn s).1 ≠ .engine → (nextTurn s).1 ≠ .setRst false →
    t.eng = .busy w ∧ (t.ctl.done = true → s.ctl.done = true)) ∧
  (∀ (s : State) (a : Addr) (v : Word), Inv s → s.rstN = true → a &&& 0xFFFC#16 = 0x0008#16 →
    (csrRead a s).host.reads = s.host.reads ++ [v] → (v.getLsbD 1 = true ∨ v.getLsbD 0 = false) → s.eng = .idle) ∧
  ∀ s : State, Inv s → s.irq = true → s.ctl.errCode = .none → s.ctl.busyWr = false → s.eng = .idle

/-- R84, R70, R54: the host takes the oldest byte it has not taken, and nothing else changes; with none waiting a take
changes nothing. enc_out_valid and dec_out_valid are 1 exactly while a byte waits and rst_n is 1. -/
def Obligations.TakeTurnsMoveTheOldestByte : Prop :=
  ∀ s : State,
    (∀ b rest, s.encOut.pending = b :: rest →
      takeTurn .takeEnc s = .next { s with encOut := { taken := s.encOut.taken ++ [b], pending := rest } }) ∧
    (∀ b rest, s.decOut.pending = b :: rest →
      takeTurn .takeDec s = .next { s with decOut := { taken := s.decOut.taken ++ [b], pending := rest } }) ∧
    (s.encOut.pending = [] → takeTurn .takeEnc s = .next s) ∧
    (s.decOut.pending = [] → takeTurn .takeDec s = .next s) ∧
    (s.encOutValid = true ↔ s.rstN = true ∧ s.encOut.pending ≠ []) ∧
    (s.decOutValid = true ↔ s.rstN = true ∧ s.decOut.pending ≠ [])
end

