-- ==== Sys2Proof/Laws/State.lean ====
section
/-! SUPPORT. One lemma for each field of State after each shared update, true by rfl, so that no proof unfolds a record
update. -/

namespace Sys2Proof.Machine

@[simp] theorem raise_eng (e : ErrCode) (w : Word) (s : State) : (raise e w s).eng = s.eng := rfl
@[simp] theorem raise_rstN (e : ErrCode) (w : Word) (s : State) : (raise e w s).rstN = s.rstN := rfl
@[simp] theorem raise_ctl (e : ErrCode) (w : Word) (s : State) : (raise e w s).ctl = { s.ctl with errCode := e, errInfo := w } := rfl
@[simp] theorem raise_freq (e : ErrCode) (w : Word) (s : State) : (raise e w s).freq = s.freq := rfl
@[simp] theorem raise_tb (e : ErrCode) (w : Word) (s : State) : (raise e w s).tb = s.tb := rfl
@[simp] theorem raise_cg (e : ErrCode) (w : Word) (s : State) : (raise e w s).cg = s.cg := rfl
@[simp] theorem raise_enc (e : ErrCode) (w : Word) (s : State) : (raise e w s).enc = s.enc := rfl
@[simp] theorem raise_dec (e : ErrCode) (w : Word) (s : State) : (raise e w s).dec = s.dec := rfl
@[simp] theorem raise_encOut (e : ErrCode) (w : Word) (s : State) : (raise e w s).encOut = s.encOut := rfl
@[simp] theorem raise_decOut (e : ErrCode) (w : Word) (s : State) : (raise e w s).decOut = s.decOut := rfl
@[simp] theorem raise_host (e : ErrCode) (w : Word) (s : State) : (raise e w s).host = s.host := rfl
@[simp] theorem raise_draws (e : ErrCode) (w : Word) (s : State) : (raise e w s).draws = s.draws := rfl

@[simp] theorem acknowledge_eng (s : State) : (acknowledge s).eng = s.eng := rfl
@[simp] theorem acknowledge_rstN (s : State) : (acknowledge s).rstN = s.rstN := rfl
@[simp] theorem acknowledge_ctl (s : State) : (acknowledge s).ctl = { s.ctl with errCode := .none, errInfo := 0#32 } := rfl
@[simp] theorem acknowledge_freq (s : State) : (acknowledge s).freq = s.freq := rfl
@[simp] theorem acknowledge_tb (s : State) : (acknowledge s).tb = s.tb := rfl
@[simp] theorem acknowledge_cg (s : State) : (acknowledge s).cg = s.cg := rfl
@[simp] theorem acknowledge_enc (s : State) : (acknowledge s).enc = s.enc := rfl
@[simp] theorem acknowledge_dec (s : State) : (acknowledge s).dec = s.dec := rfl
@[simp] theorem acknowledge_encOut (s : State) : (acknowledge s).encOut = s.encOut := rfl
@[simp] theorem acknowledge_decOut (s : State) : (acknowledge s).decOut = s.decOut := rfl
@[simp] theorem acknowledge_host (s : State) : (acknowledge s).host = s.host := rfl
@[simp] theorem acknowledge_draws (s : State) : (acknowledge s).draws = s.draws := rfl

@[simp] theorem latch_eng (w : Word) (s : State) : (latch w s).eng = .busy w := rfl
@[simp] theorem latch_rstN (w : Word) (s : State) : (latch w s).rstN = s.rstN := rfl
@[simp] theorem latch_ctl (w : Word) (s : State) : (latch w s).ctl = { s.ctl with done := false } := rfl
@[simp] theorem latch_freq (w : Word) (s : State) : (latch w s).freq = s.freq := rfl
@[simp] theorem latch_tb (w : Word) (s : State) : (latch w s).tb = s.tb := rfl
@[simp] theorem latch_cg (w : Word) (s : State) : (latch w s).cg = s.cg := rfl
@[simp] theorem latch_enc (w : Word) (s : State) : (latch w s).enc = s.enc := rfl
@[simp] theorem latch_dec (w : Word) (s : State) : (latch w s).dec = s.dec := rfl
@[simp] theorem latch_encOut (w : Word) (s : State) : (latch w s).encOut = s.encOut := rfl
@[simp] theorem latch_decOut (w : Word) (s : State) : (latch w s).decOut = s.decOut := rfl
@[simp] theorem latch_host (w : Word) (s : State) : (latch w s).host = s.host := rfl
@[simp] theorem latch_draws (w : Word) (s : State) : (latch w s).draws = s.draws := rfl

@[simp] theorem retire_eng (s : State) : (retire s).eng = .idle := rfl
@[simp] theorem retire_rstN (s : State) : (retire s).rstN = s.rstN := rfl
@[simp] theorem retire_ctl (s : State) : (retire s).ctl = { s.ctl with done := true } := rfl
@[simp] theorem retire_freq (s : State) : (retire s).freq = s.freq := rfl
@[simp] theorem retire_tb (s : State) : (retire s).tb = s.tb := rfl
@[simp] theorem retire_cg (s : State) : (retire s).cg = s.cg := rfl
@[simp] theorem retire_enc (s : State) : (retire s).enc = s.enc := rfl
@[simp] theorem retire_dec (s : State) : (retire s).dec = s.dec := rfl
@[simp] theorem retire_encOut (s : State) : (retire s).encOut = s.encOut := rfl
@[simp] theorem retire_decOut (s : State) : (retire s).decOut = s.decOut := rfl
@[simp] theorem retire_host (s : State) : (retire s).host = s.host := rfl
@[simp] theorem retire_draws (s : State) : (retire s).draws = s.draws := rfl

@[simp] theorem resetBlock_eng (s : State) : (resetBlock s).eng = .idle := rfl
@[simp] theorem resetBlock_rstN (s : State) : (resetBlock s).rstN = s.rstN := rfl
@[simp] theorem resetBlock_ctl (s : State) : (resetBlock s).ctl = Ctl.reset := rfl
@[simp] theorem resetBlock_freq (s : State) : (resetBlock s).freq = Vector.replicate 256 0#32 := rfl
@[simp] theorem resetBlock_tb (s : State) : (resetBlock s).tb = TreeRegs.reset := rfl
@[simp] theorem resetBlock_cg (s : State) : (resetBlock s).cg = CodeRegs.reset := rfl
@[simp] theorem resetBlock_enc (s : State) : (resetBlock s).enc = EncRegs.reset := rfl
@[simp] theorem resetBlock_dec (s : State) : (resetBlock s).dec = DecRegs.reset := rfl
@[simp] theorem resetBlock_encOut (s : State) : (resetBlock s).encOut = s.encOut.discard := rfl
@[simp] theorem resetBlock_decOut (s : State) : (resetBlock s).decOut = s.decOut.discard := rfl
@[simp] theorem resetBlock_host (s : State) : (resetBlock s).host = s.host := rfl
@[simp] theorem resetBlock_draws (s : State) : (resetBlock s).draws = s.draws := rfl

@[simp] theorem pushEnc_eng (b : Byte) (s : State) : (pushEnc b s).eng = s.eng := rfl
@[simp] theorem pushEnc_rstN (b : Byte) (s : State) : (pushEnc b s).rstN = s.rstN := rfl
@[simp] theorem pushEnc_ctl (b : Byte) (s : State) : (pushEnc b s).ctl = s.ctl := rfl
@[simp] theorem pushEnc_freq (b : Byte) (s : State) : (pushEnc b s).freq = s.freq := rfl
@[simp] theorem pushEnc_tb (b : Byte) (s : State) : (pushEnc b s).tb = s.tb := rfl
@[simp] theorem pushEnc_cg (b : Byte) (s : State) : (pushEnc b s).cg = s.cg := rfl
@[simp] theorem pushEnc_enc (b : Byte) (s : State) : (pushEnc b s).enc = s.enc := rfl
@[simp] theorem pushEnc_dec (b : Byte) (s : State) : (pushEnc b s).dec = s.dec := rfl
@[simp] theorem pushEnc_encOut (b : Byte) (s : State) : (pushEnc b s).encOut = s.encOut.push b := rfl
@[simp] theorem pushEnc_decOut (b : Byte) (s : State) : (pushEnc b s).decOut = s.decOut := rfl
@[simp] theorem pushEnc_host (b : Byte) (s : State) : (pushEnc b s).host = s.host := rfl
@[simp] theorem pushEnc_draws (b : Byte) (s : State) : (pushEnc b s).draws = s.draws := rfl

@[simp] theorem pushDec_eng (x : Byte) (s : State) : (pushDec x s).eng = s.eng := rfl
@[simp] theorem pushDec_rstN (x : Byte) (s : State) : (pushDec x s).rstN = s.rstN := rfl
@[simp] theorem pushDec_ctl (x : Byte) (s : State) : (pushDec x s).ctl = s.ctl := rfl
@[simp] theorem pushDec_freq (x : Byte) (s : State) : (pushDec x s).freq = s.freq := rfl
@[simp] theorem pushDec_tb (x : Byte) (s : State) : (pushDec x s).tb = s.tb := rfl
@[simp] theorem pushDec_cg (x : Byte) (s : State) : (pushDec x s).cg = s.cg := rfl
@[simp] theorem pushDec_enc (x : Byte) (s : State) : (pushDec x s).enc = s.enc := rfl
@[simp] theorem pushDec_dec (x : Byte) (s : State) : (pushDec x s).dec = s.dec := rfl
@[simp] theorem pushDec_encOut (x : Byte) (s : State) : (pushDec x s).encOut = s.encOut := rfl
@[simp] theorem pushDec_decOut (x : Byte) (s : State) : (pushDec x s).decOut = s.decOut.push x := rfl
@[simp] theorem pushDec_host (x : Byte) (s : State) : (pushDec x s).host = s.host := rfl
@[simp] theorem pushDec_draws (x : Byte) (s : State) : (pushDec x s).draws = s.draws := rfl

@[simp] theorem refuseBusyWrite_eng (s : State) : (refuseBusyWrite s).eng = s.eng := rfl
@[simp] theorem refuseBusyWrite_rstN (s : State) : (refuseBusyWrite s).rstN = s.rstN := rfl
@[simp] theorem refuseBusyWrite_ctl (s : State) : (refuseBusyWrite s).ctl = { s.ctl with busyWr := true } := rfl
@[simp] theorem refuseBusyWrite_freq (s : State) : (refuseBusyWrite s).freq = s.freq := rfl
@[simp] theorem refuseBusyWrite_tb (s : State) : (refuseBusyWrite s).tb = s.tb := rfl
@[simp] theorem refuseBusyWrite_cg (s : State) : (refuseBusyWrite s).cg = s.cg := rfl
@[simp] theorem refuseBusyWrite_enc (s : State) : (refuseBusyWrite s).enc = s.enc := rfl
@[simp] theorem refuseBusyWrite_dec (s : State) : (refuseBusyWrite s).dec = s.dec := rfl
@[simp] theorem refuseBusyWrite_encOut (s : State) : (refuseBusyWrite s).encOut = s.encOut := rfl
@[simp] theorem refuseBusyWrite_decOut (s : State) : (refuseBusyWrite s).decOut = s.decOut := rfl
@[simp] theorem refuseBusyWrite_host (s : State) : (refuseBusyWrite s).host = s.host := rfl
@[simp] theorem refuseBusyWrite_draws (s : State) : (refuseBusyWrite s).draws = s.draws := rfl

@[simp] theorem Stream.all_push (st : Stream) (b : Byte) : (st.push b).all = st.all ++ [b] := by
  simp [Stream.push, Stream.all]

@[simp] theorem Stream.all_discard (st : Stream) : st.discard.all = st.taken := by
  simp [Stream.discard, Stream.all]

@[simp] theorem Stream.all_take (st : Stream) : st.take.all = st.all := by
  rcases st with ⟨t, _ | ⟨b, p⟩⟩ <;> simp [Stream.take, Stream.all]

theorem Stream.push_ne (st : Stream) (b : Byte) : st.push b ≠ st := by
  intro h
  have := congrArg (fun s => s.pending.length) h
  simp [Stream.push] at this

@[simp] theorem reset_eng : State.reset.eng = .idle := rfl
@[simp] theorem reset_rstN : State.reset.rstN = true := rfl
@[simp] theorem reset_ctl : State.reset.ctl = Ctl.reset := rfl
@[simp] theorem reset_tb : State.reset.tb = TreeRegs.reset := rfl
@[simp] theorem reset_cg : State.reset.cg = CodeRegs.reset := rfl
@[simp] theorem reset_enc : State.reset.enc = EncRegs.reset := rfl
@[simp] theorem reset_dec : State.reset.dec = DecRegs.reset := rfl
@[simp] theorem reset_host : State.reset.host = HostSide.quiet := rfl

@[simp] theorem ctl_reset_errCode : Ctl.reset.errCode = .none := rfl
@[simp] theorem ctl_reset_errInfo : Ctl.reset.errInfo = 0#32 := rfl
@[simp] theorem ctl_reset_done : Ctl.reset.done = false := rfl
@[simp] theorem ctl_reset_busyWr : Ctl.reset.busyWr = false := rfl
@[simp] theorem ctl_reset_irqEnErr : Ctl.reset.irqEnErr = false := rfl
@[simp] theorem ctl_reset_irqEnDone : Ctl.reset.irqEnDone = false := rfl
@[simp] theorem tree_reset_valid : TreeRegs.reset.valid = false := rfl
@[simp] theorem tree_reset_nleaf : TreeRegs.reset.nleaf = 0 := rfl
@[simp] theorem tree_reset_root : TreeRegs.reset.root = 0 := rfl
@[simp] theorem code_reset_valid : CodeRegs.reset.valid = false := rfl
@[simp] theorem code_reset_maxlen : CodeRegs.reset.maxlen = 0#8 := rfl
@[simp] theorem enc_reset_active : EncRegs.reset.active = false := rfl
@[simp] theorem enc_reset_acc : EncRegs.reset.acc = 0#8 := rfl
@[simp] theorem dec_reset_active : DecRegs.reset.active = false := rfl

end Sys2Proof.Machine
end

