-- ==== Sys2Proof/Laws/Pairing.lean ====
section
/-! SUPPORT. What the pairing loop of TB_BUILD does (spec/41_tree_builder.md R153 to R156), said once over the list of nodes
it makes: `pairUp_spec`. -/

namespace Sys2Proof.Machine

theorem nodeIdx_val {k : Nat} (h : k < 511) : (nodeIdx k).val = k := by
  simp [nodeIdx, Fin.ofNat, Nat.mod_eq_of_lt h]

@[simp] theorem nodeIdx_val_self (k : NodeIdx) : nodeIdx k.val = k := by
  ext; simp [nodeIdx, Fin.ofNat]

theorem Entry.before_iff (a b : Entry) :
    a.before b = true ↔
      a.freq.toNat < b.freq.toNat ∨ (a.freq.toNat = b.freq.toNat ∧ a.idx.val < b.idx.val) := by
  simp only [Entry.before, Bool.or_eq_true, Bool.and_eq_true, decide_eq_true_eq, beq_iff_eq, BitVec.toNat_inj,
    BitVec.lt_def, Fin.val_fin_lt]

theorem extractMin_perm (m : Entry) (es : List Entry) :
    ((extractMin m es).1 :: (extractMin m es).2).Perm (m :: es) := by
  induction es generalizing m with
  | nil => simp [extractMin]
  | cons e es ih =>
    by_cases h : e.before m = true
    · simp only [extractMin, h, if_true]
      exact ((List.Perm.swap _ _ _).trans ((ih e).cons m))
    · simp only [extractMin, h]
      exact ((List.Perm.swap _ _ _).trans ((ih m).cons e)).trans (List.Perm.swap _ _ _)

theorem extractMin_length (m : Entry) (es : List Entry) : (extractMin m es).2.length = es.length := by
  simpa using (extractMin_perm m es).length_eq

/-- Nothing that is left has a smaller key than the entry taken out. -/
theorem extractMin_min (m : Entry) (es : List Entry) :
    ∀ e ∈ m :: es, e.before (extractMin m es).1 = false := by
  induction es generalizing m with
  | nil => simp [extractMin, Entry.before]
  | cons e es ih =>
    by_cases h : e.before m = true
    · simp only [extractMin, h, if_true]
      have he := ih e
      intro x hx
      rcases List.mem_cons.1 hx with rfl | hx
      · have h1 := he e (by simp)
        by_contra hc
        have hc : x.before (extractMin e es).1 = true := by simpa using hc
        rw [Entry.before_iff] at h hc
        have : ¬ (e.before (extractMin e es).1 = true) := by simp [h1]
        rw [Entry.before_iff] at this
        omega
      · exact he x hx
    · simp only [extractMin, h]
      have hm := ih m
      intro x hx
      simp only [List.mem_cons] at hx
      rcases hx with rfl | rfl | hx
      · exact hm x (by simp)
      · have h1 := hm m (by simp)
        by_contra hc
        have hc : x.before (extractMin m es).1 = true := by simpa using hc
        have : ¬ (m.before (extractMin m es).1 = true) := by simp [h1]
        rw [Entry.before_iff] at h hc this
        omega
      · exact hm x (by simp [hx])

/-- The frequency of node `k` of a list, 0 where there is none. -/
def fq (ns : List Node) (k : Nat) : Nat := ((ns[k]?).map (fun d => d.freq.toNat)).getD 0

/-- The key (freq, index) of node `a` of a list is smaller than that of node `b` (R154). -/
def ListKeyLt (ns : List Node) (a b : Nat) : Prop := fq ns a < fq ns b ∨ (fq ns a = fq ns b ∧ a < b)

/-- Node `m` is live when node `k` is made, with the leaves below `n` (R153). -/
def ListLive (n : Nat) (ns : List Node) (k m : Nat) : Prop :=
  m < k ∧ ∀ j, n ≤ j → j < k → ∀ l r f, ns[j]? = some (.internal l r f) → l.val ≠ m ∧ r.val ≠ m

/-- Node `k` is the pair of the two live nodes of smallest key, smallest left, with the exact sum (R154 to R156). -/
def Picked (n : Nat) (ns : List Node) (k : Nat) : Prop :=
  ∃ l r f, ns[k]? = some (.internal l r f) ∧ ListLive n ns k l.val ∧ ListLive n ns k r.val ∧
    ListKeyLt ns l.val r.val ∧ (∀ m, ListLive n ns k m → m = l.val ∨ m = r.val ∨ ListKeyLt ns r.val m) ∧
    f.toNat = fq ns l.val + fq ns r.val

/-- The queue of the loop holds exactly the live nodes, each once and with its frequency, and their sum fits. -/
structure QueueOk (n : Nat) (ns : List Node) (live : List Entry) : Prop where
  nodup : (live.map (fun e => e.idx.val)).Nodup
  mem_iff : ∀ m, m ∈ live.map (fun e => e.idx.val) ↔ ListLive n ns ns.length m
  freq : ∀ e ∈ live, e.freq.toNat = fq ns e.idx.val
  small : (live.map (fun e => e.freq.toNat)).sum < 2 ^ 40

theorem fq_append {ns : List Node} {k : Nat} (xs : List Node) (h : k < ns.length) : fq (ns ++ xs) k = fq ns k := by
  simp [fq, List.getElem?_append_left h]

theorem listLive_append {n : Nat} {ns : List Node} {k m : Nat} (xs : List Node) (h : k ≤ ns.length) :
    ListLive n (ns ++ xs) k m ↔ ListLive n ns k m := by
  constructor
  · rintro ⟨a, b⟩
    refine ⟨a, fun j h1 h2 l r f hf => b j h1 h2 l r f ?_⟩
    rw [List.getElem?_append_left (by omega)]; exact hf
  · rintro ⟨a, b⟩
    refine ⟨a, fun j h1 h2 l r f hf => b j h1 h2 l r f ?_⟩
    rwa [List.getElem?_append_left (by omega)] at hf

theorem listKeyLt_append {ns : List Node} {a b : Nat} (xs : List Node) (ha : a < ns.length) (hb : b < ns.length) :
    ListKeyLt (ns ++ xs) a b ↔ ListKeyLt ns a b := by
  simp [ListKeyLt, fq_append xs ha, fq_append xs hb]

theorem picked_append {n : Nat} {ns : List Node} {k : Nat} (xs : List Node) (h : k < ns.length)
    (hp : Picked n ns k) : Picked n (ns ++ xs) k := by
  obtain ⟨l, r, f, h1, h2, h3, h4, h5, h6⟩ := hp
  have hl := h2.1
  have hr := h3.1
  refine ⟨l, r, f, ?_, ?_, ?_, ?_, ?_, ?_⟩
  · rw [List.getElem?_append_left h]; exact h1
  · exact (listLive_append xs h.le).2 h2
  · exact (listLive_append xs h.le).2 h3
  · exact (listKeyLt_append xs (by omega) (by omega)).2 h4
  · intro m hm
    have hm' := (listLive_append xs h.le).1 hm
    rcases h5 m hm' with h | h' | h'
    · exact .inl h
    · exact .inr (.inl h')
    · exact .inr (.inr ((listKeyLt_append xs (by omega) (by have := hm'.1; omega)).2 h'))
  · rw [fq_append xs (by omega), fq_append xs (by omega)]; exact h6

/-- One pass of the loop keeps the queue in step with the nodes made. -/
theorem pass_spec {n : Nat} {ns : List Node} {a b : Entry} {others live : List Entry}
    (hcap : ns.length < 511) (hn : n ≤ ns.length)
    (hp : ∀ k, n ≤ k → k < ns.length → Picked n ns k) (hq : QueueOk n ns live) (hperm : (a :: b :: others).Perm live)
    (hab : ∀ e ∈ b :: others, e.before a = false) (hb : ∀ e ∈ others, e.before b = false) :
    Picked n (ns ++ [.internal a.idx b.idx (a.freq + b.freq)]) ns.length ∧
      QueueOk n (ns ++ [.internal a.idx b.idx (a.freq + b.freq)])
        ({ freq := a.freq + b.freq, idx := nodeIdx ns.length } :: others) ∧
      (a.freq + b.freq).toNat + (others.map (fun e => e.freq.toNat)).sum =
        (live.map (fun e => e.freq.toNat)).sum := by
  have hmem : ∀ e, e ∈ a :: b :: others ↔ e ∈ live := fun e => hperm.mem_iff
  have hsum := (hperm.map (fun e : Entry => e.freq.toNat)).sum_eq
  simp only [List.map_cons, List.sum_cons] at hsum
  have hsmall := hq.small
  have hadd : (a.freq + b.freq).toNat = a.freq.toNat + b.freq.toNat := by
    rw [BitVec.toNat_add]; apply Nat.mod_eq_of_lt; omega
  have hnd := ((hperm.map (fun e : Entry => e.idx.val)).nodup_iff).2 hq.nodup
  simp only [List.map_cons, List.nodup_cons, List.mem_cons, List.mem_map, not_or, not_exists, not_and] at hnd
  obtain ⟨⟨hab_ne, ha_o⟩, hb_o, hnd_o⟩ := hnd
  have hlive : ∀ e ∈ a :: b :: others, ListLive n ns ns.length e.idx.val := fun e he =>
    (hq.mem_iff _).1 (List.mem_map_of_mem ((hmem e).1 he))
  have hfreq : ∀ e ∈ a :: b :: others, e.freq.toNat = fq ns e.idx.val := fun e he => hq.freq e ((hmem e).1 he)
  have la := hlive a (by simp)
  have lb := hlive b (by simp)
  have fa := hfreq a (by simp)
  have fb := hfreq b (by simp)
  have hidx : (nodeIdx ns.length).val = ns.length := nodeIdx_val hcap
  -- whichever entry comes later in the order has the larger key
  have key : ∀ x y : Entry, x ∈ a :: b :: others → y ∈ a :: b :: others → y.before x = false →
      x.idx.val ≠ y.idx.val → ListKeyLt ns x.idx.val y.idx.val := by
    intro x y hx hy hxy hne
    have hxy : ¬ (y.before x = true) := by simp [hxy]
    rw [Entry.before_iff, hfreq x hx, hfreq y hy] at hxy
    unfold ListKeyLt
    omega
  set node : Node := .internal a.idx b.idx (a.freq + b.freq) with hnode
  have hget : (ns ++ [node])[ns.length]? = some node := by simp
  refine ⟨⟨a.idx, b.idx, a.freq + b.freq, hget, ?_, ?_, ?_, ?_, ?_⟩, ?_, ?_⟩
  · exact (listLive_append _ le_rfl).2 la
  · exact (listLive_append _ le_rfl).2 lb
  · rw [listKeyLt_append _ la.1 lb.1]
    exact key a b (by simp) (by simp) (hab b (by simp)) hab_ne
  · intro m hm
    have hm := (listLive_append _ le_rfl).1 hm
    have := (hq.mem_iff m).2 hm
    obtain ⟨e, he, rfl⟩ := List.mem_map.1 this
    have he' := (hmem e).2 he
    by_cases h1 : e.idx.val = a.idx.val
    · exact .inl h1
    · by_cases h2 : e.idx.val = b.idx.val
      · exact .inr (.inl h2)
      · right; right
        rw [listKeyLt_append _ lb.1 hm.1]
        have : e ∈ others := by
          simp only [List.mem_cons] at he'
          rcases he' with rfl | rfl | he'
          · exact absurd rfl h1
          · exact absurd rfl h2
          · exact he'
        exact key b e (by simp) (by simp [this]) (hb e this) (fun h => h2 h.symm)
  · rw [hadd, fa, fb, fq_append _ la.1, fq_append _ lb.1]
  · constructor
    · simp only [List.map_cons, List.nodup_cons]
      refine ⟨?_, hnd_o⟩
      rw [hidx]
      intro h
      obtain ⟨e, he, h⟩ := List.mem_map.1 h
      have := (hlive e (by simp [he])).1
      omega
    · intro m
      rw [List.length_append, List.length_singleton]
      simp only [List.map_cons, List.mem_cons, hidx]
      constructor
      · rintro (rfl | h)
        · refine ⟨by omega, fun j h1 h2 l r f hf => ?_⟩
          have hlt : l.val < ns.length ∧ r.val < ns.length ∨ j = ns.length := by
            by_cases hj : j = ns.length
            · exact .inr hj
            · left
              rw [List.getElem?_append_left (by omega)] at hf
              obtain ⟨l', r', f', h', hl', hr', -⟩ := hp j h1 (by omega)
              rw [hf] at h'
              simp only [Option.some.injEq, Node.internal.injEq] at h'
              obtain ⟨rfl, rfl, -⟩ := h'
              have := hl'.1; have := hr'.1
              omega
          rcases hlt with h | rfl
          · omega
          · rw [hget] at hf
            simp only [hnode, Option.some.injEq, Node.internal.injEq] at hf
            obtain ⟨rfl, rfl, -⟩ := hf
            have := la.1; have := lb.1
            omega
        · obtain ⟨e, he, rfl⟩ := List.mem_map.1 h
          have le := hlive e (by simp [he])
          refine ⟨by have := le.1; omega, fun j h1 h2 l r f hf => ?_⟩
          by_cases hj : j = ns.length
          · subst hj
            rw [hget] at hf
            simp only [hnode, Option.some.injEq, Node.internal.injEq] at hf
            obtain ⟨rfl, rfl, -⟩ := hf
            exact ⟨fun h => ha_o e he h.symm, fun h => hb_o e he h.symm⟩
          · rw [List.getElem?_append_left (by omega)] at hf
            exact le.2 j h1 (by omega) l r f hf
      · rintro ⟨h1, h2⟩
        by_cases hm : m = ns.length
        · exact .inl hm
        · right
          have hl : ListLive n ns ns.length m := by
            refine ⟨by omega, fun j hj1 hj2 l r f hf => h2 j hj1 (by omega) l r f ?_⟩
            rw [List.getElem?_append_left hj2]; exact hf
          obtain ⟨e, he, rfl⟩ := List.mem_map.1 ((hq.mem_iff m).2 hl)
          have he' := (hmem e).2 he
          have := h2 ns.length (by omega) (by omega) _ _ _ hget
          simp only [List.mem_cons] at he'
          rcases he' with rfl | rfl | he'
          · exact absurd rfl this.1
          · exact absurd rfl this.2
          · exact List.mem_map_of_mem he'
    · intro e he
      simp only [List.mem_cons] at he
      rcases he with rfl | he
      · simp only [hidx]
        simp [fq, hnode, Node.freq]
      · have := (hlive e (by simp [he])).1
        rw [hfreq e (by simp [he]), fq_append _ this]
    · simp only [List.map_cons, List.sum_cons]
      omega
  · omega

/-- What the pairing loop makes of a list of nodes whose live ones are in the queue: one node a pass, each of them picked
as R154 to R156 say, until the last node alone is live, with the sum of all the frequencies (R155). -/
theorem pairUp_spec (n : Nat) (passes : Nat) :
    ∀ (live : List Entry) (ns : List Node), live ≠ [] → live.length ≤ passes + 1 → ns.length + live.length ≤ 512 →
      n ≤ ns.length → QueueOk n ns live → (∀ k, n ≤ k → k < ns.length → Picked n ns k) →
      (pairUp passes live ns.length).length + 1 = live.length ∧
      (∀ k, n ≤ k → k < (ns ++ pairUp passes live ns.length).length →
        Picked n (ns ++ pairUp passes live ns.length) k) ∧
      ∃ e, QueueOk n (ns ++ pairUp passes live ns.length) [e] ∧
        e.freq.toNat = (live.map (fun e => e.freq.toNat)).sum := by
  induction passes with
  | zero =>
    intro live ns hne hlen hcap hn hq hp
    match live, hne with
    | [e], _ => simpa [pairUp] using ⟨hp, e, hq, rfl⟩
    | _ :: _ :: _, _ => simp at hlen
  | succ passes ih =>
    intro live ns hne hlen hcap hn hq hp
    match live, hne with
    | [e], _ => simpa [pairUp, extractMin] using ⟨hp, e, hq, rfl⟩
    | e0 :: e1 :: es, _ =>
      have hmp := extractMin_perm e0 (e1 :: es)
      have hmm := extractMin_min e0 (e1 :: es)
      have hml := extractMin_length e0 (e1 :: es)
      rcases h1 : extractMin e0 (e1 :: es) with ⟨a, _ | ⟨e', es'⟩⟩
      · rw [h1] at hml; simp at hml
      · rw [h1] at hmp hmm hml
        have hnp := extractMin_perm e' es'
        have hnm := extractMin_min e' es'
        have hnl := extractMin_length e' es'
        rcases h2 : extractMin e' es' with ⟨b, others⟩
        rw [h2] at hnp hnm hnl
        simp only [List.length_cons] at hlen hcap hml hnl
        have hperm : (a :: b :: others).Perm (e0 :: e1 :: es) := (hnp.cons a).trans hmp
        have hq' := hq
        obtain ⟨p1, p2, p3⟩ := pass_spec (a := a) (b := b) (others := others) (by omega) hn hp hq hperm
          (fun e he => hmm e (hperm.mem_iff.1 (List.mem_cons_of_mem _ he)))
          (fun e he => hnm e (hnp.mem_iff.1 (List.mem_cons_of_mem _ he)))
        set node : Node := .internal a.idx b.idx (a.freq + b.freq) with hnode
        have hstep : pairUp (passes + 1) (e0 :: e1 :: es) ns.length =
            node :: pairUp passes ({ freq := a.freq + b.freq, idx := nodeIdx ns.length } :: others)
              (ns.length + 1) := by
          simp only [pairUp, h1, h2, hnode]
        have hrec := ih ({ freq := a.freq + b.freq, idx := nodeIdx ns.length } :: others) (ns ++ [node])
          (by simp) (by simp only [List.length_cons]; omega)
          (by simp only [List.length_cons, List.length_append, List.length_nil]; omega)
          (by simp only [List.length_append]; omega) p2
          (by
            intro k hk1 hk2
            by_cases hk : k = ns.length
            · subst hk; exact p1
            · exact picked_append _ (by simp at hk2; omega)
                (hp k hk1 (by simp at hk2; omega)))
        simp only [List.length_append, List.length_singleton, List.append_assoc, List.singleton_append] at hrec
        obtain ⟨r1, r2, e, r3, r4⟩ := hrec
        rw [hstep]
        refine ⟨?_, ?_, e, r3, ?_⟩
        · simp only [List.length_cons] at r1 ⊢; omega
        · intro k hk1 hk2
          exact r2 k hk1 (by simpa [Nat.add_assoc, Nat.add_comm] using hk2)
        · rw [r4, List.map_cons, List.sum_cons]; exact p3

end Sys2Proof.Machine
end

