-- ==== Sys2Proof/Laws/TreeBuilder.lean ====
section
/-! SUPPORT. What TB_BUILD puts into the arena (spec/41_tree_builder.md R150 to R162): the leaves, the internal nodes, and the
arena's invariants (spec/10_state.md R36). -/

namespace Sys2Proof.Machine

theorem mem_allSymbols (x : Byte) : x ∈ allSymbols := by
  simp only [allSymbols, List.mem_map, List.mem_range]
  exact ⟨x.toNat, x.isLt, by simp⟩

theorem allSymbols_ascend : allSymbols.Pairwise (· < ·) := by
  simp only [allSymbols, List.pairwise_map]
  refine List.pairwise_lt_range.imp_of_mem ?_
  intro a b ha hb h
  simp only [List.mem_range] at ha hb
  rw [BitVec.lt_def, BitVec.toNat_ofNat, BitVec.toNat_ofNat]
  omega

theorem mem_presentSymbols (s : State) (x : Byte) : x ∈ s.presentSymbols ↔ s.freqAt x ≠ 0#32 := by
  simp [State.presentSymbols, mem_allSymbols]

theorem presentSymbols_ascend (s : State) : s.presentSymbols.Pairwise (· < ·) :=
  allSymbols_ascend.filter _

theorem presentSymbols_length_le (s : State) : s.presentSymbols.length ≤ 256 :=
  (List.length_filter_le _ _).trans (by simp [allSymbols])

theorem leafNodes_length (s : State) : (leafNodes s).length = s.presentSymbols.length := by simp [leafNodes]

theorem leafNodes_getElem (s : State) (k : Nat) (h : k < s.presentSymbols.length) :
    (leafNodes s)[k]? = some (.leaf s.presentSymbols[k] ((s.freqAt s.presentSymbols[k]).setWidth 40)) := by
  simp [leafNodes, h]

theorem sum_le_length_mul (l : List Nat) (c : Nat) (h : ∀ x ∈ l, x ≤ c) : l.sum ≤ l.length * c := by
  induction l with
  | nil => simp
  | cons a l ih =>
    have := h a (by simp)
    have := ih (fun x hx => h x (by simp [hx]))
    simp only [List.sum_cons, List.length_cons, Nat.add_mul, Nat.one_mul]
    omega

theorem liveEntries_idx (ns : List Node) (h : ns.length ≤ 256) :
    (liveEntries ns).map (fun e => e.idx.val) = List.range ns.length := by
  apply List.ext_getElem
  · simp [liveEntries]
  · intro i h1 h2
    simp [liveEntries] at h1 h2 ⊢
    exact nodeIdx_val (by omega)

theorem liveEntries_freq (ns : List Node) :
    (liveEntries ns).map (fun e => e.freq.toNat) = ns.map (fun d => d.freq.toNat) := by
  apply List.ext_getElem
  · simp [liveEntries]
  · intro i h1 h2; simp [liveEntries]

/-- The frequencies of the leaves are the counts (R155). -/
theorem leafNodes_freq (s : State) :
    (leafNodes s).map (fun d => d.freq.toNat) = s.presentSymbols.map (fun x => (s.freqAt x).toNat) := by
  simp only [leafNodes, List.map_map]
  apply List.map_congr_left
  intro x _
  simp only [Function.comp, Node.freq, BitVec.toNat_setWidth]
  exact Nat.mod_eq_of_lt (by have := (s.freqAt x).isLt; omega)

theorem counts_small (s : State) : (s.presentSymbols.map (fun x => (s.freqAt x).toNat)).sum < 2 ^ 40 := by
  have h1 := sum_le_length_mul (s.presentSymbols.map (fun x => (s.freqAt x).toNat)) (2 ^ 32 - 1) (by
    intro v hv
    obtain ⟨x, _, rfl⟩ := List.mem_map.1 hv
    have := (s.freqAt x).isLt; omega)
  rw [List.length_map] at h1
  have h2 := Nat.mul_le_mul_right (2 ^ 32 - 1) (presentSymbols_length_le s)
  omega

/-- The queue the loop starts with holds the leaves (R153). -/
theorem firstQueue_ok (s : State) :
    QueueOk (leafNodes s).length (leafNodes s) (liveEntries (leafNodes s)) := by
  have hlen : (leafNodes s).length ≤ 256 := by rw [leafNodes_length]; exact presentSymbols_length_le s
  constructor
  · rw [liveEntries_idx _ hlen]; exact List.nodup_range
  · intro m
    rw [liveEntries_idx _ hlen, List.mem_range]
    constructor
    · intro h; exact ⟨h, fun j h1 h2 => by omega⟩
    · exact fun h => h.1
  · intro e he
    obtain ⟨i, hi, rfl⟩ := List.getElem_of_mem he
    have hi' : i < (leafNodes s).length := by simpa [liveEntries] using hi
    have : (nodeIdx i).val = i := nodeIdx_val (by omega)
    simp [liveEntries, fq, this, hi']
  · rw [liveEntries_freq, leafNodes_freq]; exact counts_small s

/-- What TB_BUILD's list of nodes is, once a symbol is present: 2n - 1 nodes, each internal one picked as R154 to R156
say, and at the end one live node, with the sum of all counts. -/
theorem builtNodes_spec (s : State) (h : s.presentSymbols ≠ []) :
    (builtNodes s).length + 1 = 2 * s.presentSymbols.length ∧
      (∀ k, s.presentSymbols.length ≤ k → k < (builtNodes s).length →
        Picked s.presentSymbols.length (builtNodes s) k) ∧
      ∃ e, QueueOk s.presentSymbols.length (builtNodes s) [e] ∧
        e.freq.toNat = (s.presentSymbols.map (fun x => (s.freqAt x).toNat)).sum := by
  have hlen := presentSymbols_length_le s
  have hll := leafNodes_length s
  have hel : (liveEntries (leafNodes s)).length = (leafNodes s).length := by simp [liveEntries]
  have hpos : 0 < s.presentSymbols.length := List.length_pos_iff.2 h
  have := pairUp_spec (leafNodes s).length (leafNodes s).length (liveEntries (leafNodes s)) (leafNodes s)
    (by rw [← List.length_pos_iff]; omega) (by omega) (by omega) le_rfl (firstQueue_ok s) (fun k h1 h2 => by omega)
  rw [liveEntries_freq, leafNodes_freq, hel, hll] at this
  obtain ⟨h1, h2, e, h3, h4⟩ := this
  have hb : builtNodes s = leafNodes s ++ pairUp s.presentSymbols.length (liveEntries (leafNodes s))
      s.presentSymbols.length := by simp only [builtNodes, hll]
  rw [hb]
  exact ⟨by rw [List.length_append]; omega, h2, e, h3, h4⟩

theorem builtNodes_leaf (s : State) (k : Nat) (h : k < s.presentSymbols.length) :
    (builtNodes s)[k]? = some (.leaf s.presentSymbols[k] ((s.freqAt s.presentSymbols[k]).setWidth 40)) := by
  rw [builtNodes, List.getElem?_append_left (by rw [leafNodes_length]; exact h), leafNodes_getElem s k h]

theorem writeNodes_get (ns : List Node) : ∀ (arena : Vector Node 511) (k : Nat) (i : NodeIdx),
    (writeNodes arena k ns).get i =
      if k ≤ i.val then (ns[i.val - k]?).getD (arena.get i) else arena.get i := by
  induction ns with
  | nil => intro arena k i; simp [writeNodes]
  | cons n ns ih =>
    intro arena k i
    rw [writeNodes, ih]
    have hget : (arena.setIfInBounds k n).get i = if k = i.val then n else arena.get i := by
      simp only [Vector.get_eq_getElem, Vector.getElem_setIfInBounds]
    by_cases h1 : k + 1 ≤ i.val
    · have : i.val - k = (i.val - (k + 1)) + 1 := by omega
      rw [if_pos h1, if_pos (by omega), this, List.getElem?_cons_succ, hget, if_neg (by omega)]
    · rw [if_neg h1, hget]
      by_cases h2 : k = i.val
      · subst h2; simp
      · rw [if_neg h2, if_neg (by omega)]

/-- An arena entry after a build: the node of the list where there is one, else what it held (R152). -/
theorem builtTree_at (s : State) (i : NodeIdx) :
    (builtTree s).at i = ((builtNodes s)[i.val]?).getD (s.tb.at i) := by
  simp [TreeRegs.at, builtTree, writeNodes_get]

theorem builtTree_nleaf (s : State) : (builtTree s).nleaf.val = s.presentSymbols.length := by
  have := presentSymbols_length_le s
  simp only [builtTree, leafNodes_length, Fin.ofNat]
  exact Nat.mod_eq_of_lt (by omega)

theorem builtTree_root (s : State) (h : s.presentSymbols ≠ []) :
    (builtTree s).root.val = 2 * s.presentSymbols.length - 2 := by
  have h1 := (builtNodes_spec s h).1
  have := presentSymbols_length_le s
  show (nodeIdx ((builtNodes s).length - 1)).val = _
  rw [nodeIdx_val (by omega)]; omega

theorem builtTree_nodeNo (s : State) (h : s.presentSymbols ≠ []) (k : Nat) (hk : k + 1 < 2 * s.presentSymbols.length) :
    (builtNodes s)[k]? = some ((builtTree s).nodeNo k) := by
  have h1 := (builtNodes_spec s h).1
  have := presentSymbols_length_le s
  have hv : (nodeIdx k).val = k := nodeIdx_val (by omega)
  have hlt : k < (builtNodes s).length := by omega
  simp [TreeRegs.nodeNo, builtTree_at, hv, hlt]

theorem builtTree_freq (s : State) (h : s.presentSymbols ≠ []) (k : Nat) (hk : k + 1 < 2 * s.presentSymbols.length) :
    fq (builtNodes s) k = ((builtTree s).nodeNo k).freq.toNat := by
  simp [fq, builtTree_nodeNo s h k hk]

/-- The live nodes of the list are those of the arena (R153). -/
theorem builtTree_live (s : State) (h : s.presentSymbols ≠ []) (k m : Nat) (hk : k < 2 * s.presentSymbols.length) :
    ListLive s.presentSymbols.length (builtNodes s) k m ↔ (builtTree s).liveAt k m := by
  have hs := builtNodes_spec s h
  unfold ListLive TreeRegs.liveAt
  rw [builtTree_nleaf]
  constructor
  · rintro ⟨a, b⟩
    refine ⟨a, fun j h1 h2 => ?_⟩
    obtain ⟨l, r, f, hj, -⟩ := hs.2.1 j h1 (by omega)
    have hj' := hj
    rw [builtTree_nodeNo s h j (by omega), Option.some.injEq] at hj'
    rw [hj']
    exact b j h1 h2 l r f hj
  · rintro ⟨a, b⟩
    refine ⟨a, fun j h1 h2 l r f hj => ?_⟩
    have := b j h1 h2
    rw [builtTree_nodeNo s h j (by omega), Option.some.injEq] at hj
    rw [hj] at this
    exact this

theorem builtTree_keyLt (s : State) (h : s.presentSymbols ≠ []) (a b : Nat)
    (ha : a + 1 < 2 * s.presentSymbols.length) (hb : b + 1 < 2 * s.presentSymbols.length) :
    ListKeyLt (builtNodes s) a b ↔ (builtTree s).keyLt a b := by
  simp [ListKeyLt, TreeRegs.keyLt, builtTree_freq s h a ha, builtTree_freq s h b hb]

/-- An internal node of a build, in the arena's terms (R154, R155, R156). -/
theorem builtTree_internal (s : State) (h : s.presentSymbols ≠ []) (k : Nat) (h1 : s.presentSymbols.length ≤ k)
    (h2 : k + 1 < 2 * s.presentSymbols.length) :
    ∃ l r f, (builtTree s).nodeNo k = .internal l r f ∧ (builtTree s).liveAt k l.val ∧ (builtTree s).liveAt k r.val ∧
      (builtTree s).keyLt l.val r.val ∧
      (∀ m, (builtTree s).liveAt k m → m = l.val ∨ m = r.val ∨ (builtTree s).keyLt r.val m) ∧
      f.toNat = ((builtTree s).at l).freq.toNat + ((builtTree s).at r).freq.toNat := by
  have hs := builtNodes_spec s h
  obtain ⟨l, r, f, p1, p2, p3, p4, p5, p6⟩ := hs.2.1 k h1 (by omega)
  have hl := p2.1
  have hr := p3.1
  rw [builtTree_nodeNo s h k h2, Option.some.injEq] at p1
  refine ⟨l, r, f, p1, (builtTree_live s h k _ (by omega)).1 p2, (builtTree_live s h k _ (by omega)).1 p3,
    (builtTree_keyLt s h _ _ (by omega) (by omega)).1 p4, ?_, ?_⟩
  · intro m hm
    have hm' := hm.1
    rcases p5 m ((builtTree_live s h k _ (by omega)).2 hm) with q | q | q
    · exact .inl q
    · exact .inr (.inl q)
    · exact .inr (.inr ((builtTree_keyLt s h _ _ (by omega) (by omega)).1 q))
  · rw [p6, builtTree_freq s h _ (by omega), builtTree_freq s h _ (by omega)]
    simp [TreeRegs.nodeNo]

end Sys2Proof.Machine
end

