-- ==== Sys2Proof/Laws/Arena.lean ====
section
/-! SUPPORT. The arena TB_BUILD leaves meets R36 (spec/10_state.md, spec/41_tree_builder.md R160), and what R36 gives a reader
of a valid arena: paths go down, every leaf is reached by exactly one path. -/

namespace Sys2Proof.Machine

/-- At the end of a build only the last node is live, and it has the sum of all counts (R153, R155). -/
theorem builtTree_end (s : State) (h : s.presentSymbols ≠ []) :
    (∀ m, (builtTree s).liveAt (2 * s.presentSymbols.length - 1) m ↔ m = 2 * s.presentSymbols.length - 2) ∧
      ((builtTree s).at (builtTree s).root).freq.toNat =
        (s.presentSymbols.map (fun x => (s.freqAt x).toNat)).sum := by
  have hs := builtNodes_spec s h
  have hpos : 0 < s.presentSymbols.length := List.length_pos_iff.2 h
  have hcap := presentSymbols_length_le s
  obtain ⟨h1, h2, e, h3, h4⟩ := hs
  have hlen : (builtNodes s).length = 2 * s.presentSymbols.length - 1 := by omega
  have key : ∀ m, (builtTree s).liveAt (2 * s.presentSymbols.length - 1) m ↔ m = e.idx.val := by
    intro m
    rw [← builtTree_live s h _ m (by omega), ← hlen, ← h3.mem_iff m]
    simp
  have hlast : (builtTree s).liveAt (2 * s.presentSymbols.length - 1) (2 * s.presentSymbols.length - 2) := by
    refine ⟨by omega, fun j hj1 hj2 => ?_⟩
    rw [builtTree_nleaf] at hj1
    obtain ⟨l, r, f, p1, p2, p3, -⟩ := builtTree_internal s h j hj1 (by omega)
    have := p2.1; have := p3.1
    rw [p1]; simp only [Node.left, Node.right]; omega
  have he := (key _).1 hlast
  refine ⟨fun m => by rw [key m, he], ?_⟩
  have hroot : (builtTree s).root = e.idx := by
    ext; rw [builtTree_root s h]; exact he
  rw [← h4, h3.freq e (by simp), builtTree_freq s h _ (by omega), hroot]
  simp [TreeRegs.nodeNo]

/-- What TB_BUILD leaves is a valid arena (R36, R160). -/
theorem builtTree_ok (s : State) (h : s.presentSymbols ≠ []) : TreeOk (builtTree s) := by
  have hpos : 0 < s.presentSymbols.length := List.length_pos_iff.2 h
  have hcap := presentSymbols_length_le s
  have hn := builtTree_nleaf s
  have hleaf : ∀ k (hk : k < s.presentSymbols.length), (builtTree s).nodeNo k =
      .leaf s.presentSymbols[k] ((s.freqAt s.presentSymbols[k]).setWidth 40) := by
    intro k hk
    have := builtTree_nodeNo s h k (by omega)
    rw [builtNodes_leaf s k hk, Option.some.injEq] at this
    exact this.symm
  constructor
  · omega
  · rw [builtTree_root s h, hn]
  · intro k hk
    rw [hleaf k (by omega)]; rfl
  · intro k hk j hj
    rw [hleaf k (by omega), hleaf j (by omega)]
    simp only [Node.symBefore, decide_eq_true_eq]
    exact List.pairwise_iff_getElem.1 (presentSymbols_ascend s) j k (by omega) (by omega) hj
  · intro k hk
    rw [hleaf k (by omega)]
    have hp := (mem_presentSymbols s (s.presentSymbols[k]'(by omega))).1 (List.getElem_mem _)
    simp only [Node.freq]
    intro hc
    apply hp
    have := congrArg BitVec.toNat hc
    have hlt := (s.freqAt (s.presentSymbols[k]'(by omega))).isLt
    simp only [BitVec.toNat_setWidth, BitVec.toNat_ofNat] at this
    rw [Nat.mod_eq_of_lt (by omega)] at this
    exact BitVec.eq_of_toNat_eq (by simpa using this)
  · intro k hk1 hk2
    rw [hn] at hk1 hk2
    obtain ⟨l, r, f, p1, p2, p3, -, -, p6⟩ := builtTree_internal s h k hk2 (by omega)
    have := p2.1; have := p3.1
    rw [p1]
    exact ⟨rfl, p2.1, p3.1, p6⟩
  · intro k hk
    rw [hn] at hk
    have hend := builtTree_end s h
    -- no two sides of internal nodes are the same node
    have hnd : (builtTree s).children.Nodup := by
      unfold TreeRegs.children
      rw [hn, List.nodup_flatMap]
      constructor
      · intro j hj
        rw [List.mem_range] at hj
        obtain ⟨l, r, f, p1, -, -, p4, -⟩ := builtTree_internal s h (s.presentSymbols.length + j) (by omega) (by omega)
        rw [p1]
        simp only [Node.left, Node.right, List.nodup_cons, List.mem_singleton, List.not_mem_nil, not_false_eq_true,
          List.nodup_nil, and_true]
        rintro rfl
        rcases p4 with p4 | ⟨-, p4⟩ <;> omega
      · refine List.pairwise_lt_range.imp_of_mem ?_
        intro i j hi hj hij
        rw [List.mem_range] at hi hj
        obtain ⟨l, r, f, p1, p2, p3, -⟩ :=
          builtTree_internal s h (s.presentSymbols.length + j) (by omega) (by omega)
        have q2 := p2.2 (s.presentSymbols.length + i) (by omega) (by omega)
        have q3 := p3.2 (s.presentSymbols.length + i) (by omega) (by omega)
        simp only [Function.onFun, p1, Node.left, Node.right, List.disjoint_cons_left, List.mem_cons, List.not_mem_nil,
          or_false, not_or, List.disjoint_nil_left, and_true, Fin.ext_iff]
        exact ⟨⟨q2.1, q3.1⟩, q2.2, q3.2⟩
    rw [List.count_eq_one_of_mem hnd]
    -- a node before the last is not live at the end, so some internal node has it
    have hnl : ¬ (builtTree s).liveAt (2 * s.presentSymbols.length - 1) k := by
      rw [hend.1]; omega
    unfold TreeRegs.liveAt at hnl
    simp only [not_and, not_forall, not_not] at hnl
    obtain ⟨j, hj1, hj2, hj3⟩ := hnl (by omega)
    rw [hn] at hj1
    unfold TreeRegs.children
    simp only [List.mem_flatMap, List.mem_range, List.mem_cons, List.not_mem_nil, or_false]
    refine ⟨j - s.presentSymbols.length, by omega, ?_⟩
    rw [hn, show s.presentSymbols.length + (j - s.presentSymbols.length) = j by omega]
    have hk' : (nodeIdx k).val = k := nodeIdx_val (by omega)
    by_cases hl : ((builtTree s).nodeNo j).left.val = k
    · left; ext; rw [hk', hl]
    · right; ext; rw [hk', hj3 hl]

end Sys2Proof.Machine
end

