-- ==== Sys2Proof/Laws/Paths.lean ====
section
/-! SUPPORT. Paths in a valid arena (spec/10_state.md R36, spec/42_code_gen.md R172, R176): they go down, each node in use is
reached from ROOT by exactly one of them, and none is longer than NLEAF - 1. -/

namespace Sys2Proof.Machine

/-- The bit string leads from `k` to node `m` through internal nodes only. -/
def TreeRegs.reaches (t : TreeRegs) : NodeIdx → List Bool → NodeIdx → Prop
  | k, [], m => k = m
  | k, b :: c, m => (t.at k).isLeaf = false ∧ t.reaches ((t.at k).child b) c m

theorem reaches_append (t : TreeRegs) (k : NodeIdx) (c d : List Bool) (m : NodeIdx) :
    t.reaches k (c ++ d) m ↔ ∃ p, t.reaches k c p ∧ t.reaches p d m := by
  induction c generalizing k with
  | nil => simp [TreeRegs.reaches]
  | cons b c ih => simp [TreeRegs.reaches, ih, and_assoc]

theorem leadsTo_iff (t : TreeRegs) (k : NodeIdx) (c : List Bool) (x : Byte) :
    t.leadsTo k c x ↔ ∃ m f, t.reaches k c m ∧ t.at m = .leaf x f := by
  induction c generalizing k with
  | nil => simp [TreeRegs.leadsTo, TreeRegs.reaches]
  | cons b c ih => simp [TreeRegs.leadsTo, TreeRegs.reaches, ih, and_assoc]

theorem reaches_follow {t : TreeRegs} {k m : NodeIdx} {c : List Bool} (h : t.reaches k c m) : t.follow k c = m := by
  induction c generalizing k with
  | nil => exact h
  | cons b c ih => exact ih h.2

@[simp] theorem nodeNo_val (t : TreeRegs) (k : NodeIdx) : t.nodeNo k.val = t.at k := by simp [TreeRegs.nodeNo]

namespace TreeOk

variable {t : TreeRegs} (ok : TreeOk t)
include ok

/-- An internal node in use has an index from NLEAF on. -/
theorem internal_index {k : NodeIdx} (h : (t.at k).isLeaf = false) : t.nleaf.val ≤ k.val := by
  by_contra hc
  have := ok.leaf_of_lt k.val (by omega)
  rw [nodeNo_val] at this
  simp [h] at this

/-- The children of an internal node in use have lower indices. -/
theorem child_lt {k : NodeIdx} (hk : k.val ≤ t.root.val) (h : (t.at k).isLeaf = false) (b : Bool) :
    ((t.at k).child b).val < k.val := by
  have h1 := ok.internal_index h
  have h2 := ok.root_eq
  have h3 := ok.nleaf_pos
  have h4 : t.nleaf.val ≠ 1 := by
    intro h5
    have : k.val = 0 := by omega
    omega
  have := ok.internal_of_ge k.val (by omega) h1
  rw [nodeNo_val] at this
  cases b
  · exact this.2.1
  · exact this.2.2.1

theorem reaches_le {k m : NodeIdx} {c : List Bool} (hk : k.val ≤ t.root.val) (h : t.reaches k c m) :
    m.val ≤ k.val ∧ (c ≠ [] → m.val < k.val ∧ c.length + t.nleaf.val ≤ k.val + 1) := by
  induction c generalizing k with
  | nil => cases h; simp
  | cons b c ih =>
    have h1 := ok.child_lt hk h.1 b
    have h2 := ih (by omega) h.2
    have h3 := ok.internal_index h.1
    refine ⟨by omega, fun _ => ⟨by omega, ?_⟩⟩
    by_cases hc : c = []
    · subst hc; simp only [List.length_cons, List.length_nil]; omega
    · have := (h2.2 hc).2
      simp only [List.length_cons]; omega

/-- No path from ROOT is longer than NLEAF - 1 (R176). -/
theorem path_length {m : NodeIdx} {c : List Bool} (h : t.reaches t.root c m) : c.length + 1 ≤ t.nleaf.val := by
  have h1 := ok.root_eq
  have h3 := ok.nleaf_pos
  by_cases hc : c = []
  · subst hc; simpa using h3
  · have := ((ok.reaches_le le_rfl h).2 hc).2
    omega

theorem children_nodup : t.children.Nodup := by
  rw [List.nodup_iff_count_le_one]
  intro a
  by_cases ha : a.val < 2 * t.nleaf.val - 2
  · have := ok.one_parent a.val ha
    rw [nodeIdx_val_self] at this; omega
  · have : a ∉ t.children := by
      unfold TreeRegs.children
      simp only [List.mem_flatMap, List.mem_range, List.mem_cons, List.not_mem_nil, or_false, not_exists, not_and]
      intro j hj hc
      have := ok.internal_of_ge (t.nleaf.val + j) (by omega) (by omega)
      rcases hc with rfl | rfl <;> omega
    rw [List.count_eq_zero_of_not_mem this]; omega

/-- A node is one side of one internal node only (R36 (3)). -/
theorem parent_unique {p q : NodeIdx} {b d : Bool} (hp : p.val ≤ t.root.val) (hq : q.val ≤ t.root.val)
    (ip : (t.at p).isLeaf = false) (iq : (t.at q).isLeaf = false) (h : (t.at p).child b = (t.at q).child d) :
    p = q ∧ b = d := by
  have hnd := ok.children_nodup
  have hr := ok.root_eq
  have h1 := ok.internal_index ip
  have h2 := ok.internal_index iq
  have hpos := ok.nleaf_pos
  have hpr := ok.child_lt hp ip b
  have hqr := ok.child_lt hq iq d
  unfold TreeRegs.children at hnd
  rw [List.nodup_flatMap] at hnd
  obtain ⟨hnd1, hnd2⟩ := hnd
  have hjp : p.val - t.nleaf.val < t.nleaf.val - 1 := by omega
  have hjq : q.val - t.nleaf.val < t.nleaf.val - 1 := by omega
  have ep : t.nodeNo (t.nleaf.val + (p.val - t.nleaf.val)) = t.at p := by
    rw [show t.nleaf.val + (p.val - t.nleaf.val) = p.val by omega, nodeNo_val]
  have eq : t.nodeNo (t.nleaf.val + (q.val - t.nleaf.val)) = t.at q := by
    rw [show t.nleaf.val + (q.val - t.nleaf.val) = q.val by omega, nodeNo_val]
  have mem : ∀ (r : NodeIdx) (e : Bool), (t.at r).child e ∈ [(t.at r).left, (t.at r).right] := by
    intro r e; cases e <;> simp [Node.child]
  rw [List.pairwise_iff_getElem] at hnd2
  have cross : ∀ i j, i < j → j < t.nleaf.val - 1 →
      List.Disjoint [(t.nodeNo (t.nleaf.val + i)).left, (t.nodeNo (t.nleaf.val + i)).right]
        [(t.nodeNo (t.nleaf.val + j)).left, (t.nodeNo (t.nleaf.val + j)).right] := by
    intro i j hij hj
    have := hnd2 i j (by simp; omega) (by simpa using hj) hij
    simpa [Function.onFun] using this
  have hpq : p = q := by
    ext
    rcases Nat.lt_trichotomy p.val q.val with hlt | heq | hgt
    · have := cross _ _ (show p.val - t.nleaf.val < q.val - t.nleaf.val by omega) hjq
      rw [ep, eq] at this
      exact absurd (h ▸ mem q d) (this (mem p b))
    · exact heq
    · have := cross _ _ (show q.val - t.nleaf.val < p.val - t.nleaf.val by omega) hjp
      rw [ep, eq] at this
      exact absurd (h ▸ mem p b) (this (mem q d))
  subst hpq
  refine ⟨rfl, ?_⟩
  have hne := hnd1 (p.val - t.nleaf.val) (by simpa using hjp)
  rw [ep] at hne
  simp only [List.nodup_cons, List.mem_singleton] at hne
  cases b <;> cases d <;> simp [Node.child] at h <;> simp_all

/-- Two paths from ROOT to one node are the same (R36 (3)). -/
theorem path_unique {m : NodeIdx} (c d : List Bool) (hc : t.reaches t.root c m) (hd : t.reaches t.root d m) : c = d := by
  induction c using List.reverseRecOn generalizing d m with
  | nil =>
    cases hc
    by_contra h
    have := ((ok.reaches_le le_rfl hd).2 (fun e => h e.symm)).1
    omega
  | append_singleton c b ih =>
    obtain ⟨p, hp, ip, rfl⟩ := (reaches_append t t.root c [b] m).1 hc
    rcases List.eq_nil_or_concat d with rfl | ⟨d, e, rfl⟩
    · have hd : t.root.val = ((t.at p).child b).val := congrArg Fin.val hd
      have h1 := (ok.reaches_le le_rfl hp).1
      have := ok.child_lt h1 ip b
      omega
    · rw [List.concat_eq_append] at hd ⊢
      obtain ⟨q, hq, iq, hqe⟩ := (reaches_append t t.root d [e] _).1 hd
      have hqe : (t.at q).child e = (t.at p).child b := hqe
      obtain ⟨rfl, rfl⟩ := ok.parent_unique (ok.reaches_le le_rfl hp).1 (ok.reaches_le le_rfl hq).1 ip iq hqe.symm
      rw [ih d hp hq]

/-- Every node but ROOT is the child of an internal node in use (R36 (3)). -/
theorem has_parent {m : NodeIdx} (hm : m.val < t.root.val) :
    ∃ (p : NodeIdx) (b : Bool), m.val < p.val ∧ p.val ≤ t.root.val ∧ (t.at p).isLeaf = false ∧ (t.at p).child b = m := by
  have hr := ok.root_eq
  have hc := ok.one_parent m.val (by omega)
  rw [nodeIdx_val_self] at hc
  have hmem : m ∈ t.children := List.count_pos_iff.1 (by omega)
  unfold TreeRegs.children at hmem
  simp only [List.mem_flatMap, List.mem_range, List.mem_cons, List.not_mem_nil, or_false] at hmem
  obtain ⟨j, hj, hs⟩ := hmem
  have hi := ok.internal_of_ge (t.nleaf.val + j) (by omega) (by omega)
  have hn := t.nleaf.isLt
  have hidx : (nodeIdx (t.nleaf.val + j)).val = t.nleaf.val + j := nodeIdx_val (by omega)
  refine ⟨nodeIdx (t.nleaf.val + j), decide (m = (t.nodeNo (t.nleaf.val + j)).right), ?_, by omega, hi.1, ?_⟩
  · rw [hidx]; rcases hs with rfl | rfl <;> omega
  · show Node.child _ (t.nodeNo (t.nleaf.val + j)) = m
    by_cases h : m = (t.nodeNo (t.nleaf.val + j)).right
    · simp [Node.child, h.symm]
    · rcases hs with h' | h'
      · simp [Node.child, h, h'.symm]
      · exact absurd h' h

/-- Every node in use is reached from ROOT (R36). -/
theorem path_exists (m : NodeIdx) (hm : m.val ≤ t.root.val) : ∃ c, t.reaches t.root c m := by
  obtain ⟨d, hd⟩ : ∃ d, d = t.root.val - m.val := ⟨_, rfl⟩
  induction d using Nat.strongRecOn generalizing m with
  | ind d ih =>
    by_cases h : m.val = t.root.val
    · exact ⟨[], (Fin.ext h).symm⟩
    · obtain ⟨p, b, h1, h2, h3, h4⟩ := ok.has_parent (m := m) (by omega)
      obtain ⟨c, hc⟩ := ih (t.root.val - p.val) (by omega) p h2 rfl
      exact ⟨c ++ [b], (reaches_append t _ _ _ _).2 ⟨p, hc, h3, h4⟩⟩

/-- A leaf in use has an index below NLEAF, and its symbol says which it is (R36 (1)). -/
theorem leaf_index {k : NodeIdx} (hk : k.val ≤ t.root.val) (h : (t.at k).isLeaf = true) : k.val < t.nleaf.val := by
  by_contra hc
  have h1 := ok.root_eq
  have h3 := ok.nleaf_pos
  have := (ok.internal_of_ge k.val (by omega) (by omega)).1
  rw [nodeNo_val, h] at this
  exact Bool.noConfusion this

theorem leaf_unique {j k : NodeIdx} {x : Byte} {f g : Freq} (hj : j.val ≤ t.root.val) (hk : k.val ≤ t.root.val)
    (ej : t.at j = .leaf x f) (ek : t.at k = .leaf x g) : j = k := by
  have h1 := ok.leaf_index hj (by rw [ej]; rfl)
  have h2 := ok.leaf_index hk (by rw [ek]; rfl)
  ext
  rcases Nat.lt_trichotomy j.val k.val with hlt | heq | hgt
  · have := ok.leaves_ascend k.val h2 j.val hlt
    rw [nodeNo_val, nodeNo_val, ej, ek] at this
    simp [Node.symBefore] at this
  · exact heq
  · have := ok.leaves_ascend j.val h1 k.val hgt
    rw [nodeNo_val, nodeNo_val, ej, ek] at this
    simp [Node.symBefore] at this

/-- A symbol is reached from ROOT by one bit string at most. -/
theorem leadsTo_unique {c d : List Bool} {x : Byte} (hc : t.leadsTo t.root c x) (hd : t.leadsTo t.root d x) : c = d := by
  obtain ⟨m, f, h1, h2⟩ := (leadsTo_iff t _ _ _).1 hc
  obtain ⟨m', f', h3, h4⟩ := (leadsTo_iff t _ _ _).1 hd
  have := ok.leaf_unique (ok.reaches_le le_rfl h1).1 (ok.reaches_le le_rfl h3).1 h2 h4
  subst this
  exact ok.path_unique c d h1 h3

theorem leadsTo_exists {k : NodeIdx} {x : Byte} {f : Freq} (hk : k.val ≤ t.root.val) (h : t.at k = .leaf x f) :
    ∃ c, t.leadsTo t.root c x := by
  obtain ⟨c, hc⟩ := ok.path_exists k hk
  exact ⟨c, (leadsTo_iff t _ _ _).2 ⟨k, f, hc, h⟩⟩

theorem leadsTo_length {c : List Bool} {x : Byte} (h : t.leadsTo t.root c x) : c.length + 1 ≤ t.nleaf.val := by
  obtain ⟨m, f, h1, -⟩ := (leadsTo_iff t _ _ _).1 h
  exact ok.path_length h1

end TreeOk

end Sys2Proof.Machine
end

