-- ==== Sys2Proof/Laws/CodeGen.lean ====
section
/-! SUPPORT. What CG_GEN puts into the code table (spec/42_code_gen.md R171 to R177): the path of each leaf, and 0 elsewhere. -/

namespace Sys2Proof.Machine

/-- The walk finds each leaf below a node with the path to it (R172). -/
theorem mem_walk (t : TreeRegs) (nodes : Nat) (k : NodeIdx) (c d : List Bool) (x : Byte) :
    (x, d) ∈ walk t nodes k c ↔ ∃ p, d = c ++ p ∧ p.length < nodes ∧ t.leadsTo k p x := by
  induction nodes generalizing k c with
  | zero => simp [walk]
  | succ nodes ih =>
    rw [walk]
    rcases hk : t.at k with ⟨y, f⟩ | ⟨l, r, f⟩
    · simp only [List.mem_singleton, Prod.mk.injEq]
      constructor
      · rintro ⟨rfl, rfl⟩
        exact ⟨[], by simp, by simp, f, hk⟩
      · rintro ⟨p, rfl, -, hp⟩
        cases p with
        | nil => obtain ⟨g, hg⟩ := hp; rw [hk] at hg; cases hg; simp
        | cons b p => have := hp.1; rw [hk] at this; cases this
    · simp only [List.mem_append, ih]
      constructor
      · rintro (⟨p, rfl, h1, h2⟩ | ⟨p, rfl, h1, h2⟩)
        · exact ⟨false :: p, by simp, by simpa using h1, by rw [hk]; rfl, by rw [hk]; exact h2⟩
        · exact ⟨true :: p, by simp, by simpa using h1, by rw [hk]; rfl, by rw [hk]; exact h2⟩
      · rintro ⟨p, rfl, h1, h2⟩
        cases p with
        | nil => obtain ⟨g, hg⟩ := h2; rw [hk] at hg; cases hg
        | cons b p =>
          have h3 := h2.2
          rw [hk] at h3
          cases b
          · exact .inl ⟨p, by simp, by simpa using h1, h3⟩
          · exact .inr ⟨p, by simp, by simpa using h1, h3⟩

theorem setCode_lenAt (r : CodeRegs) (x y : Byte) (c : List Bool) :
    (r.setCode x c).lenAt y = if x = y then BitVec.ofNat 8 c.length else r.lenAt y := by
  simp only [CodeRegs.lenAt, CodeRegs.setCode, Vector.get_eq_getElem, Vector.getElem_set, ← BitVec.toNat_inj]
  rfl

theorem setCode_bitsAt (r : CodeRegs) (x y : Byte) (c : List Bool) :
    (r.setCode x c).bitsAt y = if x = y then packCode c else r.bitsAt y := by
  simp only [CodeRegs.bitsAt, CodeRegs.setCode, Vector.get_eq_getElem, Vector.getElem_set, ← BitVec.toNat_inj]
  rfl

theorem setCodes_valid (L : List (Byte × List Bool)) (r : CodeRegs) :
    (L.foldl (fun r p => r.setCode p.1 p.2) r).valid = r.valid := by
  induction L generalizing r with
  | nil => rfl
  | cons p L ih => exact ih _

/-- A symbol that no entry names keeps its code. -/
theorem setCodes_other (L : List (Byte × List Bool)) (r : CodeRegs) (x : Byte) (h : ∀ d, (x, d) ∉ L) :
    (L.foldl (fun r p => r.setCode p.1 p.2) r).lenAt x = r.lenAt x ∧
      (L.foldl (fun r p => r.setCode p.1 p.2) r).bitsAt x = r.bitsAt x := by
  induction L generalizing r with
  | nil => exact ⟨rfl, rfl⟩
  | cons p L ih =>
    have hp : p.1 ≠ x := fun e => h p.2 (by rw [← e]; simp)
    have := ih (r.setCode p.1 p.2) (fun d hd => h d (List.mem_cons_of_mem _ hd))
    rw [List.foldl_cons, this.1, this.2, setCode_lenAt, setCode_bitsAt, if_neg hp, if_neg hp]
    exact ⟨rfl, rfl⟩

/-- A symbol whose entries all name one bit string gets it. -/
theorem setCodes_mem (L : List (Byte × List Bool)) (r : CodeRegs) (x : Byte) (c : List Bool) (hc : (x, c) ∈ L)
    (hu : ∀ d, (x, d) ∈ L → d = c) :
    (L.foldl (fun r p => r.setCode p.1 p.2) r).lenAt x = BitVec.ofNat 8 c.length ∧
      (L.foldl (fun r p => r.setCode p.1 p.2) r).bitsAt x = packCode c := by
  induction L generalizing r with
  | nil => simp at hc
  | cons p L ih =>
    by_cases hL : ∃ d, (x, d) ∈ L
    · obtain ⟨d, hd⟩ := hL
      have := hu d (List.mem_cons_of_mem _ hd)
      subst this
      exact ih _ hd (fun e he => hu e (List.mem_cons_of_mem _ he))
    · have hp : p = (x, c) := by
        rcases List.mem_cons.1 hc with rfl | h
        · rfl
        · exact absurd ⟨c, h⟩ hL
      subst hp
      have := setCodes_other L (r.setCode x c) x (fun d hd => hL ⟨d, hd⟩)
      rw [List.foldl_cons, this.1, this.2, setCode_lenAt, setCode_bitsAt, if_pos rfl, if_pos rfl]
      exact ⟨rfl, rfl⟩

/-- Code bit i stands at position i counted from the most significant, every other stored bit is 0 (R41). -/
theorem packCodeFrom_getMsbD (c : List Bool) (i j : Nat) (hi : i + c.length ≤ 256) :
    (packCodeFrom i c).getMsbD j = (decide (i ≤ j) && c.getD (j - i) false) := by
  induction c generalizing i with
  | nil => simp [packCodeFrom, BitVec.getMsbD]
  | cons b c ih =>
    simp only [List.length_cons] at hi
    rw [packCodeFrom, BitVec.getMsbD_or, ih (i + 1) (by omega)]
    have hb : (if b then 1#256 <<< (255 - i) else 0#256).getMsbD j = (b && decide (j = i)) := by
      cases b
      · simp [BitVec.getMsbD]
      · simp only [if_true, Bool.true_and, BitVec.getMsbD, BitVec.getLsbD_shiftLeft, BitVec.getLsbD_one]
        by_cases h : j < 256
        · simp only [h, decide_true, Bool.true_and]
          by_cases hj : j = i
          · subst hj; simp; omega
          · simp [hj]; omega
        · have : j ≠ i := by omega
          simp [h, this]
    rw [hb]
    by_cases h1 : j = i
    · subst h1; simp
    · by_cases h2 : i ≤ j
      · have h3 : i + 1 ≤ j := by omega
        have h4 : j - i = (j - (i + 1)) + 1 := by omega
        rw [h4]
        simp [h1, h2, h3]
      · have h3 : ¬ i + 1 ≤ j := by omega
        simp [h1, h2, h3]

theorem packCode_getMsbD (c : List Bool) (j : Nat) (hc : c.length ≤ 256) :
    (packCode c).getMsbD j = c.getD j false := by
  simp [packCode, packCodeFrom_getMsbD c 0 j (by omega)]

theorem codeOf_eq (r : CodeRegs) (x : Byte) (c : List Bool) (hlen : r.lenAt x = BitVec.ofNat 8 c.length)
    (hbits : r.bitsAt x = packCode c) (hc : c.length < 256) : r.codeOf x = c := by
  have h1 : (r.lenAt x).toNat = c.length := by
    rw [hlen, BitVec.toNat_ofNat]; exact Nat.mod_eq_of_lt (by omega)
  apply List.ext_getElem
  · simp [CodeRegs.codeOf, h1]
  · intro i h2 h3
    simp [CodeRegs.codeOf, CodeRegs.codeBit, hbits, packCode_getMsbD c i (by omega), h3]

@[simp] theorem generatedCodes_lenAt (t : TreeRegs) (x : Byte) :
    (generatedCodes t).lenAt x = (codeEntries t).lenAt x := by simp only [generatedCodes, CodeRegs.lenAt]

@[simp] theorem generatedCodes_bitsAt (t : TreeRegs) (x : Byte) :
    (generatedCodes t).bitsAt x = (codeEntries t).bitsAt x := by simp only [generatedCodes, CodeRegs.bitsAt]

@[simp] theorem generatedCodes_codeOf (t : TreeRegs) (x : Byte) :
    (generatedCodes t).codeOf x = (codeEntries t).codeOf x := by
  have h : (generatedCodes t).codeBit x = (codeEntries t).codeBit x := by
    funext i; rw [CodeRegs.codeBit, CodeRegs.codeBit, generatedCodes_bitsAt]
  rw [CodeRegs.codeOf, CodeRegs.codeOf, generatedCodes_lenAt, h]

@[simp] theorem generatedCodes_valid (t : TreeRegs) : (generatedCodes t).valid = true := by
  simp only [generatedCodes, codeEntries, setCodes_valid]

theorem reset_lenAt (x : Byte) : CodeRegs.lenAt { CodeRegs.reset with valid := true } x = 0#8 := by
  simp [CodeRegs.lenAt, CodeRegs.reset, Vector.get_eq_getElem]

theorem reset_bitsAt (x : Byte) : CodeRegs.bitsAt { CodeRegs.reset with valid := true } x = 0#256 := by
  simp [CodeRegs.bitsAt, CodeRegs.reset, Vector.get_eq_getElem]

/-- The code that a valid arena gives a symbol: "0" for the sole leaf, else the path to its leaf (R171, R173). -/
def TreeRegs.hasCode (t : TreeRegs) (x : Byte) (c : List Bool) : Prop :=
  if (t.at t.root).isLeaf then (∃ f, t.at t.root = .leaf x f) ∧ c = [false] else t.leadsTo t.root c x

theorem mem_leafCodes {t : TreeRegs} (ok : TreeOk t) (x : Byte) (c : List Bool) :
    (x, c) ∈ leafCodes t ↔ t.hasCode x c := by
  unfold leafCodes TreeRegs.hasCode
  rcases h : t.at t.root with ⟨y, f⟩ | ⟨l, r, f⟩
  · simp only [List.mem_singleton, Prod.mk.injEq, Node.isLeaf, if_true, Node.leaf.injEq]
    constructor
    · rintro ⟨rfl, rfl⟩; exact ⟨⟨f, rfl, rfl⟩, rfl⟩
    · rintro ⟨⟨_, rfl, -⟩, rfl⟩; exact ⟨rfl, rfl⟩
  · simp only [Node.isLeaf, mem_walk, List.nil_append]
    constructor
    · rintro ⟨p, rfl, -, hp⟩; simpa using hp
    · intro hp
      have hp : t.leadsTo t.root c x := by simpa using hp
      refine ⟨c, rfl, ?_, hp⟩
      have := ok.leadsTo_length hp
      have := t.nleaf.isLt
      simp only [Config.maxPathNodes]; omega

theorem hasCode_unique {t : TreeRegs} (ok : TreeOk t) {x : Byte} {c d : List Bool} (hc : t.hasCode x c)
    (hd : t.hasCode x d) : c = d := by
  unfold TreeRegs.hasCode at hc hd
  split at hc
  · rename_i h; rw [if_pos h] at hd; rw [hc.2, hd.2]
  · rename_i h; rw [if_neg h] at hd; exact ok.leadsTo_unique hc hd

theorem hasCode_length {t : TreeRegs} (ok : TreeOk t) {x : Byte} {c : List Bool} (hc : t.hasCode x c) :
    1 ≤ c.length ∧ c.length ≤ max 1 (t.nleaf.val - 1) ∧ c.length < 256 := by
  have hn := t.nleaf.isLt
  unfold TreeRegs.hasCode at hc
  split at hc
  · rw [hc.2]; simp
  · rename_i h
    have h1 := ok.leadsTo_length hc
    have h2 : c ≠ [] := by
      rintro rfl
      obtain ⟨f, hf⟩ := hc
      rw [hf] at h; exact h rfl
    have := List.length_pos_iff.2 h2
    omega

/-- CG_GEN's table on a valid arena: each leaf's symbol has its code (R171). -/
theorem generated_code {t : TreeRegs} (ok : TreeOk t) {x : Byte} {c : List Bool} (hc : t.hasCode x c) :
    (generatedCodes t).codeOf x = c ∧ ((generatedCodes t).lenAt x).toNat = c.length ∧
      (generatedCodes t).bitsAt x = packCode c := by
  rw [generatedCodes_bitsAt]
  have hl := hasCode_length ok hc
  have := setCodes_mem (leafCodes t) { CodeRegs.reset with valid := true } x c ((mem_leafCodes ok x c).2 hc)
    (fun d hd => hasCode_unique ok ((mem_leafCodes ok x d).1 hd) hc)
  refine ⟨?_, ?_, this.2⟩
  · rw [generatedCodes_codeOf, codeEntries]; exact codeOf_eq _ x c this.1 this.2 hl.2.2
  · rw [generatedCodes_lenAt, codeEntries, this.1, BitVec.toNat_ofNat]; exact Nat.mod_eq_of_lt hl.2.2

/-- CG_GEN's table on a valid arena: a symbol that no leaf holds has no code (R174). -/
theorem generated_none {t : TreeRegs} (ok : TreeOk t) {x : Byte} (h : ∀ c, ¬ t.hasCode x c) :
    (generatedCodes t).lenAt x = 0#8 ∧ (generatedCodes t).bitsAt x = 0#256 := by
  have := setCodes_other (leafCodes t) { CodeRegs.reset with valid := true } x
    (fun d hd => h d ((mem_leafCodes ok x d).1 hd))
  rw [reset_lenAt, reset_bitsAt] at this
  rw [generatedCodes_lenAt, generatedCodes_bitsAt]
  exact this

/-- A symbol has a code exactly when CODE_LEN is not 0, and its code is then the stored one (R174). -/
theorem hasCode_iff {t : TreeRegs} (ok : TreeOk t) (x : Byte) (c : List Bool) :
    t.hasCode x c ↔ (generatedCodes t).lenAt x ≠ 0#8 ∧ (generatedCodes t).codeOf x = c := by
  constructor
  · intro h
    have h1 := generated_code ok h
    have h2 := hasCode_length ok h
    refine ⟨fun h3 => ?_, h1.1⟩
    rw [h3] at h1
    have := h1.2.1
    simp at this; omega
  · rintro ⟨h1, h2⟩
    by_cases h3 : ∃ d, t.hasCode x d
    · obtain ⟨d, hd⟩ := h3
      have := (generated_code ok hd).1
      rw [← h2, this]; exact hd
    · exact absurd (generated_none ok (fun d hd => h3 ⟨d, hd⟩)).1 h1

/-- A leaf in use has a code (R174). -/
theorem hasCode_of_leaf {t : TreeRegs} (ok : TreeOk t) {k : NodeIdx} {x : Byte} {f : Freq} (hk : k.val ≤ t.root.val)
    (h : t.at k = .leaf x f) : ∃ c, t.hasCode x c := by
  unfold TreeRegs.hasCode
  split
  · rename_i hr
    have h1 := ok.leaf_index le_rfl hr
    have h2 := ok.leaf_index hk (by rw [h]; rfl)
    have h3 := ok.root_eq
    have : k = t.root := by ext; omega
    exact ⟨[false], ⟨f, this ▸ h⟩, rfl⟩
  · exact ok.leadsTo_exists hk h

/-- A symbol with a code stands in a leaf in use (R174). -/
theorem leaf_of_hasCode {t : TreeRegs} (ok : TreeOk t) {x : Byte} {c : List Bool} (h : t.hasCode x c) :
    ∃ k f, k.val < t.nleaf.val ∧ t.at k = .leaf x f := by
  unfold TreeRegs.hasCode at h
  split at h
  · rename_i hr
    obtain ⟨⟨f, hf⟩, -⟩ := h
    exact ⟨t.root, f, ok.leaf_index le_rfl hr, hf⟩
  · obtain ⟨m, f, h1, h2⟩ := (leadsTo_iff t _ _ _).1 h
    exact ⟨m, f, ok.leaf_index (ok.reaches_le le_rfl h1).1 (by rw [h2]; rfl), h2⟩

/-- `longest` is the maximum of the code lengths (R177). -/
theorem longest_spec (r : CodeRegs) :
    (∀ x, (r.lenAt x).toNat ≤ r.longest) ∧ ((∃ x, (r.lenAt x).toNat = r.longest) ∨ r.longest = 0) := by
  have key : ∀ (l : List Byte) (m : Nat),
      m ≤ l.foldl (fun m x => max m (r.lenAt x).toNat) m ∧
      (∀ x ∈ l, (r.lenAt x).toNat ≤ l.foldl (fun m x => max m (r.lenAt x).toNat) m) ∧
      ((∃ x, (r.lenAt x).toNat = l.foldl (fun m x => max m (r.lenAt x).toNat) m) ∨
        l.foldl (fun m x => max m (r.lenAt x).toNat) m = m) := by
    intro l
    induction l with
    | nil => intro m; simp
    | cons a l ih =>
      intro m
      obtain ⟨h1, h2, h3⟩ := ih (max m (r.lenAt a).toNat)
      simp only [List.foldl_cons]
      refine ⟨by omega, ?_, ?_⟩
      · intro x hx
        rcases List.mem_cons.1 hx with rfl | hx
        · omega
        · exact h2 x hx
      · rcases h3 with h3 | h3
        · exact .inl h3
        · rw [h3]
          rcases Nat.le_total m (r.lenAt a).toNat with h | h
          · left; exact ⟨a, by omega⟩
          · right; omega
  exact ⟨fun x => (key allSymbols 0).2.1 x (mem_allSymbols x), (key allSymbols 0).2.2⟩

end Sys2Proof.Machine
end

