-- ==== Sys2Proof/Laws/Csr.lean ====
section
/-! SUPPORT. Where the CSR address map leads, and what a read leaves unspecified (spec/20_memory.md R72 to R75). -/

namespace Sys2Proof.Machine

theorem wordAddr_masked (a : Addr) : wordAddr (a &&& 0xFFFC#16) = wordAddr a := by
  unfold wordAddr
  rw [BitVec.and_assoc, BitVec.and_self]

theorem csrAt_masked (a : Addr) : csrAt (a &&& 0xFFFC#16) = csrAt a := by
  unfold csrAt
  rw [wordAddr_masked]

/-- The word an address reaches: the two low bits are dropped (R72). -/
theorem wordAddr_eq (a : Addr) : wordAddr a = 4 * (a.toNat / 4) := by
  have ha := a.isLt
  unfold wordAddr
  rw [BitVec.toNat_and, show (0xFFFC#16).toNat = 16383 <<< 2 by decide]
  have h : a.toNat = 4 * (a.toNat / 4) + a.toNat % 4 := by omega
  apply Nat.eq_of_testBit_eq
  intro j
  rw [Nat.testBit_and, Nat.testBit_shiftLeft, show 4 * (a.toNat / 4) = (a.toNat >>> 2) <<< 2 by
    rw [Nat.shiftLeft_eq, Nat.shiftRight_eq_div_pow, Nat.mul_comm], Nat.testBit_shiftLeft, Nat.testBit_shiftRight]
  by_cases h2 : j ≥ 2
  · rw [show (16383 : Nat) = 2 ^ 14 - 1 by norm_num, Nat.testBit_two_pow_sub_one, show 2 + (j - 2) = j by omega]
    by_cases h3 : j - 2 < 14
    · simp [h2, h3]
    · have : a.toNat.testBit j = false :=
        Nat.testBit_lt_two_pow (Nat.lt_of_lt_of_le ha (Nat.pow_le_pow_right (by norm_num) (by omega)))
      simp [this]
  · simp [h2]

/-- The word at an aligned address is the address (R72). -/
theorem wordAddr_of_aligned (n : Nat) (h1 : n < 65536) (h2 : n % 4 = 0) : wordAddr (BitVec.ofNat 16 n) = n := by
  rw [wordAddr_eq, BitVec.toNat_ofNat, Nat.mod_eq_of_lt (by omega)]
  omega

theorem csrAt_of_aligned (n : Nat) (h1 : n < 65536) (h2 : n % 4 = 0) : csrAt (BitVec.ofNat 16 n) =
    (if n < 0x400 then csrScalar n
    else if n < 0x800 then .freq (BitVec.ofNat 8 ((n - 0x400) / 4))
    else if n < 0xC00 then .codeLen (BitVec.ofNat 8 ((n - 0x800) / 4))
    else if n < 0x1000 then .reserved
    else if n < 0x3000 then .codeBits (BitVec.ofNat 8 ((n - 0x1000) / 32)) (Fin.ofNat 8 ((n - 0x1000) % 32 / 4))
    else if n < 0x37FC then .nodeInfo (nodeIdx ((n - 0x3000) / 4))
    else if n < 0x4000 then .reserved
    else if n < 0x4FF8 then
      if (n - 0x4000) % 8 = 0 then .nodeFreqLo (nodeIdx ((n - 0x4000) / 8))
      else .nodeFreqHi (nodeIdx ((n - 0x4000) / 8))
    else .reserved) := by
  unfold csrAt
  rw [wordAddr_of_aligned n h1 h2]

/-- The FREQ window (R73). -/
theorem csrAt_freq (x : Byte) : csrAt (BitVec.ofNat 16 (0x400 + 4 * x.toNat)) = .freq x := by
  have hx := x.isLt
  rw [csrAt_of_aligned _ (by omega) (by omega)]
  simp (disch := omega) only [if_pos, if_neg]
  rw [show (0x400 + 4 * x.toNat - 0x400) / 4 = x.toNat by omega, BitVec.ofNat_toNat, BitVec.setWidth_eq]

/-- The CODE_LEN window (R73). -/
theorem csrAt_codeLen (x : Byte) : csrAt (BitVec.ofNat 16 (0x800 + 4 * x.toNat)) = .codeLen x := by
  have hx := x.isLt
  rw [csrAt_of_aligned _ (by omega) (by omega)]
  simp (disch := omega) only [if_pos, if_neg]
  rw [show (0x800 + 4 * x.toNat - 0x800) / 4 = x.toNat by omega, BitVec.ofNat_toNat, BitVec.setWidth_eq]

/-- The CODE_BITS window (R73). -/
theorem csrAt_codeBits (x : Byte) (w : Fin 8) :
    csrAt (BitVec.ofNat 16 (0x1000 + 32 * x.toNat + 4 * w.val)) = .codeBits x w := by
  have hx := x.isLt
  have hw := w.isLt
  rw [csrAt_of_aligned _ (by omega) (by omega)]
  simp (disch := omega) only [if_pos, if_neg]
  rw [show (0x1000 + 32 * x.toNat + 4 * w.val - 0x1000) / 32 = x.toNat by omega,
    show (0x1000 + 32 * x.toNat + 4 * w.val - 0x1000) % 32 / 4 = w.val by omega, BitVec.ofNat_toNat, BitVec.setWidth_eq]
  congr 1
  ext
  exact Nat.mod_eq_of_lt hw

theorem nodeIdx_self (k : NodeIdx) : nodeIdx k.val = k := by ext; exact Nat.mod_eq_of_lt k.isLt

/-- The NODE_INFO window (R73). -/
theorem csrAt_nodeInfo (k : NodeIdx) : csrAt (BitVec.ofNat 16 (0x3000 + 4 * k.val)) = .nodeInfo k := by
  have hk := k.isLt
  rw [csrAt_of_aligned _ (by omega) (by omega)]
  simp (disch := omega) only [if_pos, if_neg]
  rw [show (0x3000 + 4 * k.val - 0x3000) / 4 = k.val by omega,
    nodeIdx_self]

/-- The NODE_FREQ_LO words (R73). -/
theorem csrAt_nodeFreqLo (k : NodeIdx) : csrAt (BitVec.ofNat 16 (0x4000 + 8 * k.val)) = .nodeFreqLo k := by
  have hk := k.isLt
  rw [csrAt_of_aligned _ (by omega) (by omega)]
  simp (disch := omega) only [if_pos, if_neg]
  rw [show (0x4000 + 8 * k.val - 0x4000) / 8 = k.val by omega, nodeIdx_self]

/-- The NODE_FREQ_HI words (R73). -/
theorem csrAt_nodeFreqHi (k : NodeIdx) : csrAt (BitVec.ofNat 16 (0x4004 + 8 * k.val)) = .nodeFreqHi k := by
  have hk := k.isLt
  rw [csrAt_of_aligned _ (by omega) (by omega)]
  simp (disch := omega) only [if_pos, if_neg]
  rw [show (0x4004 + 8 * k.val - 0x4000) / 8 = k.val by omega, nodeIdx_self]

/-- NODE_INFO as a number: bit 31 and the symbol of a leaf, right in [24:16] and left in [8:0] of an internal node (R31). -/
theorem infoWord_eq (n : Node) : n.infoWord =
    match n with
    | .leaf sym _ => BitVec.ofNat 32 (0x80000000 + sym.toNat)
    | .internal l r _ => BitVec.ofNat 32 (r.val * 0x10000 + l.val) := by
  have hleaf : ∀ x : Byte, (1#1 ++ 0#23 ++ x : Word) = BitVec.ofNat 32 (0x80000000 + x.toNat) := by decide +kernel
  cases n with
  | leaf sym f => exact hleaf sym
  | internal l r f =>
    apply BitVec.eq_of_toNat_eq
    have := l.isLt
    have := r.isLt
    simp only [Node.infoWord, BitVec.toNat_append, BitVec.toNat_ofNat, Nat.shiftLeft_eq, Nat.zero_mod, Nat.zero_mul,
      Nat.zero_or, Nat.or_zero]
    rw [Nat.mod_eq_of_lt (a := r.val) (by omega), Nat.mod_eq_of_lt (a := l.val) (by omega),
      show r.val * 2 ^ 7 * 2 ^ 9 = 2 ^ 16 * r.val by ring, ← Nat.two_pow_add_eq_or_of_lt (by omega)]
    omega

@[simp] theorem busyFree_idle (r : CsrReg) (s : State) (h : s.eng = .idle) : busyFree r s = 0#32 := by
  simp [busyFree, h]

/-- A read with no unspecified bit returns the register's value and takes no draw (R74). -/
theorem csrRead_value {a : Addr} {s : State} (h : csrFree (csrAt a) s = 0#32) :
    csrRead a s = { s with host := { s.host with reads := s.host.reads ++ [csrValue (csrAt a) s] } } := by
  unfold csrRead
  simp only [h, if_true]

/-- A read with every bit unspecified returns a fresh draw. -/
theorem csrRead_draw {a : Addr} {s : State} (h : csrFree (csrAt a) s = everyBit) :
    csrRead a s =
      { s with host := { s.host with reads := s.host.reads ++ [Config.freeWord s.draws] }, draws := s.draws + 1 } := by
  unfold csrRead
  have h1 : everyBit ≠ 0#32 := by decide
  have h2 : (csrValue (csrAt a) s &&& ~~~everyBit ||| Config.freeWord s.draws &&& everyBit) = Config.freeWord s.draws := by
    have : everyBit = BitVec.allOnes 32 := by decide
    rw [this, BitVec.and_allOnes, BitVec.not_allOnes, BitVec.and_zero, BitVec.zero_or]
  simp only [h, if_neg h1, h2]

/-- A reserved word reads as what it holds, busy or not (R76, R287). -/
theorem reserved_free {s : State} (h : s.rstN = true) : csrFree .reserved s = 0#32 := by
  have hc : ∀ i, commandRow i .reserved = 0#32 := by intro i; cases i <;> rfl
  have hb : busyFree .reserved s = 0#32 := by
    unfold busyFree
    split
    · rfl
    · split
      · rfl
      · split
        · rfl
        · rw [hc]; split <;> rfl
  rw [csrFree, if_pos h, hb, BitVec.or_zero]; rfl

theorem csrScalar_high (n : Nat) (h : 0x5C ≤ n) : csrScalar n = .reserved := by
  simp (disch := omega) only [csrScalar, if_neg]

/-- The reserved addresses (R73). -/
theorem reserved_at (a : Addr)
    (h : a &&& 0xFFFC#16 = 0x0024#16 ∨ a &&& 0xFFFC#16 = 0x003C#16 ∨ (0x005C#16 ≤ a ∧ a < 0x0400#16) ∨
      (0x0C00#16 ≤ a ∧ a < 0x1000#16) ∨ (0x37FC#16 ≤ a ∧ a < 0x4000#16) ∨ 0x4FF8#16 ≤ a) :
    csrAt a = .reserved := by
  have e1 : ∀ n, n < 65536 → (a &&& 0xFFFC#16 = BitVec.ofNat 16 n ↔ wordAddr a = n) := by
    intro n hn
    unfold wordAddr
    constructor
    · intro h; rw [h, BitVec.toNat_ofNat]; omega
    · intro h; apply BitVec.eq_of_toNat_eq; rw [h, BitVec.toNat_ofNat]; omega
  rw [e1 0x24 (by omega), e1 0x3C (by omega)] at h
  simp only [BitVec.le_def, BitVec.lt_def, BitVec.toNat_ofNat] at h
  have hw := wordAddr_eq a
  have ha := a.isLt
  unfold csrAt
  generalize wordAddr a = n at *
  dsimp only
  have hcase : n = 0x24 ∨ n = 0x3c ∨ (0x5c ≤ n ∧ n < 0x400) ∨ (0xc00 ≤ n ∧ n < 0x1000) ∨ (0x37fc ≤ n ∧ n < 0x4000) ∨
      0x4ff8 ≤ n := by omega
  rcases hcase with rfl | rfl | h | h | h | h
  · rfl
  · rfl
  · rw [if_pos (by omega)]; exact csrScalar_high n h.1
  all_goals simp (disch := omega) only [if_pos, if_neg]

/-- The registers, STATUS apart, that R287 names for TB_BUILD. -/
theorem treeRow_spec (r : CsrReg) (hr : r ≠ .status) :
    (((∃ k, r = .nodeInfo k ∨ r = .nodeFreqLo k ∨ r = .nodeFreqHi k) ∨ r = .nleaf ∨ r = .root ∨ r = .rootFreqLo ∨
        r = .rootFreqHi ∨ r = .maxlen ∨ (∃ x, r = .codeLen x) ∨ ∃ x v, r = .codeBits x v) → treeRow r = everyBit) ∧
      (¬ ((∃ k, r = .nodeInfo k ∨ r = .nodeFreqLo k ∨ r = .nodeFreqHi k) ∨ r = .nleaf ∨ r = .root ∨ r = .rootFreqLo ∨
        r = .rootFreqHi ∨ r = .maxlen ∨ (∃ x, r = .codeLen x) ∨ ∃ x v, r = .codeBits x v) → treeRow r = 0#32) := by
  cases r <;> simp [treeRow] at hr ⊢

/-- The registers, STATUS apart, that R287 names for CG_GEN. -/
theorem codeRow_spec (r : CsrReg) (hr : r ≠ .status) :
    (((∃ x, r = .codeLen x) ∨ (∃ x v, r = .codeBits x v) ∨ r = .maxlen) → codeRow r = everyBit) ∧
      (¬ ((∃ x, r = .codeLen x) ∨ (∃ x v, r = .codeBits x v) ∨ r = .maxlen) → codeRow r = 0#32) := by
  cases r <;> simp [codeRow] at hr ⊢

/-- The registers, STATUS apart, that R287 names for the encoder's commands. -/
theorem encodeRow_spec (r : CsrReg) (hr : r ≠ .status) :
    ((r = .encAcc ∨ r = .encBitcntLo ∨ r = .encBitcntHi ∨ r = .encSymcntLo ∨ r = .encSymcntHi) → encodeRow r = everyBit) ∧
      (¬ (r = .encAcc ∨ r = .encBitcntLo ∨ r = .encBitcntHi ∨ r = .encSymcntLo ∨ r = .encSymcntHi) → encodeRow r = 0#32) := by
  cases r <;> simp [encodeRow] at hr ⊢

/-- The registers, STATUS apart, that R287 names for the decoder's commands. -/
theorem decodeRow_spec (r : CsrReg) (hr : r ≠ .status) :
    ((r = .decRemainLo ∨ r = .decRemainHi ∨ r = .decCursor ∨ r = .decSymcntLo ∨ r = .decSymcntHi) → decodeRow r = everyBit) ∧
      (¬ (r = .decRemainLo ∨ r = .decRemainHi ∨ r = .decCursor ∨ r = .decSymcntLo ∨ r = .decSymcntHi) → decodeRow r = 0#32) := by
  cases r <;> simp [decodeRow] at hr ⊢

/-- STATUS.BUSY and STATUS.DONE are specified at every read, while BUSY too (R287, R88). -/
theorem status_busy_done_specified {s : State} (h : s.rstN = true) :
    (csrFree .status s).getLsbD 0 = false ∧ (csrFree .status s).getLsbD 1 = false := by
  have rows : ∀ i, (commandRow i .status)[0] = false ∧ (commandRow i .status)[1] = false := by
    intro i; cases i <;> simp [commandRow, errorRow, resetRow, treeRow, codeRow, encodeRow, decodeRow]
  simp only [csrFree, h, if_true, staleFree, busyFree]
  split
  · decide
  · split
    · decide
    · split
      · decide
      · split <;> simp [rows, errorRow]

/-- The registers, STATUS apart, that R287 names for SRESET. -/
theorem resetRow_spec (r : CsrReg) (hr : r ≠ .status) :
    ((r ≠ .id ∧ r ≠ .reserved) → resetRow r = everyBit) ∧
      (¬ (r ≠ .id ∧ r ≠ .reserved) → resetRow r = 0#32) := by
  cases r <;> simp [resetRow] at hr ⊢

/-- The registers, STATUS apart, that R287 names for a word rejected or raising an error. -/
theorem errorRow_spec (r : CsrReg) (hr : r ≠ .status) :
    ((r = .errInfo) → errorRow r = everyBit) ∧
      (¬ (r = .errInfo) → errorRow r = 0#32) := by
  cases r <;> simp [errorRow] at hr ⊢

/-- Below 0x0400 only the words at 0x0004, 0x0008, 0x0040 and 0x0044 take a write (R73, R75). -/
theorem csrScalar_writable : ∀ n, n < 0x400 → n = 0x04 ∨ n = 0x08 ∨ n = 0x40 ∨ n = 0x44 ∨
    ((csrScalar n).busyProtected = false ∧ csrScalar n ≠ .ctrl ∧ csrScalar n ≠ .status) := by decide +kernel

/-- A write to a register that is neither CTRL, STATUS, FREQ nor DEC_NBITS stores nothing (R76, R77). -/
theorem csrStore_other {r : CsrReg} (v : Word) (s : State) (h1 : r.busyProtected = false) (h2 : r ≠ .ctrl)
    (h3 : r ≠ .status) : csrStore r v s = s := by
  unfold csrStore
  split
  · exact absurd rfl h2
  · exact absurd rfl h3
  · cases h1
  · cases h1
  · cases h1
  · rfl

/-- A stale entry is unspecified in all its bits, every other register in none (R35, R43). -/
theorem staleFree_spec (r : CsrReg) (s : State) :
    (s.stale r → staleFree r s = everyBit) ∧ (¬ s.stale r → staleFree r s = 0#32) := by
  have node : ∀ k : NodeIdx, (s.tb.valid && decide (k.val + 2 ≤ 2 * s.tb.nleaf.val)) = false ↔
      s.tb.valid = false ∨ 2 * s.tb.nleaf.val < k.val + 2 := by
    intro k; cases s.tb.valid <;> simp
  cases r with
  | nodeInfo k | nodeFreqLo k | nodeFreqHi k =>
    simp only [State.stale, staleFree, ← node]
    cases s.tb.valid && decide (k.val + 2 ≤ 2 * s.tb.nleaf.val) <;> simp
  | codeLen x | codeBits x w => simp only [State.stale, staleFree]; cases s.cg.valid <;> simp
  | _ => simp [State.stale, staleFree]

/-- What the reads return, from the bits the running command leaves unspecified (R287). -/
theorem readsFree_of_busyFree {s : State} {mask : Word} {P : CsrReg → Prop} (hr : s.rstN = true) (hne : mask ≠ 0#32)
    (hm : busyFree .status s = mask)
    (hP : ∀ r, r ≠ .status → (P r → busyFree r s = everyBit) ∧ (¬ P r → busyFree r s = 0#32)) : ReadsFree s mask P := by
  have hor : ∀ v : Word, everyBit ||| v = everyBit := by
    intro v; rw [show everyBit = BitVec.allOnes 32 by decide, BitVec.allOnes_or]
  have hfree : ∀ r, csrFree r s = staleFree r s ||| busyFree r s := fun r => if_pos hr
  constructor
  · intro a ha
    have : csrFree .status s = mask := by rw [hfree, hm]; exact BitVec.zero_or
    simp only [csrRead, ha, this, if_neg hne]
    rfl
  · intro a ha h
    refine csrRead_draw ?_
    rw [hfree]
    rcases h with h | h
    · rw [(hP _ ha).1 h, BitVec.or_comm, hor]
    · rw [(staleFree_spec _ s).1 h, hor]
  · intro a ha h
    refine csrRead_value ?_
    rw [not_or] at h
    rw [hfree, (hP _ ha).2 h.1, (staleFree_spec _ s).2 h.2]
    rfl

/-- The unspecified bits of a command's row joined with the error row, register by register (R287). -/
theorem row_or_error {f : CsrReg → Word} {P : CsrReg → Prop}
    (hf : ∀ r, r ≠ .status → (P r → f r = everyBit) ∧ (¬ P r → f r = 0#32)) (r : CsrReg) (hr : r ≠ .status) :
    ((P r ∨ r = .errInfo) → errorRow r ||| f r = everyBit) ∧ (¬ (P r ∨ r = .errInfo) → errorRow r ||| f r = 0#32) := by
  have hor : ∀ v : Word, everyBit ||| v = everyBit := by
    intro v; rw [show everyBit = BitVec.allOnes 32 by decide, BitVec.allOnes_or]
  constructor
  · rintro (h | h)
    · rw [(hf r hr).1 h, BitVec.or_comm, hor]
    · rw [(errorRow_spec r hr).1 h, hor]
  · intro h
    rw [not_or] at h
    rw [(hf r hr).2 h.1, (errorRow_spec r hr).2 h.2]
    rfl

end Sys2Proof.Machine
end

