-- ==== Sys2Proof/Laws/Decode.lean ====
section
/-! SUPPORT. The fields of an encoded command, and a word put together from its fields (spec/30_encoding.md R101). -/

namespace Sys2Proof

/-- A bit of a word put together from its fields. -/
theorem getLsbD_fields (rsv : BitVec 16) (imm op : Byte) (j : Nat) :
    BitVec.getLsbD (w := 32) (rsv ++ imm ++ op) j =
      if j < 8 then op.getLsbD j else if j < 16 then imm.getLsbD (j - 8) else rsv.getLsbD (j - 16) := by
  have h1 := BitVec.getLsbD_append (x := rsv ++ imm) (y := op) (i := j)
  have h2 := BitVec.getLsbD_append (x := rsv) (y := imm) (i := j - 8)
  refine h1.trans ?_
  rw [h2]
  by_cases h8 : j < 8
  · simp [h8]
  · by_cases h16 : j < 16
    · have : j - 8 < 8 := by omega
      simp [h8, h16, this]
    · have : ¬ j - 8 < 8 := by omega
      have h3 : j - 8 - 8 = j - 16 := by omega
      simp [h8, h16, this, h3]

theorem opOf_append (rsv : BitVec 16) (imm op : Byte) : opOf (rsv ++ imm ++ op) = op := by
  apply BitVec.eq_of_getLsbD_eq
  intro j hj
  rw [opOf, BitVec.getLsbD_extractLsb', getLsbD_fields]
  simp [hj]

theorem immOf_append (rsv : BitVec 16) (imm op : Byte) : immOf (rsv ++ imm ++ op) = imm := by
  apply BitVec.eq_of_getLsbD_eq
  intro j hj
  have h2 : 8 + j < 16 := by omega
  rw [immOf, BitVec.getLsbD_extractLsb', getLsbD_fields]
  simp [hj, h2]

theorem rsvOf_append (rsv : BitVec 16) (imm op : Byte) : rsvOf (rsv ++ imm ++ op) = rsv := by
  apply BitVec.eq_of_getLsbD_eq
  intro j hj
  rw [rsvOf, BitVec.getLsbD_extractLsb', getLsbD_fields]
  simp [hj, show ¬ 16 + j < 8 by omega]

/-- A word is its fields put together (R101). -/
theorem append_fields (w : Word) : rsvOf w ++ immOf w ++ opOf w = w := by
  apply BitVec.eq_of_getLsbD_eq
  intro j hj
  rw [getLsbD_fields]
  simp only [rsvOf, immOf, opOf, BitVec.getLsbD_extractLsb']
  by_cases h1 : j < 8
  · simp [h1]
  · by_cases h2 : j < 16
    · simp [h1, h2, show j - 8 < 8 by omega, show 8 + (j - 8) = j by omega]
    · simp [h1, h2, show j - 16 < 16 by omega, show 16 + (j - 16) = j by omega]

@[simp] theorem opOf_encode (i : Instr) : opOf (encode i) = opcodeOf i := opOf_append _ _ _
@[simp] theorem immOf_encode (i : Instr) : immOf (encode i) = immediateOf i := immOf_append _ _ _
@[simp] theorem rsvOf_encode (i : Instr) : rsvOf (encode i) = 0#16 := rsvOf_append _ _ _

theorem formatN_ok {imm : Byte} {i j : Instr} (h : formatN imm i = .ok j) : imm = 0#8 ∧ j = i := by
  unfold formatN at h
  split at h
  · cases h; exact ⟨‹_›, rfl⟩
  · cases h

/-- The fields of a legal word are those of the command it decodes to (R109). -/
theorem decode_ok_fields {w : Word} {i : Instr} (h : decode w = .ok i) :
    rsvOf w = 0#16 ∧ opOf w = opcodeOf i ∧ immOf w = immediateOf i := by
  unfold decode at h
  split at h
  · rename_i h0
    refine ⟨h0, ?_⟩
    unfold decodeOp at h
    repeat' split at h
    all_goals first
      | (obtain ⟨a, rfl⟩ := formatN_ok h; exact ⟨by assumption, a⟩)
      | (cases h; exact ⟨by assumption, rfl⟩)
      | cases h
  · cases h

/-- The words of the two format-I commands as numbers (R194, R224). -/
theorem encode_encSym : ∀ x : Byte, encode (.encSym x) = x.setWidth 32 <<< 8 ||| 0x00000031#32 := by decide +kernel
theorem encode_decByte : ∀ b : Byte, encode (.decByte b) = b.setWidth 32 <<< 8 ||| 0x00000041#32 := by decide +kernel

end Sys2Proof
end

