-- ==== Sys2Proof/Laws/Encoder.lean ====
section
/-! SUPPORT. What appending code bits does to the packer and to enc_out (spec/43_stream_encoder.md R193, spec/20_memory.md R81). -/

namespace Sys2Proof.Machine

/-- Writing bit 7 - c of a byte makes it the last of the first c + 1 bits (R193). -/
theorem take_setByteBit (v : Byte) (b : Bool) (c : Nat) (hc : c < 8) :
    (bitsMsbFirst (setByteBit v (7 - c) b)).take (c + 1) = (bitsMsbFirst v).take c ++ [b] := by
  interval_cases c <;> cases b <;> simp [bitsMsbFirst, setByteBit]

/-- Writing bit 7 - c keeps the bits below it (R44). -/
theorem setByteBit_low (v : Byte) (b : Bool) (c i : Nat) (hi : i < 7 - c) :
    (setByteBit v (7 - c) b).getLsbD i = v.getLsbD i := by
  have h : decide (i < 8) = true := by simp; omega
  have h' : 7 - c ≠ i := by omega
  cases b <;> simp [setByteBit, h] <;> omega

theorem length_bitsMsbFirst (b : Byte) : (bitsMsbFirst b).length = 8 := rfl

/-- A bit appended is the next bit of the packer (R81, R193). -/
theorem emitBit_bits (b : Bool) (s : State) : (emitBit b s).encBits = s.encBits ++ [b] := by
  have hlt := s.enc.accCnt.isLt
  have ht := take_setByteBit s.enc.acc b s.enc.accCnt.toNat (by omega)
  unfold State.encBits emitBit
  split
  · rename_i h
    simp only [pushEnc_encOut, pushEnc_enc, Stream.all_push, List.flatMap_append, List.flatMap_cons, List.flatMap_nil,
      List.append_nil, BitVec.toNat_ofNat, Nat.zero_mod, List.take_zero, List.append_assoc]
    rw [h, List.take_of_length_le (by rw [length_bitsMsbFirst])] at ht
    rw [ht]
  · rename_i h
    have hn : (s.enc.accCnt + 1#3).toNat = s.enc.accCnt.toNat + 1 := by
      rw [BitVec.toNat_add]; exact Nat.mod_eq_of_lt (by simp; omega)
    simp only [hn, ht, List.append_assoc]

/-- What one appended bit changes besides: the bit counter, ACC and ACC_CNT, and a whole byte pushed at most (R193). -/
theorem emitBit_frame (b : Bool) (s : State) :
    ∃ acc cnt out, emitBit b s =
      { s with enc := { s.enc with acc := acc, accCnt := cnt, bitcnt := s.enc.bitcnt + 1#64 }, encOut := out } ∧
      out.taken = s.encOut.taken ∧
      ((cnt = s.enc.accCnt + 1#3 ∧ s.enc.accCnt ≠ 7#3 ∧ out = s.encOut) ∨
        (cnt = 0#3 ∧ s.enc.accCnt = 7#3 ∧ ∃ v, out = s.encOut.push v)) := by
  unfold emitBit
  split
  · rename_i h
    refine ⟨_, _, _, rfl, rfl, .inr ⟨rfl, BitVec.eq_of_toNat_eq (by simp; omega), _, rfl⟩⟩
  · rename_i h
    refine ⟨_, _, _, rfl, rfl, .inl ⟨rfl, ?_, rfl⟩⟩
    intro hc; rw [hc] at h; exact h rfl

/-- The bits of ACC below the pending ones stay 0 (R44). -/
theorem emitBit_padded (b : Bool) (s : State)
    (h : ∀ i, i < 8 - s.enc.accCnt.toNat → s.enc.acc.getLsbD i = false) :
    ∀ i, i < 8 - (emitBit b s).enc.accCnt.toNat → (emitBit b s).enc.acc.getLsbD i = false := by
  have hlt := s.enc.accCnt.isLt
  intro i hi
  unfold emitBit at hi ⊢
  split
  · simp
  · rename_i h8
    rw [if_neg h8] at hi
    have hn : (s.enc.accCnt + 1#3).toNat = s.enc.accCnt.toNat + 1 := by
      rw [BitVec.toNat_add]; exact Nat.mod_eq_of_lt (by simp; omega)
    simp only [hn] at hi ⊢
    rw [setByteBit_low _ _ _ _ (by omega)]
    exact h i (by omega)

/-- A list of bits appended: the packer's bits, the counter, ACC_CNT, the number of bytes pushed, and nothing else but
ACC and enc_out changed (R193, R194). -/
theorem emitBits_spec (c : List Bool) (s : State) :
    ∃ acc cnt out, emitBits c s =
      { s with enc := { s.enc with acc := acc, accCnt := cnt, bitcnt := s.enc.bitcnt + BitVec.ofNat 64 c.length },
               encOut := out } ∧
      out.taken = s.encOut.taken ∧ (∃ new, out.pending = s.encOut.pending ++ new ∧
        8 * new.length + cnt.toNat = s.enc.accCnt.toNat + c.length) ∧
      (emitBits c s).encBits = s.encBits ++ c := by
  induction c generalizing s with
  | nil => exact ⟨s.enc.acc, s.enc.accCnt, s.encOut, by simp [emitBits], rfl, ⟨[], by simp, by simp⟩, by simp [emitBits]⟩
  | cons b c ih =>
    obtain ⟨acc1, cnt1, out1, e1, t1, h1⟩ := emitBit_frame b s
    obtain ⟨acc2, cnt2, out2, e2, t2, ⟨new, hnew, hlen⟩, hb⟩ := ih (emitBit b s)
    refine ⟨acc2, cnt2, out2, ?_, ?_, ?_, ?_⟩
    · rw [emitBits, e2, e1]
      simp only [List.length_cons]
      have : s.enc.bitcnt + 1#64 + BitVec.ofNat 64 c.length = s.enc.bitcnt + BitVec.ofNat 64 (c.length + 1) := by
        rw [BitVec.ofNat_add, BitVec.add_assoc, BitVec.add_comm (1#64)]
      rw [this]
    · rw [t2, e1]; exact t1
    · have hlt := s.enc.accCnt.isLt
      rw [e1] at hnew hlen
      simp only [List.length_cons]
      rcases h1 with ⟨rfl, h7, rfl⟩ | ⟨rfl, h7, v, rfl⟩
      · refine ⟨new, hnew, ?_⟩
        have h7' : s.enc.accCnt.toNat ≠ 7 := fun h => h7 (BitVec.eq_of_toNat_eq h)
        have hn : (s.enc.accCnt + 1#3).toNat = s.enc.accCnt.toNat + 1 := by
          rw [BitVec.toNat_add]; exact Nat.mod_eq_of_lt (by simp; omega)
        simp only [hn] at hlen
        omega
      · refine ⟨v :: new, by rw [hnew]; simp [Stream.push], ?_⟩
        have h7' : s.enc.accCnt.toNat = 7 := by rw [h7]; rfl
        simp only [BitVec.toNat_ofNat, Nat.zero_mod] at hlen
        simp only [List.length_cons]
        omega
    · rw [emitBits, hb, emitBit_bits]; simp

/-- No byte is pushed exactly where the pending bits and the new ones make less than a byte (R193). -/
theorem emitBits_pushes_nothing (c : List Bool) (s : State) :
    (emitBits c s).encOut = s.encOut ↔ s.enc.accCnt.toNat + c.length < 8 := by
  obtain ⟨acc, cnt, out, e, ht, ⟨new, hp, hl⟩, -⟩ := emitBits_spec c s
  have hc := cnt.isLt
  have hout : out = s.encOut ↔ new = [] := by
    constructor
    · rintro rfl; simpa using hp
    · rintro rfl
      rcases out with ⟨a, b⟩
      simp only [List.append_nil] at ht hp
      rw [ht, hp]
  rw [e, hout, ← List.length_eq_zero_iff]
  omega

theorem emitBits_padded (c : List Bool) (s : State)
    (h : ∀ i, i < 8 - s.enc.accCnt.toNat → s.enc.acc.getLsbD i = false) :
    ∀ i, i < 8 - (emitBits c s).enc.accCnt.toNat → (emitBits c s).enc.acc.getLsbD i = false := by
  induction c generalizing s with
  | nil => exact h
  | cons b c ih => exact ih _ (emitBit_padded b s h)

/-- A command retires with its own effect exactly when the streams it pushed to are drained (R86, R290). -/
theorem drained_cases (s t : State) :
    (drained s t = .next t ∧ (t.encOut = s.encOut ∨ s.host.drainsEnc = true) ∧
        (t.decOut = s.decOut ∨ s.host.drainsDec = true)) ∨
      (drained s t = .fault .encOutUndrained ∧ t.encOut ≠ s.encOut ∧ s.host.drainsEnc = false) ∨
      (drained s t = .fault .decOutUndrained ∧ t.decOut ≠ s.decOut ∧ s.host.drainsDec = false) := by
  unfold drained
  by_cases h1 : t.encOut ≠ s.encOut ∧ s.host.drainsEnc = false
  · rw [if_pos h1]; exact .inr (.inl ⟨rfl, h1⟩)
  · rw [if_neg h1]
    by_cases h2 : t.decOut ≠ s.decOut ∧ s.host.drainsDec = false
    · rw [if_pos h2]; exact .inr (.inr ⟨rfl, h2⟩)
    · rw [if_neg h2]
      refine .inl ⟨rfl, ?_, ?_⟩
      · by_cases h : t.encOut = s.encOut
        · exact .inl h
        · right; by_contra hc; exact h1 ⟨h, by simpa using hc⟩
      · by_cases h : t.decOut = s.decOut
        · exact .inl h
        · right; by_contra hc; exact h2 ⟨h, by simpa using hc⟩

theorem drained_next {s t : State} (he : t.encOut = s.encOut ∨ s.host.drainsEnc = true)
    (hd : t.decOut = s.decOut ∨ s.host.drainsDec = true) : drained s t = .next t := by
  rcases drained_cases s t with ⟨h, -⟩ | ⟨-, h, h'⟩ | ⟨-, h, h'⟩
  · exact h
  · rcases he with he | he
    · exact absurd he h
    · rw [he] at h'; cases h'
  · rcases hd with hd | hd
    · exact absurd hd h
    · rw [hd] at h'; cases h'

/-- A command stops exactly where it pushed to a stream the host does not drain (R86, R290). -/
theorem drained_fault {s t : State} (ho : t.encOut = s.encOut ∨ t.decOut = s.decOut) (r : Fault) :
    drained s t = .fault r ↔
      (r = .encOutUndrained ∧ t.encOut ≠ s.encOut ∧ s.host.drainsEnc = false) ∨
        (r = .decOutUndrained ∧ t.decOut ≠ s.decOut ∧ s.host.drainsDec = false) := by
  unfold drained
  split
  · rename_i h
    have : t.decOut = s.decOut := ho.resolve_left h.1
    constructor
    · intro e; cases e; exact .inl ⟨rfl, h⟩
    · rintro (⟨rfl, -⟩ | ⟨-, a, -⟩)
      · rfl
      · exact absurd this a
  · rename_i h
    split
    · rename_i h'
      have : t.encOut = s.encOut := ho.resolve_right h'.1
      constructor
      · intro e; cases e; exact .inr ⟨rfl, h'⟩
      · rintro (⟨-, a, -⟩ | ⟨rfl, -⟩)
        · exact absurd this a
        · rfl
    · rename_i h'
      constructor
      · intro e; cases e
      · rintro (⟨-, a⟩ | ⟨-, a⟩)
        · exact absurd a h
        · exact absurd a h'

/-- The drain duty never refuses. -/
theorem drained_answers (s t : State) : (∀ r, drained s t ≠ .fault r) → ∃ u, drained s t = .next u := by
  intro h
  rcases drained_cases s t with ⟨e, -⟩ | ⟨e, -⟩ | ⟨e, -⟩
  · exact ⟨t, e⟩
  · exact absurd e (h _)
  · exact absurd e (h _)

theorem drained_eq_next {s t u : State} (h : drained s t = .next u) : u = t := by
  rcases drained_cases s t with ⟨h1, -⟩ | ⟨h1, -⟩ | ⟨h1, -⟩ <;> rw [h1] at h <;> cases h
  rfl

theorem codeOf_length (r : CodeRegs) (x : Byte) : (r.codeOf x).length = (r.lenAt x).toNat := by simp [CodeRegs.codeOf]

/-- A partial byte is its pending bits and then zeros (R44, R82). -/
theorem padded_bits : ∀ c, c < 8 → ∀ acc : Byte, (∀ i, i < 8 - c → acc.getLsbD i = false) →
    bitsMsbFirst acc = (bitsMsbFirst acc).take c ++ List.replicate (8 - c) false := by decide +kernel

end Sys2Proof.Machine
end

