-- ==== Sys2Proof/Laws/Decoder.lean ====
section
/-! SUPPORT. What walking bits does to the cursor, to the counters and to dec_out (spec/44_stream_decoder.md R222 to R226). -/

namespace Sys2Proof.Machine

/-- One walked bit changes the cursor, and pushes and counts one symbol at most (R222). -/
theorem decBit_frame (b : Bool) (s : State) :
    ∃ cur cnt out, decBit b s = { s with dec := { s.dec with cursor := cur, symcnt := cnt }, decOut := out } ∧
      ((cnt = s.dec.symcnt ∧ out = s.decOut) ∨ ∃ x, cnt = s.dec.symcnt + 1#64 ∧ out = s.decOut.push x) := by
  unfold decBit
  split
  · rename_i x f h
    exact ⟨s.dec.cursor, _, _, rfl, .inr ⟨x, rfl, rfl⟩⟩
  · dsimp only
    split
    · rename_i x f h
      exact ⟨s.tb.root, _, _, rfl, .inr ⟨x, rfl, rfl⟩⟩
    · exact ⟨_, s.dec.symcnt, s.decOut, rfl, .inl ⟨rfl, rfl⟩⟩

/-- The bits walked of a list: as many as DEC_REMAIN allows (R223, R226). -/
theorem walkBits_eq_foldl (bs : List Bool) (s : State) :
    walkBits bs s = (bs.take s.dec.remain.toNat).foldl
      (fun s b => decBit b { s with dec := { s.dec with remain := s.dec.remain - 1#64 } }) s := by
  induction bs generalizing s with
  | nil => simp [walkBits]
  | cons b bs ih =>
    rw [walkBits]
    split
    · rename_i h; simp [h]
    · rename_i h
      have hpos : 0 < s.dec.remain.toNat := by
        rcases Nat.eq_zero_or_pos s.dec.remain.toNat with h0 | h0
        · exact absurd (BitVec.eq_of_toNat_eq (by simpa using h0)) h
        · exact h0
      obtain ⟨cur, cnt, out, e, -⟩ := decBit_frame b { s with dec := { s.dec with remain := s.dec.remain - 1#64 } }
      have hr : (decBit b { s with dec := { s.dec with remain := s.dec.remain - 1#64 } }).dec.remain.toNat
          = s.dec.remain.toNat - 1 := by
        rw [e, BitVec.toNat_sub]
        have := s.dec.remain.isLt
        simp only [BitVec.toNat_ofNat]; omega
      rw [ih, hr]
      conv_rhs => rw [show s.dec.remain.toNat = (s.dec.remain.toNat - 1) + 1 by omega, List.take_succ_cons, List.foldl_cons]

/-- DEC_BYTE's walk (R224). -/
theorem walkedBy_eq (s : State) (b : Byte) : s.walkedBy b = walkBits (bitsMsbFirst b) s :=
  (walkBits_eq_foldl _ s).symm

/-- Walking a list of bits touches only DEC_REMAIN, DEC_CURSOR, DEC_SYMCNT and dec_out (R224). -/
theorem walkBits_frame (bs : List Bool) (s : State) :
    ∃ rem cur cnt out, walkBits bs s =
        { s with dec := { s.dec with remain := rem, cursor := cur, symcnt := cnt }, decOut := out } ∧
      rem.toNat = s.dec.remain.toNat - bs.length ∧ out.taken = s.decOut.taken ∧
      ∃ new, out.pending = s.decOut.pending ++ new ∧ cnt = s.dec.symcnt + BitVec.ofNat 64 new.length ∧
        new.length ≤ min bs.length s.dec.remain.toNat := by
  induction bs generalizing s with
  | nil => exact ⟨s.dec.remain, s.dec.cursor, s.dec.symcnt, s.decOut, rfl, rfl, rfl, [], by simp, by simp, by simp⟩
  | cons b bs ih =>
    rw [walkBits]
    split
    · rename_i h
      exact ⟨s.dec.remain, s.dec.cursor, s.dec.symcnt, s.decOut, rfl, by simp [h], rfl, [], by simp, by simp, by simp⟩
    · rename_i h
      have hpos : s.dec.remain.toNat ≠ 0 := fun h0 => h (BitVec.eq_of_toNat_eq (by simpa using h0))
      obtain ⟨cur, cnt, out, e, hcase⟩ := decBit_frame b { s with dec := { s.dec with remain := s.dec.remain - 1#64 } }
      obtain ⟨rem2, cur2, cnt2, out2, e2, hrem, ht, new, hp, hc, hl⟩ :=
        ih (decBit b { s with dec := { s.dec with remain := s.dec.remain - 1#64 } })
      have hsub : (s.dec.remain - 1#64).toNat = s.dec.remain.toNat - 1 := by
        rw [BitVec.toNat_sub]
        have := s.dec.remain.isLt
        simp only [BitVec.toNat_ofNat]; omega
      rw [e] at hrem ht hp hc hl
      simp only [hsub] at hrem hl
      refine ⟨rem2, cur2, cnt2, out2, ?_, ?_, ?_, ?_⟩
      · rw [e2, e]
      · rw [hrem, List.length_cons]; omega
      · rcases hcase with ⟨-, rfl⟩ | ⟨x, -, rfl⟩ <;> exact ht
      · rcases hcase with ⟨rfl, rfl⟩ | ⟨x, rfl, rfl⟩
        · exact ⟨new, hp, hc, by simp; omega⟩
        · refine ⟨x :: new, by rw [hp]; simp [Stream.push], ?_, by simp; omega⟩
          rw [hc, List.length_cons, BitVec.ofNat_add, BitVec.add_assoc, BitVec.add_comm (1#64)]

/-- A walk that pushed nothing left dec_out as it was. -/
theorem walkBits_decOut (bs : List Bool) (s : State) :
    (walkBits bs s).decOut = s.decOut ↔ (walkBits bs s).decOut.pending = s.decOut.pending := by
  obtain ⟨_, _, _, out, e, -, ht, -⟩ := walkBits_frame bs s
  rw [e]
  constructor
  · intro h; exact congrArg Stream.pending h
  · intro h
    rcases out with ⟨a, b⟩
    simp only at h ht
    rw [h, ht]

/-- The cursor stays on the tree: it is ROOT or an internal node in use (R222). -/
theorem decBit_cursor (b : Bool) (s : State) (ok : TreeOk s.tb) (h : CursorOk s) : CursorOk (decBit b s) := by
  unfold decBit
  rcases hr : s.tb.at s.tb.root with ⟨x, f⟩ | ⟨l, r, f⟩
  · simp only
    exact h
  · have hcur : (s.tb.at s.dec.cursor).isLeaf = false ∧ s.dec.cursor.val ≤ s.tb.root.val := by
      rcases h with h | ⟨h1, h2⟩
      · rw [h, hr]; exact ⟨rfl, le_rfl⟩
      · have h3 := ok.root_eq
        have h4 := ok.nleaf_pos
        have := (ok.internal_of_ge s.dec.cursor.val (by omega) h1).1
        rw [nodeNo_val] at this
        exact ⟨this, by omega⟩
    have hlt := ok.child_lt hcur.2 hcur.1 b
    simp only
    rcases hk : s.tb.at ((s.tb.at s.dec.cursor).child b) with ⟨x, f'⟩ | ⟨l', r', f'⟩
    · exact .inl rfl
    · refine .inr ⟨?_, ?_⟩
      · exact ok.internal_index (by rw [hk]; rfl)
      · show ((s.tb.at s.dec.cursor).child b).val < s.tb.root.val
        omega

theorem walkBits_cursor (bs : List Bool) (s : State) (ok : TreeOk s.tb) (h : CursorOk s) : CursorOk (walkBits bs s) := by
  induction bs generalizing s with
  | nil => exact h
  | cons b bs ih =>
    rw [walkBits]
    split
    · exact h
    · obtain ⟨cur, cnt, out, e, -⟩ := decBit_frame b { s with dec := { s.dec with remain := s.dec.remain - 1#64 } }
      refine ih _ ?_ (decBit_cursor b _ ok h)
      rw [e]; exact ok

theorem walkBits_zero (bs : List Bool) (s : State) (h : s.dec.remain = 0#64) : walkBits bs s = s := by
  cases bs with
  | nil => rfl
  | cons b bs => rw [walkBits, if_pos h]

/-- Walking two lists of bits one after the other is walking them together (R224). -/
theorem walkBits_append (a b : List Bool) (s : State) : walkBits (a ++ b) s = walkBits b (walkBits a s) := by
  induction a generalizing s with
  | nil => rfl
  | cons x a ih =>
    rw [List.cons_append, walkBits, walkBits]
    split
    · rename_i h; rw [walkBits_zero _ _ h]
    · exact ih _

end Sys2Proof.Machine
end

