-- ==== Sys2Proof/Laws/Depth.lean ====
section
/-! SUPPORT. The order of the frequencies in a built tree, and the depths of its nodes (spec/41_tree_builder.md R153 to R156,
R162). -/

namespace Sys2Proof.Machine

/-- The frequency of node `k` of a build, as a number. -/
def treeFreq (s : State) (k : Nat) : Nat := ((builtTree s).nodeNo k).freq.toNat

section
variable {s : State} (h : s.presentSymbols ≠ [])
include h

/-- A child of internal node `k` comes before it, in the order of frequency and index (R155). -/
theorem child_before {k : NodeIdx} (h1 : s.presentSymbols.length ≤ k.val) (h2 : k.val + 1 < 2 * s.presentSymbols.length)
    (b : Bool) :
    (((builtTree s).at k).child b).val < k.val ∧ treeFreq s (((builtTree s).at k).child b).val ≤ treeFreq s k.val := by
  obtain ⟨l, r, f, e, a, b', -, -, g⟩ := builtTree_internal s h k.val h1 h2
  have ek : (builtTree s).at k = .internal l r f := by rw [← nodeNo_val]; exact e
  have hf : treeFreq s k.val = f.toNat := by rw [treeFreq, e]; rfl
  rw [ek, hf, g]
  cases b
  · refine ⟨a.1, ?_⟩
    show treeFreq s l.val ≤ _
    rw [treeFreq, nodeNo_val]; omega
  · refine ⟨b'.1, ?_⟩
    show treeFreq s r.val ≤ _
    rw [treeFreq, nodeNo_val]; omega

/-- Internal nodes are made in the order of their frequencies (R153, R154). -/
theorem freq_step {k : Nat} (h1 : s.presentSymbols.length ≤ k) (h2 : k + 2 < 2 * s.presentSymbols.length) :
    treeFreq s k ≤ treeFreq s (k + 1) := by
  have hn := builtTree_nleaf s
  obtain ⟨l, r, f, e, -, -, hlr, hmin, g⟩ := builtTree_internal s h k h1 (by omega)
  obtain ⟨l', r', f', e', a', b', hlr', hmin', g'⟩ := builtTree_internal s h (k + 1) (by omega) (by omega)
  have hf : treeFreq s k = treeFreq s l.val + treeFreq s r.val := by
    rw [treeFreq, e, treeFreq, treeFreq, nodeNo_val, nodeNo_val]; exact g
  have hf' : treeFreq s (k + 1) = treeFreq s l'.val + treeFreq s r'.val := by
    rw [treeFreq, e', treeFreq, treeFreq, nodeNo_val, nodeNo_val]; exact g'
  have hlr0 : treeFreq s l.val ≤ treeFreq s r.val := by
    rcases hlr with c | c <;> simp only [treeFreq] <;> omega
  -- a node live at k + 1 is k itself, or was live at k and not taken there
  have key : ∀ m, (builtTree s).liveAt (k + 1) m → m = k ∨ treeFreq s r.val ≤ treeFreq s m := by
    rintro m ⟨m1, m2⟩
    by_cases hmk : m = k
    · exact .inl hmk
    · right
      have hlive : (builtTree s).liveAt k m := ⟨by omega, fun j j1 j2 => m2 j j1 (by omega)⟩
      have := m2 k (by omega) (by omega)
      rw [e] at this
      rcases hmin m hlive with rfl | rfl | hc
      · exact absurd rfl this.1
      · exact absurd rfl this.2
      · rcases hc with c | c <;> simp only [treeFreq] <;> omega
  have hne : l'.val ≠ r'.val := by rcases hlr' with c | c <;> intro q <;> rw [q] at c <;> omega
  rcases key _ a' with p | p <;> rcases key _ b' with q | q
  · omega
  · rw [hf', p]; omega
  · rw [hf', q]; omega
  · omega

theorem freq_mono {j k : Nat} (h1 : s.presentSymbols.length ≤ j) (hjk : j ≤ k)
    (h2 : k + 1 < 2 * s.presentSymbols.length) : treeFreq s j ≤ treeFreq s k := by
  induction k, hjk using Nat.le_induction with
  | base => exact le_rfl
  | succ k hk ih => exact Nat.le_trans (ih (by omega)) (freq_step h (by omega) (by omega))

/-- Of two nodes, the one with the smaller key gets the earlier parent, or the same (R153, R154). -/
theorem parent_mono {p q : NodeIdx} {b d : Bool} (hp1 : s.presentSymbols.length ≤ p.val)
    (hp2 : p.val + 1 < 2 * s.presentSymbols.length) (hq1 : s.presentSymbols.length ≤ q.val)
    (hq2 : q.val + 1 < 2 * s.presentSymbols.length)
    (hlt : (builtTree s).keyLt (((builtTree s).at p).child b).val (((builtTree s).at q).child d).val) :
    p.val ≤ q.val := by
  have hn := builtTree_nleaf s
  by_contra hc
  have ha := child_before h hp1 hp2 b
  have hb := child_before h hq1 hq2 d
  have hq3 := freq_mono h hq1 (Nat.le_refl q.val) hq2
  obtain ⟨l, r, f, e, -, -, hlr, hmin, g⟩ := builtTree_internal s h q.val hq1 hq2
  have eq : (builtTree s).at q = .internal l r f := by rw [← nodeNo_val]; exact e
  -- the child of p existed and was live when q was made
  have hlive : (builtTree s).liveAt q.val (((builtTree s).at p).child b).val := by
    constructor
    · by_contra hge
      have hm : treeFreq s q.val ≤ treeFreq s (((builtTree s).at p).child b).val :=
        freq_mono h hq1 (by omega) (by omega)
      rcases hlt with c | c <;> simp only [treeFreq] at hm hb <;> omega
    · intro j j1 j2
      rw [hn] at j1
      have ok := builtTree_ok s h
      have hr := builtTree_root s h
      have hjlt : j < 511 := by have := presentSymbols_length_le s; omega
      have ej : (builtTree s).nodeNo j = (builtTree s).at ⟨j, hjlt⟩ := by
        rw [← nodeNo_val]
      have intl : ∀ k : NodeIdx, s.presentSymbols.length ≤ k.val → k.val + 1 < 2 * s.presentSymbols.length →
          ((builtTree s).at k).isLeaf = false := by
        intro k k1 k2
        have := (ok.internal_of_ge k.val (by omega) (by omega)).1
        rwa [nodeNo_val] at this
      rw [ej]
      constructor
      · intro hx
        have := (ok.parent_unique (p := ⟨j, hjlt⟩) (q := p) (b := false) (d := b) (by simp; omega) (by omega)
          (intl _ (by simpa using j1) (by simp; omega)) (intl _ hp1 hp2) (Fin.ext hx)).1
        rw [← this] at hc; simp at hc; omega
      · intro hx
        have := (ok.parent_unique (p := ⟨j, hjlt⟩) (q := p) (b := true) (d := b) (by simp; omega) (by omega)
          (intl _ (by simpa using j1) (by simp; omega)) (intl _ hp1 hp2) (Fin.ext hx)).1
        rw [← this] at hc; simp at hc; omega
  have hkey : ∀ m, m = l.val ∨ m = r.val → m = r.val ∨ (builtTree s).keyLt m r.val := by
    rintro m (rfl | rfl)
    · exact .inr hlr
    · exact .inl rfl
  have hd : (((builtTree s).at q).child d).val = l.val ∨ (((builtTree s).at q).child d).val = r.val := by
    rw [eq]; cases d
    · exact .inl rfl
    · exact .inr rfl
  have hnot : (((builtTree s).at p).child b) ≠ (((builtTree s).at q).child false) ∧
      (((builtTree s).at p).child b) ≠ (((builtTree s).at q).child true) := by
    have ok := builtTree_ok s h
    have hr := builtTree_root s h
    have intl : ∀ k : NodeIdx, s.presentSymbols.length ≤ k.val → k.val + 1 < 2 * s.presentSymbols.length →
        ((builtTree s).at k).isLeaf = false := by
      intro k k1 k2
      have := (ok.internal_of_ge k.val (by omega) (by omega)).1
      rwa [nodeNo_val] at this
    constructor <;> intro hx <;>
      · have := (ok.parent_unique (p := p) (q := q) (by omega) (by omega) (intl _ hp1 hp2) (intl _ hq1 hq2) hx).1
        rw [this] at hc; omega
  rw [eq] at hnot
  rcases hmin _ hlive with hx | hx | hx
  · exact hnot.1 (Fin.ext hx)
  · exact hnot.2 (Fin.ext hx)
  · rcases hkey _ hd with hy | hy
    · rw [hy] at hlt
      rcases hlt with c | c <;> rcases hx with c' | c' <;> omega
    · rcases hlt with c | c <;> rcases hx with c' | c' <;> rcases hy with c'' | c'' <;> omega

/-- A node with a larger key lies no deeper (R162). -/
theorem depth_le {a b : NodeIdx} (c d : List Bool) (hlt : (builtTree s).keyLt b.val a.val ∨ a = b)
    (hc : (builtTree s).reaches (builtTree s).root c a) (hd : (builtTree s).reaches (builtTree s).root d b) :
    c.length ≤ d.length := by
  have ok := builtTree_ok s h
  have hr := builtTree_root s h
  have hpos : 0 < s.presentSymbols.length := List.length_pos_iff.2 h
  induction d using List.reverseRecOn generalizing a b c with
  | nil =>
    cases hd
    rcases hlt with hlt | rfl
    · induction c using List.reverseRecOn with
      | nil => simp
      | append_singleton c x _ =>
        obtain ⟨p, h1, h2, rfl⟩ := (reaches_append _ _ _ _ _).1 hc
        have hp := (ok.reaches_le le_rfl h1).1
        have hi := ok.internal_index h2
        rw [builtTree_nleaf] at hi
        have h3 := child_before h hi (by omega) x
        have h4 := freq_mono h hi hp (by omega)
        rcases hlt with c | c <;> simp only [treeFreq] at h3 h4 <;> omega
    · rw [ok.path_unique c [] hc rfl]
  | append_singleton d y ih =>
    obtain ⟨q, g1, g2, rfl⟩ := (reaches_append _ _ _ _ _).1 hd
    have hq := (ok.reaches_le le_rfl g1).1
    have hqi := ok.internal_index g2
    rw [builtTree_nleaf] at hqi
    rcases List.eq_nil_or_concat c with rfl | ⟨c', x, rfl⟩
    · simp
    · rw [List.concat_eq_append] at hc
      obtain ⟨p, h1, h2, rfl⟩ := (reaches_append _ _ _ _ _).1 hc
      have hp := (ok.reaches_le le_rfl h1).1
      have hpi := ok.internal_index h2
      rw [builtTree_nleaf] at hpi
      have key : (builtTree s).keyLt q.val p.val ∨ p = q := by
        rcases hlt with hlt | hlt
        · have h3 := parent_mono h hqi (by omega) hpi (by omega) hlt
          have h4 := freq_mono h hqi h3 (by omega)
          by_cases e : p = q
          · exact .inr e
          · left
            have : p.val ≠ q.val := fun e' => e (Fin.ext e')
            unfold TreeRegs.keyLt
            simp only [treeFreq] at h4; omega
        · exact .inr (ok.parent_unique hp hq h2 g2 hlt).1
      have := ih c' key h1 g1
      simp; omega

end

end Sys2Proof.Machine
end

