-- ==== Sys2Proof/Laws/PerInstr.lean ====
section
/-! SUPPORT. A statement for each command as syntax (LAWS.json): the fields of its word are those R101 and R105 give it. -/

namespace Sys2Proof.Laws.WordFields

/-- The word of a command has RSV 0, its own opcode in OP, its operand or 0 in IMM8, and the command is well formed
(R101, R105). -/
def Statement (i : Instr) : Prop :=
  rsvOf (encode i) = 0#16 ∧ opOf (encode i) = opcodeOf i ∧ immOf (encode i) = i.operand.getD 0#8 ∧ i.wellFormed = true

theorem nop : Statement .nop := ⟨by simp, by simp, by simp [immediateOf, Instr.operand], by rfl⟩
theorem sreset : Statement .sreset := ⟨by simp, by simp, by simp [immediateOf, Instr.operand], by rfl⟩
theorem errClear : Statement .errClear := ⟨by simp, by simp, by simp [immediateOf, Instr.operand], by rfl⟩
theorem tbBuild : Statement .tbBuild := ⟨by simp, by simp, by simp [immediateOf, Instr.operand], by rfl⟩
theorem cgGen : Statement .cgGen := ⟨by simp, by simp, by simp [immediateOf, Instr.operand], by rfl⟩
theorem encBegin : Statement .encBegin := ⟨by simp, by simp, by simp [immediateOf, Instr.operand], by rfl⟩
theorem encSym (x : Byte) : Statement (.encSym x) :=
  ⟨by simp, by simp, by simp [immediateOf, Instr.operand], by simp [Instr.wellFormed, Instr.operand, operandFits, x.isLt]⟩
theorem encFlush : Statement .encFlush := ⟨by simp, by simp, by simp [immediateOf, Instr.operand], by rfl⟩
theorem decBegin : Statement .decBegin := ⟨by simp, by simp, by simp [immediateOf, Instr.operand], by rfl⟩
theorem decByte (b : Byte) : Statement (.decByte b) :=
  ⟨by simp, by simp, by simp [immediateOf, Instr.operand], by simp [Instr.wellFormed, Instr.operand, operandFits, b.isLt]⟩
theorem decEnd : Statement .decEnd := ⟨by simp, by simp, by simp [immediateOf, Instr.operand], by rfl⟩

end Sys2Proof.Laws.WordFields
end

