-- ==== Sys2Proof/Laws/Step.lean ====
section
/-! SUPPORT. What a command, a turn of the engine and a step can do, said once (spec/40_control.md R130 to R135,
spec/00_scope.md R13). -/

namespace Sys2Proof.Machine

/-- What every command but SRESET leaves alone: the held word, the host's side, CTRL, DONE, BUSY_WR, FREQ, DEC_NBITS, and the
bytes already pushed. -/
structure CommandFrame (s t : State) : Prop where
  eng : t.eng = s.eng
  rstN : t.rstN = s.rstN
  host : t.host = s.host
  draws : t.draws = s.draws
  irqEnErr : t.ctl.irqEnErr = s.ctl.irqEnErr
  irqEnDone : t.ctl.irqEnDone = s.ctl.irqEnDone
  done : t.ctl.done = s.ctl.done
  busyWr : t.ctl.busyWr = s.ctl.busyWr
  freq : t.freq = s.freq
  nbits : t.dec.nbits = s.dec.nbits
  encTaken : t.encOut.taken = s.encOut.taken
  decTaken : t.decOut.taken = s.decOut.taken
  encPushed : s.encOut.pending <+: t.encOut.pending
  decPushed : s.decOut.pending <+: t.decOut.pending

theorem CommandFrame.raise {s t : State} (h : CommandFrame s t) (e : ErrCode) (w : Word) :
    CommandFrame s (raise e w t) := by
  cases h; constructor <;> simp_all

theorem CommandFrame.refl (s : State) : CommandFrame s s := by constructor <;> simp

/-- Every command but SRESET keeps the frame. -/
theorem exec_frame {i : Instr} {s t : State} (h : exec i s = .next t) : i = .sreset ∨ CommandFrame s t := by
  cases i with
  | nop => cases h; exact .inr (.refl s)
  | sreset => exact .inl rfl
  | errClear => cases h; exact .inr (by constructor <;> simp)
  | tbBuild =>
    right; simp only [exec, execTbBuild] at h
    split at h
    · cases h; exact (CommandFrame.refl s).raise _ _
    · split at h
      · cases h; exact CommandFrame.raise (by constructor <;> simp) _ _
      · cases h; constructor <;> simp
  | cgGen =>
    right; simp only [exec, execCgGen] at h
    split at h
    · cases h; exact (CommandFrame.refl s).raise _ _
    · cases h; constructor <;> simp
  | encBegin =>
    right; simp only [exec, execEncBegin] at h
    split at h
    · cases h; exact (CommandFrame.refl s).raise _ _
    · cases h; constructor <;> simp
  | encSym x =>
    right; simp only [exec, execEncSym] at h
    split at h
    · cases h; exact (CommandFrame.refl s).raise _ _
    · split at h
      · cases h; exact CommandFrame.raise (by constructor <;> simp) _ _
      · obtain ⟨acc, cnt, out, h1, h2, ⟨new, h3, -⟩, -⟩ := emitBits_spec (s.cg.codeOf x) s
        rw [drained_eq_next h, h1]
        constructor <;> simp_all
  | encFlush =>
    right; simp only [exec, execEncFlush] at h
    split at h
    · cases h; exact (CommandFrame.refl s).raise _ _
    · rw [drained_eq_next h]
      split <;> constructor <;> simp [Stream.push]
  | decBegin =>
    right; simp only [exec, execDecBegin] at h
    split at h
    · cases h; exact (CommandFrame.refl s).raise _ _
    · cases h; constructor <;> simp
  | decByte b =>
    right; simp only [exec, execDecByte] at h
    split at h
    · cases h; exact (CommandFrame.refl s).raise _ _
    · rw [drained_eq_next h]
      obtain ⟨rem, cur, cnt, out, h1, -, h2, new, h3, -⟩ := walkBits_frame (bitsMsbFirst b) s
      rw [h1]
      constructor <;> simp_all
  | decEnd =>
    right; simp only [exec, execDecEnd] at h
    split at h
    · cases h; exact (CommandFrame.refl s).raise _ _
    · split at h
      · cases h; exact CommandFrame.raise (by constructor <;> simp) _ _
      · split at h
        · cases h; exact CommandFrame.raise (by constructor <;> simp) _ _
        · cases h; constructor <;> simp

/-- The tree and the code table are written by SRESET, TB_BUILD and CG_GEN alone, and by the last two only while no encode
and no decode is active (R132). -/
theorem exec_tables {i : Instr} {s t : State} (h : exec i s = .next t) :
    i = .sreset ∨ ((i = .tbBuild ∨ i = .cgGen) ∧ s.enc.active = false ∧ s.dec.active = false) ∨
      (t.tb = s.tb ∧ t.cg = s.cg) := by
  cases i with
  | nop => cases h; exact .inr (.inr ⟨rfl, rfl⟩)
  | sreset => exact .inl rfl
  | errClear => cases h; exact .inr (.inr ⟨rfl, rfl⟩)
  | tbBuild =>
    simp only [exec, execTbBuild] at h
    split at h
    · cases h; exact .inr (.inr ⟨rfl, rfl⟩)
    · rename_i hs
      simp only [sequenceFails, Bool.or_eq_true, not_or, Bool.not_eq_true] at hs
      exact .inr (.inl ⟨.inl rfl, hs⟩)
  | cgGen =>
    simp only [exec, execCgGen] at h
    split at h
    · cases h; exact .inr (.inr ⟨rfl, rfl⟩)
    · rename_i hs
      simp only [sequenceFails, Bool.or_eq_true, not_or, Bool.not_eq_true] at hs
      exact .inr (.inl ⟨.inr rfl, hs.1.2, hs.2⟩)
  | encBegin =>
    simp only [exec, execEncBegin] at h
    split at h <;> cases h <;> exact .inr (.inr ⟨rfl, rfl⟩)
  | encSym x =>
    simp only [exec, execEncSym] at h
    split at h
    · cases h; exact .inr (.inr ⟨rfl, rfl⟩)
    · split at h
      · cases h; exact .inr (.inr ⟨rfl, rfl⟩)
      · obtain ⟨acc, cnt, out, h1, -⟩ := emitBits_spec (s.cg.codeOf x) s
        rw [drained_eq_next h, h1]
        exact .inr (.inr ⟨rfl, rfl⟩)
  | encFlush =>
    simp only [exec, execEncFlush] at h
    split at h
    · cases h; exact .inr (.inr ⟨rfl, rfl⟩)
    · rw [drained_eq_next h]
      split <;> exact .inr (.inr ⟨rfl, rfl⟩)
  | decBegin =>
    simp only [exec, execDecBegin] at h
    split at h <;> cases h <;> exact .inr (.inr ⟨rfl, rfl⟩)
  | decByte b =>
    simp only [exec, execDecByte] at h
    split at h
    · cases h; exact .inr (.inr ⟨rfl, rfl⟩)
    · obtain ⟨rem, cur, cnt, out, h1, -⟩ := walkBits_frame (bitsMsbFirst b) s
      rw [drained_eq_next h, h1]
      exact .inr (.inr ⟨rfl, rfl⟩)
  | decEnd =>
    simp only [exec, execDecEnd] at h
    split at h
    · cases h; exact .inr (.inr ⟨rfl, rfl⟩)
    · split at h
      · cases h; exact .inr (.inr ⟨rfl, rfl⟩)
      · split at h <;> cases h <;> exact .inr (.inr ⟨rfl, rfl⟩)

/-- An encode becomes active by ENC_BEGIN alone, a decode by DEC_BEGIN alone (R190, R220). -/
theorem exec_active {i : Instr} {s t : State} (h : exec i s = .next t) :
    (t.enc.active = true → s.enc.active = true ∨ (i = .encBegin ∧ s.cg.valid = true)) ∧
      (t.dec.active = true → s.dec.active = true ∨ (i = .decBegin ∧ s.tb.valid = true)) := by
  cases i with
  | nop => cases h; simp +contextual
  | sreset => cases h; simp
  | errClear => cases h; simp +contextual
  | tbBuild =>
    simp only [exec, execTbBuild] at h
    split at h
    · cases h; simp +contextual
    · split at h <;> cases h <;> simp +contextual
  | cgGen =>
    simp only [exec, execCgGen] at h
    split at h <;> cases h <;> simp +contextual
  | encBegin =>
    simp only [exec, execEncBegin] at h
    split at h
    · cases h; simp +contextual
    · rename_i hs; cases h; simp_all [sequenceFails]
  | encSym x =>
    simp only [exec, execEncSym] at h
    split at h
    · cases h; simp +contextual
    · split at h
      · cases h; simp +contextual
      · obtain ⟨acc, cnt, out, h1, -⟩ := emitBits_spec (s.cg.codeOf x) s
        rw [drained_eq_next h, h1]
        simp +contextual
  | encFlush =>
    simp only [exec, execEncFlush] at h
    split at h
    · cases h; simp +contextual
    · rw [drained_eq_next h]
      split <;> simp +contextual
  | decBegin =>
    simp only [exec, execDecBegin] at h
    split at h
    · cases h; simp +contextual
    · rename_i hs; cases h; simp_all [sequenceFails]
  | decByte b =>
    simp only [exec, execDecByte] at h
    split at h
    · cases h; simp +contextual
    · obtain ⟨rem, cur, cnt, out, h1, -⟩ := walkBits_frame (bitsMsbFirst b) s
      rw [drained_eq_next h, h1]
      simp +contextual
  | decEnd =>
    simp only [exec, execDecEnd] at h
    split at h
    · cases h; simp +contextual
    · split at h
      · cases h; simp +contextual
      · split at h <;> cases h <;> simp +contextual

/-- The error a command records is the one `errorOf` names (R258, R261). -/
theorem exec_errorOf {i : Instr} {s t : State} (hs : i ≠ .sreset) (h0 : s.ctl.errCode = .none) (h : exec i s = .next t) :
    (errorOf i s = none → t.ctl.errCode = .none) ∧ ∀ e, errorOf i s = some e → t.ctl.errCode = e ∧ t.ctl.errInfo = encode i := by
  cases i with
  | nop => cases h; simp [errorOf, sequenceFails, h0]
  | sreset => exact absurd rfl hs
  | errClear => cases h; simp [errorOf, sequenceFails]
  | tbBuild =>
    simp only [exec, execTbBuild] at h
    split at h
    · rename_i hq; cases h; simp [errorOf, hq]
    · rename_i hq
      split at h
      · rename_i hp; cases h; simp [errorOf, hq, hp]
      · rename_i hp; cases h; simp [errorOf, hq, hp, h0]
  | cgGen =>
    simp only [exec, execCgGen] at h
    split at h <;> rename_i hq <;> cases h <;> simp [errorOf, hq, h0]
  | encBegin =>
    simp only [exec, execEncBegin] at h
    split at h <;> rename_i hq <;> cases h <;> simp [errorOf, hq, h0]
  | encSym x =>
    simp only [exec, execEncSym] at h
    split at h
    · rename_i hq; cases h; simp [errorOf, hq]
    · rename_i hq
      split at h
      · rename_i hp; cases h; simp [errorOf, hq, hp]
      · rename_i hp
        obtain ⟨acc, cnt, out, h1, -⟩ := emitBits_spec (s.cg.codeOf x) s
        rw [drained_eq_next h, h1]; simp [errorOf, hq, hp, h0]
  | encFlush =>
    simp only [exec, execEncFlush] at h
    split at h
    · rename_i hq; cases h; simp [errorOf, hq]
    · rename_i hq
      rw [drained_eq_next h]
      split <;> simp [errorOf, hq, h0]
  | decBegin =>
    simp only [exec, execDecBegin] at h
    split at h <;> rename_i hq <;> cases h <;> simp [errorOf, hq, h0]
  | decByte b =>
    simp only [exec, execDecByte] at h
    split at h
    · rename_i hq; cases h; simp [errorOf, hq]
    · rename_i hq
      obtain ⟨rem, cur, cnt, out, h1, -⟩ := walkBits_frame (bitsMsbFirst b) s
      rw [drained_eq_next h, h1]; simp [errorOf, hq, h0]
  | decEnd =>
    simp only [exec, execDecEnd] at h
    split at h
    · rename_i hq; cases h; simp [errorOf, hq]
    · rename_i hq
      split at h
      · rename_i hp; cases h; simp [errorOf, hq, hp]
      · rename_i hp
        split at h <;> rename_i hc <;> cases h <;> simp [errorOf, hq, h0, hp, hc]

/-- The engine's turn: nothing while IDLE; otherwise a rejection, ILLEGAL_CMD, or the command's own rule, and then
retirement (R130). -/
theorem engineTurn_cases {s t : State} (h : engineTurn s = .next t) :
    (s.eng = .idle ∧ t = s) ∨
      ∃ w, s.eng = .busy w ∧
        ((gateRejects (decode w) s = true ∧ t = retire s) ∨
          (s.ctl.errCode = .none ∧ (∃ e, decode w = .error e) ∧ t = retire (raise .illegalCmd w s)) ∨
          ∃ i u, decode w = .ok i ∧ (s.ctl.errCode = .none ∨ passesPendingError i = true) ∧ exec i s = .next u ∧
            t = retire u) := by
  unfold engineTurn at h
  split at h
  · rename_i he; cases h; exact .inl ⟨he, rfl⟩
  · rename_i w he
    refine .inr ⟨w, he, ?_⟩
    unfold execute at h
    split at h
    · rename_i hg; cases h; exact .inl ⟨hg, rfl⟩
    · rename_i hg
      split at h
      · rename_i e hd
        cases h
        refine .inr (.inl ⟨?_, ⟨e, hd⟩, rfl⟩)
        simpa [gateRejects, hd] using hg
      · rename_i i hd
        have hpass : s.ctl.errCode = .none ∨ passesPendingError i = true := by
          by_cases h0 : s.ctl.errCode = .none
          · exact .inl h0
          · right; simpa [gateRejects, hd, h0] using hg
        cases he : exec i s with
        | next u => rw [he] at h; cases h; exact .inr (.inr ⟨i, u, hd, hpass, he, rfl⟩)
        | fault r => rw [he] at h; cases h
        | refused r => rw [he] at h; cases h

/-- Once the word decodes and the gate lets it through, the engine's turn is the command's rule and retirement (R130). -/
theorem engineTurn_exec {s : State} {w : Word} {i : Instr} (he : s.eng = .busy w) (hd : decode w = .ok i)
    (hg : s.ctl.errCode = .none ∨ passesPendingError i = true) : engineTurn s = retireOutcome (exec i s) := by
  have : gateRejects (.ok i) s = false := by
    rcases hg with h | h <;> simp [gateRejects, h]
  simp [engineTurn, he, execute, hd, this]

/-- After a turn of the engine it is IDLE; the pin and the host's side are as they were. -/
theorem engineTurn_ends {s t : State} (h : engineTurn s = .next t) :
    t.eng = .idle ∧ t.rstN = s.rstN ∧ t.host = s.host := by
  rcases engineTurn_cases h with ⟨he, rfl⟩ | ⟨w, -, ⟨-, rfl⟩ | ⟨-, -, rfl⟩ | ⟨i, u, -, -, hu, rfl⟩⟩
  · exact ⟨he, rfl, rfl⟩
  · exact ⟨rfl, rfl, rfl⟩
  · exact ⟨rfl, rfl, rfl⟩
  · rcases exec_frame hu with rfl | hf
    · cases hu; exact ⟨rfl, rfl, rfl⟩
    · exact ⟨rfl, hf.rstN, hf.host⟩

/-- All the handshake can do: nothing, or, ready and with a word offered, latch the oldest (R22). -/
theorem acceptTurn_cases (s : State) : acceptTurn s = s ∨
    ∃ w rest, s.host.offers = w :: rest ∧ s.rstN = true ∧ s.eng = .idle ∧
      acceptTurn s = latch w { s with host := { s.host with offers := rest } } := by
  unfold acceptTurn
  split
  · exact .inl rfl
  · rename_i w rest h0
    split
    · rename_i hc
      simp only [State.cmdReady, Bool.and_eq_true, beq_iff_eq] at hc
      exact .inr ⟨w, rest, h0, hc.1, hc.2, rfl⟩
    · exact .inl rfl

/-- The handshake of a block that is ready: the oldest offered word is latched. -/
theorem acceptTurn_ready {s : State} {w : Word} {rest : List Word} (h0 : s.host.offers = w :: rest)
    (h1 : s.rstN = true) (h2 : s.eng = .idle) :
    acceptTurn s = latch w { s with host := { s.host with offers := rest } } := by
  simp [acceptTurn, h0, State.cmdReady, h1, h2]

/-- An action after one that ends in a next state starts there. -/
@[simp] theorem andThen_next (t : State) (k : State → Host.Outcome State Fault Refusal) :
    andThen (.next t) k = k t := rfl

/-- Nothing after the last action. -/
@[simp] theorem andThen_done (o : Host.Outcome State Fault Refusal) : andThen o .next = o := by
  cases o <;> rfl

/-- Nothing of the block but the engine's word and BUSY_WR, CTRL, DONE, FREQ, DEC_NBITS, the taken bytes is in the host's
hands: a turn that is neither the engine's nor a fall of rst_n leaves the rest (R75, R79, R84). -/
theorem hostTurn_keeps {r : Turn} {s t : State} (h : takeTurn r s = .next t) (h1 : r ≠ .engine)
    (h2 : r ≠ .setRst false) :
    t.tb = s.tb ∧ t.cg = s.cg ∧ t.enc = s.enc ∧ (∃ n, t.dec = { s.dec with nbits := n }) ∧
      t.ctl.errCode = s.ctl.errCode ∧ t.ctl.errInfo = s.ctl.errInfo ∧ t.encOut.all = s.encOut.all ∧
      t.decOut.all = s.decOut.all ∧ s.encOut.taken <+: t.encOut.taken ∧ s.decOut.taken <+: t.decOut.taken := by
  cases r with
  | engine => exact absurd rfl h1
  | accept =>
    cases h
    rcases acceptTurn_cases s with e | ⟨w, rest, -, -, -, e⟩ <;> rw [e] <;>
      exact ⟨rfl, rfl, rfl, ⟨_, rfl⟩, rfl, rfl, rfl, rfl, List.prefix_rfl, List.prefix_rfl⟩
  | offer w => cases h; exact ⟨rfl, rfl, rfl, ⟨_, rfl⟩, rfl, rfl, rfl, rfl, List.prefix_rfl, List.prefix_rfl⟩
  | csrRead a =>
    cases h
    unfold csrRead
    dsimp only
    split <;> exact ⟨rfl, rfl, rfl, ⟨_, rfl⟩, rfl, rfl, rfl, rfl, List.prefix_rfl, List.prefix_rfl⟩
  | csrWrite a v =>
    cases h
    unfold csrWrite
    split
    · exact ⟨rfl, rfl, rfl, ⟨_, rfl⟩, rfl, rfl, rfl, rfl, List.prefix_rfl, List.prefix_rfl⟩
    · split
      · exact ⟨rfl, rfl, rfl, ⟨_, rfl⟩, rfl, rfl, rfl, rfl, List.prefix_rfl, List.prefix_rfl⟩
      · unfold csrStore
        split <;> exact ⟨rfl, rfl, rfl, ⟨_, rfl⟩, rfl, rfl, rfl, rfl, List.prefix_rfl, List.prefix_rfl⟩
  | takeEnc =>
    cases h
    refine ⟨rfl, rfl, rfl, ⟨_, rfl⟩, rfl, rfl, Stream.all_take _, rfl, ?_, List.prefix_rfl⟩
    rcases s.encOut with ⟨a, _ | ⟨b, p⟩⟩ <;> simp [Stream.take]
  | takeDec =>
    cases h
    refine ⟨rfl, rfl, rfl, ⟨_, rfl⟩, rfl, rfl, rfl, Stream.all_take _, List.prefix_rfl, ?_⟩
    rcases s.decOut with ⟨a, _ | ⟨b, p⟩⟩ <;> simp [Stream.take]
  | drainEnc on => cases h; exact ⟨rfl, rfl, rfl, ⟨_, rfl⟩, rfl, rfl, rfl, rfl, List.prefix_rfl, List.prefix_rfl⟩
  | drainDec on => cases h; exact ⟨rfl, rfl, rfl, ⟨_, rfl⟩, rfl, rfl, rfl, rfl, List.prefix_rfl, List.prefix_rfl⟩
  | setRst level =>
    cases level with
    | false => exact absurd rfl h2
    | true => cases h; exact ⟨rfl, rfl, rfl, ⟨_, rfl⟩, rfl, rfl, rfl, rfl, List.prefix_rfl, List.prefix_rfl⟩

/-- The next turn is the script's, or by default the engine's or the command port's (log entry 1). -/
theorem nextTurn_cases (s : State) :
    (s.host.script = [] ∧ nextTurn s = (autoTurn s, s)) ∨
      ∃ r rest, s.host.script = r :: rest ∧
        nextTurn s = (r, { s with host := { s.host with script := rest } }) := by
  unfold nextTurn
  cases h : s.host.script with
  | nil => exact .inl ⟨rfl, rfl⟩
  | cons r rest => exact .inr ⟨r, rest, rfl, rfl⟩

/-- A step takes one turn, in the state with the script moved on. -/
theorem step_turn (s : State) : ∃ script, step s =
    takeTurn (nextTurn s).1 { s with host := { s.host with script := script } } := by
  rcases nextTurn_cases s with ⟨h, e⟩ | ⟨r, rest, h, e⟩
  · exact ⟨s.host.script, by rw [step, e]⟩
  · exact ⟨rest, by rw [step, e]⟩

/-- The commands of two lists run one list after the other. -/
theorem execAll_append (is js : List Instr) (s : State) : execAll (is ++ js) s =
    match execAll is s with
    | .next t => execAll js t
    | .fault r => .fault r
    | .refused r => .refused r := by
  induction is generalizing s with
  | nil => rfl
  | cons i is ih =>
    simp only [List.cons_append, execAll]
    cases exec i s with
    | next t => exact ih t
    | fault r => rfl
    | refused r => rfl

/-- The block after a reset has every item of R55 at its reset value (R134, R280). -/
theorem resetFrom_resetBlock (s : State) : ResetFrom s (resetBlock s) where
  eng := rfl
  ctrl := ⟨rfl, rfl⟩
  status := ⟨rfl, rfl⟩
  error := ⟨rfl, rfl⟩
  freq x := by simp [State.freqAt, resetBlock, State.reset, Vector.get]
  tree := ⟨rfl, rfl, rfl⟩
  codes := ⟨rfl, rfl⟩
  enc := rfl
  dec := rfl
  enc_out := rfl
  dec_out := rfl
  outside := ⟨rfl, rfl⟩

/-- A block in its reset state stays in it while only the host's side and the draw counter move (R280). -/
theorem ResetFrom.withHost {s : State} (h : ResetFrom s s) (rst : Bool) (host : HostSide) (draws : Nat) :
    ResetFrom { s with rstN := rst, host := host, draws := draws } { s with rstN := rst, host := host, draws := draws } :=
  { h with outside := ⟨rfl, rfl⟩ }

end Sys2Proof.Machine
end

