-- ==== Sys2Proof/Tests/Slice0.lean ====
section
/-! SUPPORT. The model's own tests. Expected values are those of spec/95_test_vectors.md (the vector is named), of the
encodings of spec/30_encoding.md, or of a rule's own example. The witnesses show states that meet the hypotheses of the
obligations, clause by clause. -/

namespace Sys2Proof.Machine.Tests

set_option Elab.async false

/-! ### The encoding -/

/-- R107 (a), (b), (c): a word with an unlisted OP, with RSV not 0, and a format-N word with IMM8 not 0 are not well formed. -/
theorem test_illformed_words_are_refused :
    wordWellFormed 0x00000003#32 = false ∧ wordWellFormed 0x000000FF#32 = false ∧
      wordWellFormed 0x00010031#32 = false ∧ wordWellFormed 0x80000000#32 = false ∧
      wordWellFormed 0x00000100#32 = false ∧ wordWellFormed 0x00004231#32 = true := by decide

/-- R101, R102: an operand has 8 bits. -/
theorem test_operand_of_nine_bits_is_refused : operandFits 256 = false ∧ operandFits 255 = true := by decide

/-- R107: the decoder refuses the same words, by name (V-CTL2, V-CTL3, V-CTL4). -/
theorem test_decode_names_the_fault :
    decode 0x00000003#32 = .error .unknownOp ∧ decode 0x00000033#32 = .error .unknownOp ∧
      decode 0x00010031#32 = .error .reservedNotZero ∧ decode 0x80000000#32 = .error .reservedNotZero ∧
      decode 0x00000100#32 = .error .operandNotZero := by decide

/-- R105: the control, TB and CG commands, bit by bit: RSV, IMM8, OP. -/
theorem test_decode_control_words :
    decode 0b00000000000000000000000000000000#32 = .ok .nop ∧
      decode 0b00000000000000000000000000000001#32 = .ok .sreset ∧
      decode 0b00000000000000000000000000000010#32 = .ok .errClear ∧
      decode 0b00000000000000000000000000010000#32 = .ok .tbBuild ∧
      decode 0b00000000000000000000000000100000#32 = .ok .cgGen := by decide

/-- R105, R194: the ENC commands; ENC_SYM 'B' is 0x00004231. -/
theorem test_decode_encoder_words :
    decode 0b00000000000000000000000000110000#32 = .ok .encBegin ∧
      decode 0b00000000000000000100001000110001#32 = .ok (.encSym 66#8) ∧
      decode 0b00000000000000000000000000110001#32 = .ok (.encSym 0#8) ∧
      decode 0b00000000000000000000000000110010#32 = .ok .encFlush := by decide

/-- R105, R224: the DEC commands; DEC_BYTE 0x5F is 0x00005F41. -/
theorem test_decode_decoder_words :
    decode 0b00000000000000000000000001000000#32 = .ok .decBegin ∧
      decode 0b00000000000000000101111101000001#32 = .ok (.decByte 0x5F#8) ∧
      decode 0b00000000000000001111111101000001#32 = .ok (.decByte 255#8) ∧
      decode 0b00000000000000000000000001000010#32 = .ok .decEnd := by decide

/-- R111: the assembly text of a command. -/
theorem test_asm : Instr.tbBuild.asm = "TB_BUILD" ∧ (Instr.encSym 65#8).asm = "ENC_SYM 65" := by decide +kernel

/-! ### Small states -/

/-- The state of an outcome that is a next state. -/
def nextOf : Host.Outcome State Fault Refusal → Option State
  | .next t => some t
  | .fault _ => none
  | .refused _ => none

/-- V-TB1's counts: 'A' 5, 'B' 3, 'C' 2, 'D' 1. -/
def counted : State :=
  { State.reset with freq := (((State.reset.freq.set 65 5#32).set 66 3#32).set 67 2#32).set 68 1#32 }

/-- V-TB1's nodes, written out. -/
def nodes1 : List Node :=
  [.leaf 65#8 5#40, .leaf 66#8 3#40, .leaf 67#8 2#40, .leaf 68#8 1#40, .internal 3 2 3#40, .internal 1 4 6#40,
   .internal 0 5 11#40]

/-- V-TB1's tree. -/
def tree1 : TreeRegs := { valid := true, node := writeNodes TreeRegs.reset.node 0 nodes1, nleaf := 4, root := 6 }

/-- V-CG2's codes, written out: 0, 10, 110, 111. -/
def codes1 : CodeRegs :=
  { valid := true, maxlen := 3#8,
    len := (((CodeRegs.reset.len.set 65 1#8).set 66 2#8).set 68 3#8).set 67 3#8,
    bits := (((CodeRegs.reset.bits.set 65 0#256).set 66 (1#256 <<< 255)).set 68 (6#256 <<< 253)).set 67 (7#256 <<< 253) }

/-- V-TB1's tree, without codes. -/
def treed : State := { counted with tb := tree1 }

/-- V-TB1's tree and codes. -/
def coded : State := { treed with cg := codes1 }

/-- V-TB4's counts: 'a' 3. -/
def lone : State := { State.reset with freq := State.reset.freq.set 97 3#32 }

/-- V-TB4's tree: the sole leaf 'a'. -/
def loneTree : State :=
  { lone with tb := { valid := true, node := writeNodes TreeRegs.reset.node 0 [.leaf 97#8 3#40], nleaf := 1, root := 0 } }

/-- An encode that has `c` bits pending in `v`. -/
def encoding (v : Byte) (c : BitVec 3) (s : State) : State :=
  { s with enc := { s.enc with active := true, acc := v, accCnt := c } }

/-- A decode that owes `n` bits, its cursor at node `k`. -/
def decoding (n : Counter) (k : NodeIdx) (s : State) : State :=
  { s with dec := { s.dec with active := true, remain := n, cursor := k } }

/-- The engine holds `w`. -/
def holding (w : Word) (s : State) : State := latch w s

/-- An error is pending. -/
def erring (e : ErrCode) (w : Word) (s : State) : State := { s with ctl := { s.ctl with errCode := e, errInfo := w } }

/-- The next turn is the script's `r`. -/
def turning (r : Turn) (s : State) : State := { s with host := { s.host with script := [r] } }

/-- The host drains neither stream. -/
def undrained (s : State) : State := { s with host := { s.host with drainsEnc := false, drainsDec := false } }

/-! ### The commands -/

/-- V-CTL1: NOP only sets DONE. -/
theorem test_nop_sets_done :
    (nextOf (engineTurn (holding 0x00000000#32 State.reset))).map State.statusWord = some 0x002#32 := by decide +kernel

/-- R88: with DONE at 1 from an earlier command, STATUS reads BUSY 1 and DONE 0 once the next command is accepted. -/
theorem test_accept_clears_done :
    (acceptTurn { coded with ctl := { coded.ctl with done := true }, host := { coded.host with offers := [0x10#32] } }).statusWord
      = 0x00D#32 := by decide +kernel

/-- R112: ENC_FLUSH issued while ENC_SYM 'B' (code 10 in V-TB1) is under way is held back, then run: the byte is 0x80. -/
theorem test_command_waits_for_the_busy_engine :
    (nextOf (hostCommand .encFlush (holding 0x4231#32 (encoding 0#8 0#3 coded)))).map
      (fun t => (t.encOut.pending, t.enc.bitcnt, t.statusWord, t.host.offers)) =
      some ([0x80#8], 2#64, 0x00E#32, []) := by decide +kernel

/-- V-CTL8: SRESET clears the counts, the tree and the error; only DONE is left. -/
theorem test_sreset_clears :
    (nextOf (engineTurn (holding 0x00000001#32 (erring .logic 5#32 coded)))).map
      (fun t => (t.statusWord, t.freqAt 65#8, t.ctl.errInfo)) = some (0x002#32, 0#32, 0#32) := by decide +kernel

/-- V-CTL7: ERR_CLEAR runs through the gate and clears the error. -/
theorem test_err_clear_clears :
    (nextOf (engineTurn (holding 0x00000002#32 (erring .illegalCmd 0x100#32 State.reset)))).map
      (fun t => (t.statusWord, t.ctl.errInfo)) = some (0x002#32, 0#32) := by decide +kernel

/-- V-CTL3: a word with RSV not 0 raises ILLEGAL_CMD, not SEQUENCE. -/
theorem test_illegal_before_sequence :
    (nextOf (engineTurn (holding 0x00010031#32 State.reset))).map (fun t => (t.statusWord, t.ctl.errInfo)) =
      some (0x502#32, 0x00010031#32) := by decide +kernel

/-- V-CTL6: a command is rejected silently while an error is pending. -/
theorem test_gate_rejects :
    (nextOf (engineTurn (holding 0x00000010#32 (erring .illegalCmd 0x100#32 counted)))).map
      (fun t => (t.statusWord, t.ctl.errInfo, t.tb.nleaf)) = some (0x502#32, 0x100#32, 0) := by decide +kernel

/-- V-TB1: the whole arena in use, NLEAF and ROOT. -/
theorem test_tb_build_example :
    (nextOf (exec .tbBuild counted)).map (fun t => ((List.range 7).map t.tb.nodeNo, t.tb.nleaf, t.tb.root, t.tb.valid)) =
      some (nodes1, 4, 6, true) := by decide +kernel

/-- V-TB6: of a leaf and an internal node of equal frequency the leaf goes first and to the left. -/
theorem test_tb_build_tie :
    (nextOf (exec .tbBuild { State.reset with freq := ((State.reset.freq.set 65 1#32).set 66 1#32).set 67 2#32 })).map
      (fun t => (t.tb.nodeNo 3, t.tb.nodeNo 4)) = some (.internal 0 1 2#40, .internal 2 3 4#40) := by decide +kernel

theorem tree1_leafCodes : leafCodes tree1 =
    [(65#8, [false]), (66#8, [true, false]), (68#8, [true, true, false]), (67#8, [true, true, true])] := by
  decide +kernel

theorem codes1_generated : generatedCodes tree1 = codes1 := by
  have h : codeEntries tree1 = { codes1 with maxlen := 0#8 } := by
    have p : packCode [false] = 0#256 ∧ packCode [true, false] = 1#256 <<< 255 ∧
        packCode [true, true, false] = 6#256 <<< 253 ∧ packCode [true, true, true] = 7#256 <<< 253 := by decide +kernel
    unfold codeEntries
    rw [tree1_leafCodes]
    simp only [List.foldl_cons, List.foldl_nil, CodeRegs.setCode, p]
    rfl
  have m : ({ codes1 with maxlen := 0#8 } : CodeRegs).longest = 3 := by decide +kernel
  unfold generatedCodes
  rw [h, m]
  rfl

/-- V-CG2: lengths, bits and MAXLEN. -/
theorem test_cg_gen_example : (nextOf (exec .cgGen treed)).map State.cg = some codes1 := by
  rw [← codes1_generated]
  rfl

/-- V-CG3: the sole leaf has the code "0". -/
theorem test_cg_gen_single_leaf :
    (nextOf (exec .cgGen loneTree)).map (fun t => (t.cg.lenAt 97#8, t.cg.wordAt 97#8 0, t.cg.maxlen)) =
      some (1#8, 0#32, 1#8) := by decide +kernel

/-- V-ENC13: ENC_BEGIN without codes raises SEQUENCE. -/
theorem test_enc_begin_needs_codes :
    (nextOf (engineTurn (holding 0x00000030#32 treed))).map (fun t => (t.statusWord, t.ctl.errInfo)) =
      some (0x406#32, 0x30#32) := by decide +kernel

/-- R190: ENC_BEGIN throws away what an aborted encode left in ACC. -/
theorem test_enc_begin_clears :
    (nextOf (exec .encBegin { coded with enc := { EncRegs.reset with acc := 0x80#8, accCnt := 1#3, bitcnt := 1#64 } })).map
      (fun t => (t.enc.accWord, t.enc.bitcnt, t.enc.active)) = some (0#32, 0#64, true) := by decide +kernel

/-- V-ENC8: ENC_SYM 'B' onto five pending zeros. -/
theorem test_enc_sym_example :
    (nextOf (exec (.encSym 66#8) (encoding 0#8 5#3 coded))).map (fun t => (t.enc.accWord, t.enc.bitcnt, t.encOut.all)) =
      some (0x704#32, 2#64, []) := by decide +kernel

/-- V-ENC17: ENC_SYM of an absent symbol. -/
theorem test_enc_sym_absent :
    (nextOf (engineTurn (holding 0x00004531#32 (encoding 0#8 1#3 coded)))).map
      (fun t => (t.statusWord, t.ctl.errInfo, t.enc.accWord)) = some (0x20E#32, 0x4531#32, 0x100#32) := by decide +kernel

/-- R197's example: 1110 pending, ENC_FLUSH pushes 0xE0. -/
theorem test_enc_flush_pads :
    (nextOf (exec .encFlush (encoding 0xE0#8 4#3 coded))).map (fun t => (t.enc.accWord, t.enc.active, t.encOut.all)) =
      some (0#32, false, [0xE0#8]) := by decide +kernel

/-- V-ENC12: ENC_FLUSH with nothing pending pushes nothing. -/
theorem test_enc_flush_of_nothing :
    (nextOf (exec .encFlush (encoding 0#8 0#3 coded))).map (fun t => (t.encOut.all, t.enc.active)) =
      some ([], false) := by decide +kernel

/-- V-DEC1: DEC_BEGIN. -/
theorem test_dec_begin_example :
    (nextOf (engineTurn (holding 0x00000040#32 { treed with dec := { treed.dec with nbits := 20#64 } }))).map
      (fun t => (t.statusWord, t.dec.cursor, t.dec.remain)) = some (0x026#32, 6, 20#64) := by decide +kernel

/-- V-DEC1: DEC_BYTE 0x05. -/
theorem test_dec_byte_example :
    (nextOf (exec (.decByte 0x05#8) (decoding 20#64 6 treed))).map
      (fun t => (t.decOut.all, t.dec.cursor, t.dec.remain, t.dec.symcnt)) =
      some ([65#8, 65#8, 65#8, 65#8, 65#8, 66#8], 5, 12#64, 6#64) := by decide +kernel

/-- V-DEC7: the sole leaf, three bits. -/
theorem test_dec_byte_single_leaf :
    (nextOf (exec (.decByte 0xFF#8) (decoding 3#64 0 loneTree))).map (fun t => (t.decOut.all, t.dec.remain)) =
      some ([97#8, 97#8, 97#8], 0#64) := by decide +kernel

/-- V-DEC4: bits are still owed at DEC_END. -/
theorem test_dec_end_truncated :
    (nextOf (engineTurn (holding 0x00000042#32 (decoding 4#64 4 treed)))).map
      (fun t => (t.statusWord, t.ctl.errInfo, t.dec.remain, t.dec.cursor)) =
      some (0x306#32, 0x42#32, 4#64, 4) := by decide +kernel

/-- V-DEC2: a clean end. -/
theorem test_dec_end_clean :
    (nextOf (engineTurn (holding 0x00000042#32 (decoding 0#64 6 treed)))).map State.statusWord = some 0x006#32 := by
  decide +kernel

/-! ### The CSR bus -/

/-- V-CSR4: the two low address bits are ignored. -/
theorem test_csr_misaligned : (csrRead 0x506#16 counted).host.reads = [5#32] := by decide +kernel

/-- V-TB1's register reads: NODE_INFO[6], NODE_INFO[0], NODE_FREQ_LO[6], NODE_FREQ_HI[6], ROOT_FREQ_LO. -/
theorem test_csr_node_reads :
    [0x3018#16, 0x3000#16, 0x4030#16, 0x4034#16, 0x0018#16].map (fun a => (csrRead a treed).host.reads) =
      [[0x00050000#32], [0x80000041#32], [0xB#32], [0#32], [0xB#32]] := by decide +kernel

/-- V-CSR6: only DONE and BUSY_WR clear. -/
theorem test_csr_status_write :
    (csrWrite 0x0008#16 0xFFFFFFFF#32 { coded with ctl := { coded.ctl with done := true } }).statusWord = 0x00C#32 := by
  decide +kernel

/-- V-CSR7: a FREQ write while BUSY is refused and sets BUSY_WR. -/
theorem test_csr_busy_write :
    (fun t : State => (t.freqAt 65#8, t.ctl.busyWr)) (csrWrite 0x0504#16 9#32 (holding 0x10#32 counted)) =
      (5#32, true) := by decide +kernel

/-- R112: of the three bytes that wait, after ENC_BITCNT was read as 9 the host takes ceil(9 / 8) = 2, as 8 one, as 0 none;
and it takes every decoded byte that waits. -/
theorem test_host_takes :
    ([9#32, 8#32, 0#32].map fun lo =>
        (nextOf (takeEncBytes { pushEnc 3#8 (pushEnc 2#8 (pushEnc 1#8 coded)) with
          host := { coded.host with reads := [0x7#32, lo, 0#32] } })).map fun t => t.encOut.taken) =
      [some [1#8, 2#8], some [1#8], some []] ∧
      (nextOf (takeDecBytes (pushDec 2#8 (pushDec 1#8 coded)))).map (fun t => t.decOut) =
        some { taken := [1#8, 2#8], pending := [] } := by decide +kernel

/-! ### The step -/

/-- R22, R131: a word offered at reset is accepted, then executed: V-CTL1 by two steps' worth of turns, one at a time. -/
theorem test_step_accepts :
    (nextOf (step { State.reset with host := { State.reset.host with offers := [0#32] } })).map State.eng =
      some (.busy 0#32) := by decide +kernel

/-- The interface's state runs the word it was given, whatever the reset script is. -/
theorem test_step_runs_fetch_word :
    (nextOf (step (State.reset.withFetchWord 32 0x10))).map (fun t => (t.statusWord, t.ctl.errInfo)) =
      some (0x102#32, 0x10#32) := by decide +kernel


/-! ### Witnesses: states and operands that meet the hypotheses of each obligation -/

/-- The fault of an outcome that is one. -/
def faultOf : Host.Outcome State Fault Refusal → Option Fault
  | .fault r => some r
  | .next _ => none
  | .refused _ => none

theorem next_of {o : Host.Outcome State Fault Refusal} (h : (nextOf o).isSome = true) : ∃ t, o = .next t := by
  cases o with
  | next t => exact ⟨t, rfl⟩
  | fault r => exact absurd h (by simp [nextOf])
  | refused r => exact absurd h (by simp [nextOf])

theorem fault_of {o : Host.Outcome State Fault Refusal} {r : Fault} (h : faultOf o = some r) : o = .fault r := by
  cases o with
  | next t => exact absurd h (by simp [faultOf])
  | fault q => simpa [faultOf] using h
  | refused q => exact absurd h (by simp [faultOf])

/-- Every symbol present, once. -/
def flat : State := { State.reset with freq := Vector.replicate 256 1#32 }

/-- The next turn is the engine's, on `w`. -/
def running (w : Word) (s : State) : State := turning .engine (holding w s)

theorem tree1_ok : TreeOk tree1 := by
  constructor <;> decide +kernel

theorem loneTree_ok : TreeOk loneTree.tb := by
  constructor <;> decide +kernel

theorem coded_inv : Inv coded where
  tree _ := tree1_ok
  no_tree h := absurd h (by decide +kernel)
  codes_need_tree _ := rfl
  codes _ := codes1_generated.symm
  no_codes h := absurd h (by decide +kernel)
  enc_needs_codes _ := rfl
  dec_needs_tree _ := rfl
  cursor h := absurd h (by decide +kernel)
  acc_padded := by decide +kernel
  no_error _ := rfl
  no_format := by decide +kernel
  done_idle _ := rfl
  in_reset h := absurd h (by decide +kernel)

theorem witness_EncodeOfDecodeIsTheWord :
    decode 0x00000000#32 = .ok .nop ∧ decode 0x0000FF41#32 = .ok (.decByte 0xFF#8) := by decide

/-- A turn said by the script and one by default; a command that completes and one that stops; no error, and one pending. -/
theorem witness_StepRunsTheHeldCommand :
    ((running 0x31#32 coded).eng = .busy 0x31#32 ∧ decode 0x31#32 = .ok (.encSym 0#8) ∧
      (running 0x31#32 coded).ctl.errCode = .none ∧ (running 0x31#32 coded).host.script = [.engine] ∧
      ∃ t, exec (.encSym 0#8) (holding 0x31#32 coded) = .next t) ∧
    ((holding 2#32 (erring .logic 5#32 coded)).eng = .busy 2#32 ∧ decode 2#32 = .ok .errClear ∧
      (holding 2#32 (erring .logic 5#32 coded)).host.script = [] ∧
      ∃ t, exec .errClear (holding 2#32 (erring .logic 5#32 coded)) = .next t) ∧
    ((holding 0x32#32 (undrained (encoding 0x80#8 1#3 coded))).eng = .busy 0x32#32 ∧
      decode 0x32#32 = .ok .encFlush ∧ (holding 0x32#32 (undrained (encoding 0x80#8 1#3 coded))).ctl.errCode = .none ∧
      exec .encFlush (holding 0x32#32 (undrained (encoding 0x80#8 1#3 coded))) = .fault .encOutUndrained) :=
  ⟨⟨rfl, by decide, rfl, rfl, next_of (by decide +kernel)⟩, ⟨rfl, by decide, rfl, next_of (by decide +kernel)⟩,
    ⟨rfl, by decide, rfl, fault_of (by decide +kernel)⟩⟩

/-- Each clause of the gate: rejected (legal and illegal word), illegal, and let through. -/
theorem witness_AcceptanceGate :
    ((erring .sequence 0x20#32 coded).ctl.errCode ≠ .none ∧ decode 0x10#32 ≠ .ok .nop ∧ decode 0x10#32 ≠ .ok .sreset ∧
      decode 0x10#32 ≠ .ok .errClear ∧ decode 3#32 ≠ .ok .nop ∧ decode 3#32 ≠ .ok .sreset ∧
      decode 3#32 ≠ .ok .errClear) ∧
    (coded.ctl.errCode = .none ∧ decode 3#32 = .error .unknownOp ∧ decode 0x10000#32 = .error .reservedNotZero) ∧
    (decode 0x20#32 = .ok .cgGen ∧ ∃ t, exec .cgGen (holding 0x20#32 coded) = .next t) ∧
    (decode 1#32 = .ok .sreset ∧ ∃ t, exec .sreset (holding 1#32 (erring .sequence 0x20#32 coded)) = .next t) :=
  ⟨by decide +kernel, by decide +kernel, ⟨by decide, next_of (by decide +kernel)⟩,
    by decide, next_of (by decide +kernel)⟩

theorem witness_EveryAcceptedCommandRetires :
    (holding 0xFFFFFFFF#32 (erring .sequence 0x20#32 coded)).eng = .busy 0xFFFFFFFF#32 ∧
      (holding 0xFFFFFFFF#32 (erring .sequence 0x20#32 coded)).Drains := ⟨rfl, rfl, rfl⟩

theorem witness_NopOnlyRetires :
    (holding 0#32 (erring .logic 5#32 coded)).eng = .busy 0#32 ∧
      ((holding 0x100#32 coded).eng = .busy 0x100#32 ∧ (holding 0x100#32 coded).ctl.errCode = .none) ∧
      (holding 0x100#32 (erring .logic 5#32 coded)).ctl.errCode ≠ .none := by decide +kernel

theorem witness_SresetLeavesTheResetState : (holding 1#32 (erring .logic 5#32 coded)).eng = .busy 1#32 := rfl

theorem witness_ErrClearAcknowledges : (holding 2#32 (erring .logic 5#32 coded)).eng = .busy 2#32 := rfl

/-- Every way a precondition of R132 fails. -/
theorem witness_FailedPreconditionRaisesSequence :
    (State.reset.tb.valid = false ∧ State.reset.cg.valid = false ∧ State.reset.enc.active = false ∧
      State.reset.dec.active = false) ∧
    (encoding 0#8 0#3 coded).enc.active = true ∧ (decoding 0#64 6 treed).dec.active = true := by decide +kernel

theorem witness_ErrorsDoNotNest :
    (holding 0x10#32 (erring .logic 5#32 coded)).ctl.errCode ≠ .none ∧
      ∃ t, engineTurn (holding 0x10#32 (erring .logic 5#32 coded)) = .next t :=
  ⟨by decide +kernel, next_of (by decide +kernel)⟩

/-- A command that raises none, and each error of R261 but ILLEGAL_CMD. -/
theorem witness_ErrorRecordedIsTheFirstThatApplies :
    (decode 0x10#32 = .ok .tbBuild ∧ errorOf .tbBuild (holding 0x10#32 counted) = none ∧
      ∃ t, engineTurn (holding 0x10#32 counted) = .next t) ∧
    (errorOf .tbBuild (holding 0x10#32 State.reset) = some .emptyInput ∧
      ∃ t, engineTurn (holding 0x10#32 State.reset) = .next t) ∧
    (decode 0x20#32 = .ok .cgGen ∧ errorOf .cgGen (holding 0x20#32 State.reset) = some .sequence ∧
      ∃ t, engineTurn (holding 0x20#32 State.reset) = .next t) ∧
    (decode 0x31#32 = .ok (.encSym 0#8) ∧
      errorOf (.encSym 0#8) (holding 0x31#32 (encoding 0#8 0#3 coded)) = some .logic ∧
      ∃ t, engineTurn (holding 0x31#32 (encoding 0#8 0#3 coded)) = .next t) ∧
    (decode 0x42#32 = .ok .decEnd ∧ errorOf .decEnd (holding 0x42#32 (decoding 1#64 6 treed)) = some .truncatedStream ∧
      ∃ t, engineTurn (holding 0x42#32 (decoding 1#64 6 treed)) = .next t) :=
  ⟨⟨by decide, by decide +kernel, next_of (by decide +kernel)⟩, ⟨by decide +kernel, next_of (by decide +kernel)⟩,
    ⟨by decide, by decide +kernel, next_of (by decide +kernel)⟩,
    ⟨by decide, by decide +kernel, next_of (by decide +kernel)⟩,
    by decide, by decide +kernel, next_of (by decide +kernel)⟩

/-- One leaf, four leaves, and all 256. -/
theorem witness_TbBuildCompletes :
    (lone.Inactive ∧ lone.SomeCount) ∧ (counted.Inactive ∧ counted.SomeCount) ∧ (flat.Inactive ∧ flat.SomeCount) :=
  ⟨⟨⟨rfl, rfl⟩, 97#8, by decide +kernel⟩, ⟨⟨rfl, rfl⟩, 65#8, by decide +kernel⟩, ⟨rfl, rfl⟩, 0#8, by decide +kernel⟩

theorem reset_no_count : ¬ State.reset.SomeCount := by
  rintro ⟨x, hx⟩
  exact hx (by simp [State.freqAt, State.reset, Vector.get])

theorem witness_TbBuildOfNoSymbolRaisesEmptyInput : State.reset.Inactive ∧ ¬ State.reset.SomeCount :=
  ⟨⟨rfl, rfl⟩, reset_no_count⟩

theorem lone_builds : ∃ t, exec .tbBuild lone = .next t := next_of (by decide +kernel)

theorem counted_builds : ∃ t, exec .tbBuild counted = .next t := next_of (by decide +kernel)

theorem witness_LeavesAreThePresentSymbols :
    (State.reset.Inactive ∧ ∃ t, exec .tbBuild State.reset = .next t) ∧
      (counted.Inactive ∧ ∃ t, exec .tbBuild counted = .next t ∧ t.tb.nleaf = 4) :=
  ⟨⟨⟨rfl, rfl⟩, next_of (by decide +kernel)⟩, ⟨rfl, rfl⟩, by
    obtain ⟨t, ht⟩ := counted_builds
    have h : (nextOf (exec .tbBuild counted)).map (fun t => t.tb.nleaf) = some 4 := by decide +kernel
    rw [ht] at h
    exact ⟨t, ht, by simpa [nextOf] using h⟩⟩

/-- One and four leaves; node 4 of the second is internal. -/
theorem witness_InternalNodesPairTheTwoSmallestLive :
    (counted.Inactive ∧ counted.SomeCount ∧ ∃ t, exec .tbBuild counted = .next t ∧ t.tb.nleaf.val ≤ 4 ∧ 4 ≤ t.tb.root.val) ∧
      (lone.Inactive ∧ lone.SomeCount ∧ ∃ t, exec .tbBuild lone = .next t) := by
  refine ⟨⟨⟨rfl, rfl⟩, ⟨65#8, by decide +kernel⟩, ?_⟩, ⟨rfl, rfl⟩, ⟨97#8, by decide +kernel⟩, lone_builds⟩
  obtain ⟨t, ht⟩ := counted_builds
  have h : (nextOf (exec .tbBuild counted)).map (fun t => (t.tb.nleaf.val ≤ 4 : Bool) && (4 ≤ t.tb.root.val : Bool)) =
    some true := by decide +kernel
  rw [ht] at h
  exact ⟨t, ht, by simpa [nextOf] using h⟩

theorem witness_BuiltArenaIsAValidTree : lone.Inactive ∧ lone.SomeCount ∧ ∃ t, exec .tbBuild lone = .next t :=
  ⟨⟨rfl, rfl⟩, ⟨97#8, by decide +kernel⟩, lone_builds⟩

theorem witness_RootFrequencyIsTheSumOfCounts :
    counted.Inactive ∧ counted.SomeCount ∧ ∃ t, exec .tbBuild counted = .next t :=
  ⟨⟨rfl, rfl⟩, ⟨65#8, by decide +kernel⟩, counted_builds⟩

/-- Two states that differ in the arena, the codes and the error record. -/
theorem witness_TreeDependsOnlyOnFreq :
    counted.Inactive ∧ (erring .logic 5#32 coded).Inactive ∧ counted.SomeCount ∧
      counted.freq = (erring .logic 5#32 coded).freq ∧ (∃ t, exec .tbBuild counted = .next t) ∧
      ∃ t, exec .tbBuild (erring .logic 5#32 coded) = .next t :=
  ⟨⟨rfl, rfl⟩, ⟨rfl, rfl⟩, ⟨65#8, by decide +kernel⟩, rfl, counted_builds, next_of (by decide +kernel)⟩

/-- 'B' has count 3, 'D' count 1. -/
theorem witness_HigherCountIsNoDeeper :
    counted.Inactive ∧ (∃ t, execAll [.tbBuild, .cgGen] counted = .next t) ∧ counted.freqAt 68#8 ≠ 0#32 ∧
      counted.freqAt 68#8 < counted.freqAt 66#8 :=
  ⟨⟨rfl, rfl⟩, next_of (by decide +kernel), by decide +kernel, by decide +kernel⟩

theorem witness_CgGenCompletes :
    (treed.Inactive ∧ treed.tb.valid = true) ∧ (loneTree.Inactive ∧ loneTree.tb.valid = true) :=
  ⟨⟨⟨rfl, rfl⟩, rfl⟩, ⟨rfl, rfl⟩, rfl⟩

theorem witness_SingleLeafCodeIsZero :
    loneTree.Inactive ∧ loneTree.tb.valid = true ∧ loneTree.tb.at loneTree.tb.root = .leaf 97#8 3#40 ∧ 98#8 ≠ 97#8 :=
  ⟨⟨rfl, rfl⟩, rfl, by decide +kernel, by decide⟩

/-- The first and the last leaf. -/
theorem witness_CodesAreTreePaths :
    treed.Inactive ∧ treed.tb.valid = true ∧ TreeOk treed.tb ∧ 2 ≤ treed.tb.nleaf.val ∧
      treed.tb.at 0 = .leaf 65#8 5#40 ∧ (3 : NodeIdx).val < treed.tb.nleaf.val ∧ treed.tb.at 3 = .leaf 68#8 1#40 :=
  ⟨⟨rfl, rfl⟩, rfl, tree1_ok, by decide +kernel, by decide +kernel, by decide +kernel, by decide +kernel⟩

theorem treed_codes : ∃ t, exec .cgGen treed = .next t := next_of (by decide +kernel)

theorem loneTree_codes : ∃ t, exec .cgGen loneTree = .next t := next_of (by decide +kernel)

/-- Several leaves, and one. -/
theorem witness_CodesOfExactlyTheLeaves :
    (treed.Inactive ∧ treed.tb.valid = true ∧ TreeOk treed.tb ∧ ∃ t, exec .cgGen treed = .next t) ∧
      (loneTree.Inactive ∧ loneTree.tb.valid = true ∧ TreeOk loneTree.tb ∧ ∃ t, exec .cgGen loneTree = .next t) :=
  ⟨⟨⟨rfl, rfl⟩, rfl, tree1_ok, treed_codes⟩, ⟨rfl, rfl⟩, rfl, loneTree_ok, loneTree_codes⟩

/-- The premises meet only where the two symbols are one; two symbols with codes meet the others. -/
theorem witness_NoCodeIsAPrefixOfAnother :
    treed.Inactive ∧ treed.tb.valid = true ∧ TreeOk treed.tb ∧
      ∃ t, exec .cgGen treed = .next t ∧ t.cg.lenAt 65#8 ≠ 0#8 ∧ t.cg.lenAt 68#8 ≠ 0#8 ∧
        t.cg.codeOf 68#8 <+: t.cg.codeOf 68#8 := by
  obtain ⟨t, ht⟩ := treed_codes
  have h : (nextOf (exec .cgGen treed)).map (fun t => (t.cg.lenAt 65#8, t.cg.lenAt 68#8)) = some (1#8, 3#8) := by
    decide +kernel
  rw [ht] at h
  simp only [nextOf, Option.map_some, Option.some.injEq, Prod.mk.injEq] at h
  exact ⟨⟨rfl, rfl⟩, rfl, tree1_ok, t, ht, by simp [h.1], by simp [h.2], [], by simp⟩

theorem witness_CodeLengthsAreBounded :
    (treed.Inactive ∧ treed.tb.valid = true ∧ TreeOk treed.tb ∧ ∃ t, exec .cgGen treed = .next t) ∧
      (loneTree.Inactive ∧ loneTree.tb.valid = true ∧ TreeOk loneTree.tb ∧ ∃ t, exec .cgGen loneTree = .next t) :=
  witness_CodesOfExactlyTheLeaves

theorem witness_EncBeginStartsAnEncode : coded.cg.valid = true ∧ coded.enc.active = false := ⟨rfl, rfl⟩

/-- No bit pending, and seven; and, undrained, a code that completes no byte. -/
theorem witness_EncSymAppendsTheCode :
    ((undrained (encoding 0#8 0#3 coded)).enc.active = true ∧ (undrained (encoding 0#8 0#3 coded)).cg.lenAt 68#8 ≠ 0#8 ∧
      (undrained (encoding 0#8 0#3 coded)).enc.accCnt.toNat +
        ((undrained (encoding 0#8 0#3 coded)).cg.lenAt 68#8).toNat < 8) ∧
    ((encoding 0#8 0#3 coded).enc.active = true ∧ (encoding 0#8 0#3 coded).cg.lenAt 65#8 ≠ 0#8 ∧
      (encoding 0#8 0#3 coded).host.drainsEnc = true) ∧
    ((encoding 0xFE#8 7#3 coded).enc.active = true ∧ (encoding 0xFE#8 7#3 coded).cg.lenAt 68#8 ≠ 0#8 ∧
      (encoding 0xFE#8 7#3 coded).host.drainsEnc = true ∧
      ∀ i, i < 8 - (encoding 0xFE#8 7#3 coded).enc.accCnt.toNat → (encoding 0xFE#8 7#3 coded).enc.acc.getLsbD i = false) := by
  decide +kernel

theorem witness_EncSymOfAnAbsentSymbolRaisesLogic :
    (encoding 0#8 1#3 coded).enc.active = true ∧ (encoding 0#8 1#3 coded).cg.lenAt 69#8 = 0#8 := by decide +kernel

theorem witness_EncFlushEndsTheEncode :
    ((encoding 0#8 0#3 coded).enc.active = true ∧ (encoding 0#8 0#3 coded).enc.accCnt = 0#3) ∧
      ((encoding 0x80#8 1#3 coded).enc.active = true ∧ (encoding 0x80#8 1#3 coded).enc.accCnt ≠ 0#3 ∧
        (encoding 0x80#8 1#3 coded).host.drainsEnc = true) := by decide +kernel

/-- A sequence with symbols, and the empty one. -/
theorem witness_EncodeProducesThePackedCodes :
    coded.cg.valid = true ∧ coded.enc.active = false ∧ coded.host.drainsEnc = true ∧
      (∀ x ∈ [65#8, 68#8, 68#8], coded.cg.lenAt x ≠ 0#8) ∧ ∀ x ∈ ([] : List Byte), coded.cg.lenAt x ≠ 0#8 := by
  decide +kernel

theorem witness_DecBeginStartsADecode : treed.tb.valid = true ∧ treed.dec.active = false := ⟨rfl, rfl⟩

/-- A valid tree with the cursor at ROOT and off it; the single leaf; from node 4 a 1 reaches leaf 2's sibling 3, and from ROOT a 1 reaches the internal node 5. -/
theorem witness_WalkedBitMovesTheCursor :
    (TreeOk treed.tb ∧ CursorOk (decoding 1#64 6 treed) ∧ CursorOk (decoding 1#64 4 treed) ∧ 2 ≤ treed.tb.nleaf.val) ∧
    loneTree.tb.at loneTree.tb.root = .leaf 97#8 3#40 ∧
    ((decoding 1#64 4 treed).tb.at (decoding 1#64 4 treed).tb.root).isLeaf = false ∧
    (decoding 1#64 4 treed).tb.at (decoding 1#64 4 treed).dec.cursor = .internal 3 2 3#40 ∧
    (decoding 1#64 4 treed).tb.at (if false then 2 else 3) = .leaf 68#8 1#40 ∧
    (decoding 1#64 6 treed).tb.at (decoding 1#64 6 treed).dec.cursor = .internal 0 5 11#40 ∧
    ((decoding 1#64 6 treed).tb.at (if true then 5 else 0)).isLeaf = false := by
  refine ⟨⟨tree1_ok, .inl rfl, .inr (by decide +kernel), by decide +kernel⟩, ?_⟩
  decide +kernel

/-- No bit owed; fewer than eight; eight or more; and, undrained, a bit that pushes nothing. -/
theorem witness_DecByteWalksItsBits :
    ((undrained (decoding 1#64 6 treed)).dec.active = true ∧
      ((undrained (decoding 1#64 6 treed)).walkedBy 0x80#8).decOut.pending =
        (undrained (decoding 1#64 6 treed)).decOut.pending) ∧
    ((decoding 0#64 6 treed).dec.active = true ∧ (decoding 0#64 6 treed).dec.remain = 0#64) ∧
    ((decoding 3#64 6 treed).dec.active = true ∧ (decoding 3#64 6 treed).host.drainsDec = true) ∧
    ((decoding 20#64 4 treed).dec.active = true ∧ (decoding 20#64 4 treed).host.drainsDec = true) := by decide +kernel

/-- A clean end; bits owed at ROOT; nothing owed off ROOT. -/
theorem witness_DecEndTellsACleanStopFromATruncatedOne :
    ((decoding 0#64 6 treed).dec.active = true ∧ (decoding 0#64 6 treed).dec.remain = 0#64 ∧
      (decoding 0#64 6 treed).dec.cursor = (decoding 0#64 6 treed).tb.root) ∧
    (decoding 1#64 6 treed).dec.remain ≠ 0#64 ∧
    (decoding 0#64 4 treed).dec.cursor ≠ (decoding 0#64 4 treed).tb.root := by decide +kernel

/-- One symbol three times, whose tree is a single leaf. -/
theorem witness_DecodeOfTheEncodedStreamIsTheInput :
    [97#8, 97#8, 97#8] ≠ ([] : List Byte) ∧ (∀ x, (lone.freqAt x).toNat = [97#8, 97#8, 97#8].count x) ∧
      lone.Inactive ∧ lone.Drains := by
  refine ⟨by decide, ?_, ⟨rfl, rfl⟩, ⟨rfl, rfl⟩⟩
  decide +kernel

/-- Code bit 255; the end entries of each array. -/
theorem witness_ArrayReadsReturnTheEntries :
    255 / 32 < 8 ∧ coded.rstN = true ∧ coded.eng = .idle ∧ coded.cg.valid = true ∧ coded.tb.valid = true ∧
      (0 : NodeIdx).val + 2 ≤ 2 * coded.tb.nleaf.val ∧ (6 : NodeIdx).val + 2 ≤ 2 * coded.tb.nleaf.val := by
  decide +kernel

/-- The ends of each reserved range, and the idle engine. -/
theorem witness_ScalarReadsReturnTheRegisters :
    (0x0024#16 &&& 0xFFFC#16 = 0x0024#16 ∧ 0x003F#16 &&& 0xFFFC#16 = 0x003C#16 ∧
      (0x005C#16 ≤ 0x005C#16 ∧ 0x005C#16 < 0x0400#16) ∧ (0x0C00#16 ≤ 0x0FFF#16 ∧ 0x0FFF#16 < 0x1000#16) ∧
      (0x37FC#16 ≤ 0x37FC#16 ∧ 0x37FC#16 < 0x4000#16) ∧ 0x4FF8#16 ≤ 0x4FF8#16 ∧ 0x4FF8#16 ≤ 0xFFFF#16) ∧
    (holding 0x10#32 coded).rstN = true ∧ coded.rstN = true ∧ coded.eng = .idle := by decide +kernel

/-- No tree; the first entry beyond a tree's; no codes. -/
theorem witness_StaleArrayReadsAreFreeDraws :
    (State.reset.rstN = true ∧ State.reset.eng = .idle ∧ csrAt 0x3000#16 = .nodeInfo 0 ∧ State.reset.tb.valid = false) ∧
    (treed.rstN = true ∧ treed.eng = .idle ∧ csrAt 0x403C#16 = .nodeFreqHi 7 ∧
      2 * treed.tb.nleaf.val < (7 : NodeIdx).val + 2) ∧
    (treed.cg.valid = false ∧ csrAt 0x0BFC#16 = .codeLen 255#8 ∧ csrAt 0x2FFC#16 = .codeBits 255#8 7) := by
  decide +kernel

/-- An illegal word, a rejected word, a command of each row that raises nothing, one of each row that raises an error, and
the three that run while an error is pending. -/
theorem witness_BusyReadsAreDrawsWhereTheCommandWrites :
    (holding 3#32 coded).rstN = true ∧ decode 3#32 = .error .unknownOp ∧
    ((holding 0x10#32 (erring .logic 5#32 coded)).ctl.errCode ≠ .none ∧ decode 0x10#32 ≠ .ok .nop ∧
      decode 0x10#32 ≠ .ok .sreset ∧ decode 0x10#32 ≠ .ok .errClear) ∧
    (holding 0x10#32 counted).rstN = true ∧ (holding 0x10#32 counted).ctl.errCode = .none ∧
    (errorOf .tbBuild (holding 0x10#32 counted) = none ∧ errorOf .tbBuild (holding 0x10#32 State.reset) ≠ none) ∧
    (errorOf .cgGen (holding 0x20#32 treed) = none ∧ errorOf .cgGen (holding 0x20#32 State.reset) ≠ none) ∧
    (errorOf .encBegin (holding 0x30#32 coded) = none ∧ errorOf .encBegin (holding 0x30#32 State.reset) ≠ none) ∧
    (errorOf (.encSym 65#8) (holding 0x4131#32 (encoding 0#8 0#3 coded)) = none ∧
      errorOf (.encSym 69#8) (holding 0x4531#32 (encoding 0#8 0#3 coded)) ≠ none) ∧
    (errorOf .encFlush (holding 0x32#32 (encoding 0#8 0#3 coded)) = none ∧
      errorOf .encFlush (holding 0x32#32 State.reset) ≠ none) ∧
    (errorOf .decBegin (holding 0x40#32 treed) = none ∧ errorOf .decBegin (holding 0x40#32 State.reset) ≠ none) ∧
    (errorOf (.decByte 0#8) (holding 0x41#32 (decoding 8#64 6 treed)) = none ∧
      errorOf (.decByte 0#8) (holding 0x41#32 State.reset) ≠ none) ∧
    (errorOf .decEnd (holding 0x42#32 (decoding 0#64 6 treed)) = none ∧
      errorOf .decEnd (holding 0x42#32 (decoding 1#64 6 treed)) ≠ none) ∧
    (holding 2#32 (erring .logic 5#32 coded)).ctl.errCode ≠ .none ∧ decode 0#32 = .ok .nop ∧ decode 1#32 = .ok .sreset ∧
    decode 2#32 = .ok .errClear := by decide +kernel

theorem witness_CsrWritesHaveTheirEffects :
    (coded.rstN = true ∧ coded.eng = .idle) ∧ ((holding 0x10#32 coded).rstN = true ∧ (holding 0x10#32 coded).eng ≠ .idle) := by
  decide +kernel

/-- The words around the writable ones: ERR_INFO, FREQ's two neighbours, the word after DEC_NBITS_HI, the last address. -/
theorem witness_OtherCsrWritesHaveNoEffect :
    ([0x0000#16, 0x000C#16, 0x0048#16, 0x03FF#16, 0x0800#16, 0xFFFF#16].all fun a =>
      (a &&& 0xFFFC#16) ≠ 0x0004#16 && (a &&& 0xFFFC#16) ≠ 0x0008#16 && (a &&& 0xFFFC#16) ≠ 0x0040#16 &&
        (a &&& 0xFFFC#16) ≠ 0x0044#16 && (a < 0x0400#16 ∨ 0x0800#16 ≤ a)) = true := by decide +kernel

/-- The host offers 0x10 and NOP. -/
def offering (s : State) : State := { s with host := { s.host with offers := [0x10#32, 0#32] } }

theorem witness_OfferedWordWaitsForTheEngine :
    ((offering coded).host.offers = 0x10#32 :: [0#32] ∧ (offering coded).rstN = true ∧ (offering coded).eng = .idle) ∧
    ((offering (holding 1#32 coded)).host.offers = 0x10#32 :: [0#32] ∧ (offering (holding 1#32 coded)).eng ≠ .idle) ∧
    ((offering { coded with rstN := false }).rstN = false ∧
      (offering { coded with rstN := false }).host.offers = 0x10#32 :: [0#32]) := by decide +kernel

/-- ENC_FLUSH issued while ENC_SYM 'B' is under way. -/
theorem witness_OfferedWordWaitsForTheEngine_issue :
    (holding 0x4231#32 (encoding 0#8 0#3 coded)).rstN = true ∧
      (holding 0x4231#32 (encoding 0#8 0#3 coded)).host.offers = [] ∧
      (nextOf (engineTurn { holding 0x4231#32 (encoding 0#8 0#3 coded) with
        host := { (holding 0x4231#32 (encoding 0#8 0#3 coded)).host with offers := [0x32#32] } })).isSome = true := by
  decide +kernel

/-- Each stop: a byte completed by ENC_SYM, one flushed, and a symbol decoded; and an undrained state in which ENC_SYM
completes no byte, ENC_FLUSH has none pending, and DEC_BYTE pushes nothing. -/
theorem witness_OnlyAnUndrainedPushStops :
    (faultOf (exec (.encSym 65#8) (undrained (encoding 0xFE#8 7#3 coded))) = some .encOutUndrained ∧
      faultOf (exec .encFlush (undrained (encoding 0x80#8 1#3 coded))) = some .encOutUndrained ∧
      faultOf (exec (.decByte 0#8) (undrained (decoding 1#64 6 treed))) = some .decOutUndrained) ∧
    ((nextOf (exec (.encSym 65#8) (undrained (encoding 0#8 6#3 coded)))).isSome = true ∧
      (nextOf (exec .encFlush (undrained (encoding 0#8 0#3 coded)))).isSome = true ∧
      (nextOf (exec (.decByte 0x80#8) (undrained (decoding 1#64 6 treed)))).isSome = true) := by decide +kernel

/-- A state that meets the invariant and a step from it, the block BUSY with TB_BUILD. -/
theorem witness_StepKeepsTheInvariant :
    Inv (holding 0x10#32 coded) ∧ ∃ t, step (holding 0x10#32 coded) = .next t :=
  ⟨{ coded_inv with
      enc_needs_codes := fun _ => rfl, dec_needs_tree := fun _ => rfl, cursor := coded_inv.cursor,
      no_error := coded_inv.no_error, done_idle := fun h => absurd h (by decide +kernel),
      in_reset := fun h => absurd h (by decide +kernel) }, next_of (by decide +kernel)⟩

theorem not_resets {s : State} (h1 : (nextTurn s).1 ≠ .setRst false)
    (h2 : (nextTurn s).1 ≠ .engine ∨ s.eng ≠ .busy (encode .sreset)) : ¬ ResetsNext s := by
  rintro (h | ⟨h, h'⟩)
  · exact h1 h
  · rcases h2 with h2 | h2
    · exact h2 h
    · exact h2 h'

/-- An encode is active and TB_BUILD, which it forbids, comes next; a decode is active and a byte comes next. -/
theorem witness_TreeAndCodesStayWhileActive :
    (¬ (holding 0x10#32 (encoding 0#8 0#3 coded)).Inactive ∧ ¬ ResetsNext (holding 0x10#32 (encoding 0#8 0#3 coded)) ∧
      ∃ t, step (holding 0x10#32 (encoding 0#8 0#3 coded)) = .next t) ∧
    (¬ (holding 0x41#32 (decoding 8#64 6 treed)).Inactive ∧ ¬ ResetsNext (holding 0x41#32 (decoding 8#64 6 treed)) ∧
      ∃ t, step (holding 0x41#32 (decoding 8#64 6 treed)) = .next t) :=
  ⟨⟨fun h => absurd h.1 (by decide +kernel), not_resets (by decide +kernel) (by decide +kernel),
      next_of (by decide +kernel)⟩,
    fun h => absurd h.2 (by decide +kernel), not_resets (by decide +kernel) (by decide +kernel),
    next_of (by decide +kernel)⟩

theorem changed {s : State} {α : Type} [DecidableEq α] (f : State → α) (a : α)
    (h : (nextOf (step s)).map (fun t => decide (f t = a)) = some true) : ∃ t, step s = .next t ∧ f t = a := by
  obtain ⟨t, ht⟩ := next_of (o := step s) (by cases hn : nextOf (step s) <;> simp [hn] at h ⊢)
  rw [ht] at h
  exact ⟨t, ht, by simpa [nextOf] using h⟩

/-- A host write to FREQ, and SRESET. -/
theorem witness_OnlyTheHostWritesFreq :
    (∃ t, step (turning (.csrWrite 0x0504#16 9#32) counted) = .next t ∧
      decide (t.freq ≠ (turning (.csrWrite 0x0504#16 9#32) counted).freq) = true) ∧
    ∃ t, step (holding 1#32 counted) = .next t ∧ decide (t.freq ≠ (holding 1#32 counted).freq) = true :=
  ⟨changed _ _ (by decide +kernel), changed _ _ (by decide +kernel)⟩

/-- TB_BUILD, SRESET, and rst_n. -/
theorem witness_OnlyABuildInvalidatesTheCodes :
    coded.cg.valid = true ∧ (∃ t, step (holding 0x10#32 coded) = .next t ∧ t.cg.valid = false) ∧
      (∃ t, step (holding 1#32 coded) = .next t ∧ t.cg.valid = false) ∧
      ∃ t, step (turning (.setRst false) coded) = .next t ∧ t.cg.valid = false :=
  ⟨rfl, changed (fun t => t.cg.valid) _ (by decide +kernel), changed (fun t => t.cg.valid) _ (by decide +kernel),
    changed (fun t => t.cg.valid) _ (by decide +kernel)⟩

/-- A turn that pushes, and one in which the host takes a byte. -/
theorem witness_PushedBytesAreNeverTakenBack :
    (¬ ResetsNext (holding 0x32#32 (encoding 0x80#8 1#3 coded)) ∧
      ∃ t, step (holding 0x32#32 (encoding 0x80#8 1#3 coded)) = .next t ∧ t.encOut.all = [0x80#8]) ∧
    ¬ ResetsNext (turning .takeEnc (pushEnc 1#8 coded)) ∧
      ∃ t, step (turning .takeEnc (pushEnc 1#8 coded)) = .next t ∧ t.encOut.taken = [1#8] :=
  ⟨⟨not_resets (by decide +kernel) (by decide +kernel), changed (fun t => t.encOut.all) _ (by decide +kernel)⟩,
    not_resets (by decide +kernel) (by decide +kernel), changed (fun t => t.encOut.taken) _ (by decide +kernel)⟩

/-- The quiet block; an IDLE block whose host reads; and one that accepts a command. -/
theorem witness_IdleBlockChangesOnlyByTheHost :
    (coded.eng = .idle ∧ coded.host.script = [] ∧ coded.host.offers = []) ∧
    ((turning (.csrRead 0x0008#16) coded).eng = .idle ∧
      (∀ a v, (nextTurn (turning (.csrRead 0x0008#16) coded)).1 ≠ .csrWrite a v) ∧
      (nextTurn (turning (.csrRead 0x0008#16) coded)).1 ≠ .setRst false ∧
      ∃ t, step (turning (.csrRead 0x0008#16) coded) = .next t) ∧
    ((turning .accept (offering coded)).eng = .idle ∧
      (∀ a v, (nextTurn (turning .accept (offering coded))).1 ≠ .csrWrite a v) ∧
      (nextTurn (turning .accept (offering coded))).1 ≠ .setRst false ∧
      ∃ t, step (turning .accept (offering coded)) = .next t ∧ t.eng = .busy 0x10#32) :=
  ⟨⟨rfl, rfl, rfl⟩, ⟨rfl, fun a v => by simp [nextTurn, turning], by simp [nextTurn, turning], ⟨_, rfl⟩⟩,
    rfl, fun a v => by simp [nextTurn, turning], by simp [nextTurn, turning], changed (fun t => t.eng) _ (by decide +kernel)⟩

/-- NOP has retired and irq is 1 by DONE. -/
def doneIrq : State := { coded with ctl := { coded.ctl with done := true, irqEnDone := true } }

theorem doneIrq_inv : Inv doneIrq :=
  { coded_inv with
    enc_needs_codes := fun _ => rfl, dec_needs_tree := fun _ => rfl, cursor := coded_inv.cursor,
    no_error := fun _ => rfl, no_format := by decide +kernel, done_idle := fun _ => rfl,
    in_reset := fun h => absurd h (by decide +kernel) }

/-- STATUS read with DONE = 1 and BUSY = 0, and irq at 1 by DONE alone. -/
theorem witness_HeldWordStaysUntilRetirement_done :
    (Inv doneIrq ∧ doneIrq.rstN = true ∧ (0x000A#16 &&& 0xFFFC#16 : Addr) = 0x0008#16 ∧
      (csrRead 0x000A#16 doneIrq).host.reads = doneIrq.host.reads ++ [0x00E#32] ∧ (0x00E#32 : Word).getLsbD 1 = true ∧
      (0x00E#32 : Word).getLsbD 0 = false) ∧
    doneIrq.irq = true ∧ doneIrq.ctl.errCode = .none ∧ doneIrq.ctl.busyWr = false :=
  ⟨⟨doneIrq_inv, by decide +kernel⟩, by decide +kernel⟩

/-- The host writes CTRL while the engine holds CG_GEN; DONE is 1 only in a state no run reaches. -/
theorem witness_HeldWordStaysUntilRetirement :
    (∃ t, step (turning (.csrWrite 0x0004#16 3#32) { doneIrq with eng := .busy 0x20#32 }) = .next t ∧ t.ctl.done = true) ∧
    (turning (.csrWrite 0x0004#16 3#32) (holding 0x20#32 coded)).eng = .busy 0x20#32 ∧
      (nextTurn (turning (.csrWrite 0x0004#16 3#32) (holding 0x20#32 coded))).1 ≠ .engine ∧
      (nextTurn (turning (.csrWrite 0x0004#16 3#32) (holding 0x20#32 coded))).1 ≠ .setRst false ∧
      ∃ t, step (turning (.csrWrite 0x0004#16 3#32) (holding 0x20#32 coded)) = .next t :=
  ⟨changed (fun t => t.ctl.done) _ (by decide +kernel), rfl, by simp [nextTurn, turning], by simp [nextTurn, turning],
    ⟨_, rfl⟩⟩

/-- A byte waiting on each stream, and none. -/
theorem witness_TakeTurnsMoveTheOldestByte :
    (pushEnc 2#8 (pushEnc 1#8 coded)).encOut.pending = 1#8 :: [2#8] ∧
      (pushDec 2#8 (pushDec 1#8 coded)).decOut.pending = 1#8 :: [2#8] ∧ coded.encOut.pending = [] ∧
      coded.decOut.pending = [] := by decide +kernel

end Sys2Proof.Machine.Tests
end

section
/-! PROOFS. The obligations about CSR addresses (spec/20_memory.md R72). -/

namespace Sys2Proof.Machine

/-- A read depends on its address only through the register the address map gives it (R73, R74). -/
theorem csrRead_congr {a b : Addr} (h : csrAt a = csrAt b) (s : State) : csrRead a s = csrRead b s := by
  unfold csrRead
  rw [h]

/-- A write depends on its address only through the register the address map gives it (R73, R75). -/
theorem csrWrite_congr {a b : Addr} (h : csrAt a = csrAt b) (v : Word) (s : State) :
    csrWrite a v s = csrWrite b v s := by
  unfold csrWrite
  rw [h]

/-- Settles O38: the address map sends `a` and `a & 0xFFFC` to the same register, and an access sees nothing else of its
address. -/
theorem misalignedAccessReachesTheWord : Obligations.MisalignedAccessReachesTheWord := by
  intro a v s
  have same_register : csrAt a = csrAt (a &&& 0xFFFC#16) := (csrAt_masked a).symm
  exact ⟨csrRead_congr same_register s, csrWrite_congr same_register v s⟩

end Sys2Proof.Machine
end

section
/-! PROOFS. The obligations about the acceptance gate, NOP and ERR_CLEAR (spec/40_control.md R130, R133, R135). -/

namespace Sys2Proof.Machine

/-- The commands that run while an error is pending, by name (R130). -/
theorem passesPendingError_iff (i : Instr) :
    passesPendingError i = true ↔ i = .nop ∨ i = .sreset ∨ i = .errClear := by
  cases i <;> simp [passesPendingError]

/-- The gate rejects exactly while an error is pending and the word is none of NOP, SRESET, ERR_CLEAR (R130). -/
theorem gateRejects_iff (d : Except Illegal Instr) (s : State) :
    gateRejects d s = true ↔
      s.ctl.errCode ≠ .none ∧ d ≠ .ok .nop ∧ d ≠ .ok .sreset ∧ d ≠ .ok .errClear := by
  cases d with
  | error e => simp [gateRejects]
  | ok i => simp [gateRejects, ← Bool.not_eq_true, passesPendingError_iff]

/-- A word the gate rejects only retires (R130). -/
theorem engineTurn_rejected {s : State} {w : Word} (held : s.eng = .busy w)
    (rejected : gateRejects (decode w) s = true) : engineTurn s = .next s.retired := by
  simp only [engineTurn, held, execute, if_pos rejected]
  rfl

/-- An illegal word with no error pending records ILLEGAL_CMD with the word and retires (R130, R255). -/
theorem engineTurn_illegal {s : State} {w : Word} {e : Illegal} (held : s.eng = .busy w)
    (no_error : s.ctl.errCode = .none) (illegal : decode w = .error e) :
    engineTurn s = .next (s.withError .illegalCmd w).retired := by
  have let_through : ¬ gateRejects (.error e) s = true := fun h => ((gateRejects_iff _ s).mp h).1 no_error
  simp only [engineTurn, held, execute, illegal, if_neg let_through]
  rfl

/-- A legal word with no error pending, or whose command runs under one, that completes its own rule retires (R130). -/
theorem engineTurn_completes {s t : State} {w : Word} {i : Instr} (held : s.eng = .busy w) (legal : decode w = .ok i)
    (passes : s.ctl.errCode = .none ∨ passesPendingError i = true) (completes : exec i s = .next t) :
    engineTurn s = .next t.retired := by
  rw [engineTurn_exec held legal passes, completes]
  rfl

/-- A legal word the gate lets through whose own rule stops: the turn stops with the same fault (R131, R290). -/
theorem engineTurn_stops {s : State} {w : Word} {i : Instr} {r : Fault} (held : s.eng = .busy w)
    (legal : decode w = .ok i) (passes : s.ctl.errCode = .none ∨ passesPendingError i = true)
    (stops : exec i s = .fault r) : engineTurn s = .fault r := by
  rw [engineTurn_exec held legal passes, stops]
  rfl

/-- Settles O6: one law of the engine's turn for each branch of the gate. -/
theorem acceptanceGate : Obligations.AcceptanceGate := by
  intro s w held
  refine ⟨fun pending h_nop h_sreset h_errClear => ?_, fun no_error ⟨e, illegal⟩ => ?_, fun i legal hpass => ?_⟩
  · exact engineTurn_rejected held ((gateRejects_iff _ s).mpr ⟨pending, h_nop, h_sreset, h_errClear⟩)
  · exact engineTurn_illegal held no_error illegal
  · have passes := hpass.imp_right (passesPendingError_iff i).mpr
    exact ⟨fun t => engineTurn_completes held legal passes, fun r => engineTurn_stops held legal passes⟩

/-- NOP's own rule leaves the state as it is (R133). -/
@[simp] theorem exec_nop (s : State) : exec .nop s = .next s := rfl

/-- ERR_CLEAR's own rule makes ERR_CODE and ERR_INFO 0 and leaves the rest as it is (R135, R263). -/
@[simp] theorem exec_errClear (s : State) : exec .errClear s = .next (s.withError .none 0#32) := rfl

/-- NOP's OP with a nonzero IMM8 is illegal, NOP's format being N (R107 (c), R133). -/
theorem decode_nop_with_operand : decode 0x00000100#32 = .error .operandNotZero := by decide

/-- Settles O8: NOP passes the gate whether or not an error is pending; 0x00000100 is illegal, so it is rejected under a
pending error and raises ILLEGAL_CMD otherwise. -/
theorem nopOnlyRetires : Obligations.NopOnlyRetires := by
  intro s
  refine ⟨exec_nop s, fun held => ?_, fun held => ⟨fun no_error => ?_, fun pending => ?_⟩⟩
  · have legal : decode 0x00000000#32 = .ok .nop := by decide
    exact engineTurn_completes held legal (.inr rfl) (exec_nop s)
  · exact engineTurn_illegal held no_error decode_nop_with_operand
  · have rejected : gateRejects (decode 0x00000100#32) s = true := by
      rw [decode_nop_with_operand]
      exact (gateRejects_iff _ s).mpr ⟨pending, nofun, nofun, nofun⟩
    exact engineTurn_rejected held rejected

/-- Settles O10: ERR_CLEAR passes the gate whether or not an error is pending, and its own rule is the acknowledgement. -/
theorem errClearAcknowledges : Obligations.ErrClearAcknowledges := by
  intro s
  have legal : decode 0x00000002#32 = .ok .errClear := by decide
  exact ⟨exec_errClear s, fun held => engineTurn_completes held legal (.inr rfl) (exec_errClear s)⟩

end Sys2Proof.Machine
end

section
/-! PROOFS. The obligations about TB_BUILD's leaves, its internal nodes and its dependence on FREQ
(spec/41_tree_builder.md R151 to R161). -/

namespace Sys2Proof.Machine

/-- TB_BUILD's precondition holds when nothing is active (R132). -/
theorem State.Inactive.tbBuild_allowed {s : State} (inactive : s.Inactive) : sequenceFails .tbBuild s = false := by
  obtain ⟨enc_idle, dec_idle⟩ := inactive
  simp [sequenceFails, enc_idle, dec_idle]

/-- The list of present symbols is empty only with every count at 0 (R151, R158). -/
theorem presentSymbols_ne_nil_iff (s : State) : s.presentSymbols ≠ [] ↔ s.SomeCount := by
  simp only [ne_eq, List.eq_nil_iff_forall_not_mem, mem_presentSymbols, State.SomeCount, not_forall, not_not]

/-- The tree registers after TB_BUILD: those of the builder, or none for an empty FREQ (R152, R158). -/
theorem tbBuild_tree {s t : State} (inactive : s.Inactive) (built : exec .tbBuild s = .next t) :
    (¬ s.SomeCount ∧ t.tb = { s.tb with valid := false, nleaf := 0, root := 0 }) ∨
      (s.SomeCount ∧ t.tb = builtTree s) := by
  rw [← presentSymbols_ne_nil_iff]
  simp only [exec, execTbBuild, inactive.tbBuild_allowed, Bool.false_eq_true, if_false] at built
  by_cases present : s.presentSymbols = []
  · rw [if_pos present] at built
    cases built
    exact .inl ⟨not_not_intro present, rfl⟩
  · rw [if_neg present] at built
    cases built
    exact .inr ⟨present, rfl⟩

/-- With a count, TB_BUILD leaves the builder's tree (R152). -/
theorem tbBuild_builds {s t : State} (inactive : s.Inactive) (counted : s.SomeCount)
    (built : exec .tbBuild s = .next t) : t.tb = builtTree s := by
  obtain ⟨empty, -⟩ | ⟨-, tree⟩ := tbBuild_tree inactive built
  · exact absurd counted empty
  · exact tree

/-! ### The leaves (R151, R157) -/

/-- A leaf of the builder's tree: the k-th present symbol with its zero-extended count (R155, R157). -/
theorem builtTree_leaf (s : State) (k : Nat) (hk : k < s.presentSymbols.length) :
    (builtTree s).nodeNo k = .leaf s.presentSymbols[k] ((s.freqAt s.presentSymbols[k]).setWidth 40) := by
  have some_present : s.presentSymbols ≠ [] := List.ne_nil_of_length_pos (Nat.zero_lt_of_lt hk)
  have stored := builtTree_nodeNo s some_present k (by omega)
  rw [builtNodes_leaf s k hk] at stored
  exact (Option.some.inj stored).symm

/-- After any TB_BUILD, of an empty FREQ too, NLEAF counts the present symbols and NODE[k] is the k-th one's leaf. -/
theorem tbBuild_leaves {s t : State} (inactive : s.Inactive) (built : exec .tbBuild s = .next t) :
    t.tb.nleaf.val = s.presentSymbols.length ∧
      ∀ k (hk : k < s.presentSymbols.length),
        t.tb.nodeNo k = .leaf s.presentSymbols[k] ((s.freqAt s.presentSymbols[k]).setWidth 40) := by
  obtain ⟨empty, tree⟩ | ⟨-, tree⟩ := tbBuild_tree inactive built <;> rw [tree]
  · rw [← presentSymbols_ne_nil_iff, not_not] at empty
    simp [empty]
  · exact ⟨builtTree_nleaf s, builtTree_leaf s⟩

/-- Settles O16: NODE[k] is the leaf of the k-th present symbol, and the present symbols ascend. -/
theorem leavesAreThePresentSymbols : Obligations.LeavesAreThePresentSymbols := by
  intro s t inactive built
  obtain ⟨nleaf, leaf⟩ := tbBuild_leaves inactive built
  rw [nleaf]
  refine ⟨fun x f => ⟨?_, ?_⟩, fun j k hjk hk => ?_⟩
  · rintro ⟨k, hk, node⟩
    obtain ⟨rfl, rfl⟩ := Node.leaf.inj ((leaf k hk).symm.trans node)
    exact ⟨(mem_presentSymbols s _).mp (List.getElem_mem hk), rfl⟩
  · rintro ⟨present, rfl⟩
    obtain ⟨k, hk, rfl⟩ := List.mem_iff_getElem.mp ((mem_presentSymbols s x).mpr present)
    exact ⟨k, hk, leaf k hk⟩
  · have ascend := List.pairwise_iff_getElem.mp (presentSymbols_ascend s) j k (hjk.trans hk) hk hjk
    simpa [leaf j (hjk.trans hk), leaf k hk, Node.symBefore] using ascend

/-! ### The internal nodes (R153 to R156) -/

theorem TreeRegs.keyLt.trans {t : TreeRegs} {a b c : Nat} (hab : t.keyLt a b) (hbc : t.keyLt b c) : t.keyLt a c := by
  unfold TreeRegs.keyLt at *
  omega

theorem TreeRegs.keyLt.ne {t : TreeRegs} {a b : Nat} (h : t.keyLt a b) : a ≠ b := by
  rintro rfl
  simp [TreeRegs.keyLt] at h

/-- Settles O17: the builder takes the smallest key, then the smallest of the rest; the left child's key is below that of
every other live node because it is below the right child's. -/
theorem internalNodesPairTheTwoSmallestLive : Obligations.InternalNodesPairTheTwoSmallestLive := by
  intro s t inactive counted built k from_nleaf to_root
  have present := (presentSymbols_ne_nil_iff s).mpr counted
  rw [tbBuild_builds inactive counted built] at from_nleaf to_root ⊢
  rw [builtTree_nleaf] at from_nleaf
  rw [builtTree_root s present] at to_root
  have some_leaf := List.length_pos_iff.mpr present
  obtain ⟨l, r, f, node, l_live, r_live, l_before_r, r_least, sum⟩ :=
    builtTree_internal s present k from_nleaf (by omega)
  refine ⟨l, r, f, node, l_live, r_live, fun same => l_before_r.ne (congrArg Fin.val same), ?_, ?_, sum⟩
  · intro m live not_l
    obtain is_l | is_r | after_r := r_least m live
    · exact absurd is_l not_l
    · exact is_r ▸ l_before_r
    · exact l_before_r.trans after_r
  · intro m live not_l not_r
    exact ((r_least m live).resolve_left not_l).resolve_left not_r

/-! ### What the tree depends on (R161) -/

/-- The leaves read FREQ alone (R151, R157). -/
theorem leafNodes_congr {s₁ s₂ : State} (same_freq : s₁.freq = s₂.freq) : leafNodes s₁ = leafNodes s₂ := by
  have same_count : s₁.freqAt = s₂.freqAt := funext fun x => by simp only [State.freqAt, same_freq]
  unfold leafNodes State.presentSymbols
  rw [same_count]

/-- The list of nodes reads FREQ alone: the pairing loop starts from the leaves (R161). -/
theorem builtNodes_congr {s₁ s₂ : State} (same_freq : s₁.freq = s₂.freq) : builtNodes s₁ = builtNodes s₂ := by
  simp only [builtNodes, leafNodes_congr same_freq]

/-- A node up to ROOT is one the build wrote, not one the arena held before (R152). -/
theorem builtTree_at_of_le_root {s : State} (present : s.presentSymbols ≠ []) {k : NodeIdx}
    (to_root : k.val ≤ (builtTree s).root.val) : (builtNodes s)[k.val]? = some ((builtTree s).at k) := by
  rw [builtTree_root s present] at to_root
  have some_leaf := List.length_pos_iff.mpr present
  simpa using builtTree_nodeNo s present k.val (by omega)

/-- Settles O20: NLEAF, ROOT and the nodes in use come from the list of nodes, which reads FREQ alone. -/
theorem treeDependsOnlyOnFreq : Obligations.TreeDependsOnlyOnFreq := by
  intro s₁ s₂ t₁ t₂ inactive₁ inactive₂ counted₁ same_freq built₁ built₂
  have counted₂ : s₂.SomeCount := by simpa only [State.SomeCount, State.freqAt, same_freq] using counted₁
  have same_nodes := builtNodes_congr same_freq
  have same_root : (builtTree s₁).root = (builtTree s₂).root := by simp only [builtTree, same_nodes]
  rw [tbBuild_builds inactive₁ counted₁ built₁, tbBuild_builds inactive₂ counted₂ built₂]
  refine ⟨by simp only [builtTree, leafNodes_congr same_freq], same_root, fun k to_root => ?_⟩
  have node₁ := builtTree_at_of_le_root ((presentSymbols_ne_nil_iff s₁).mpr counted₁) to_root
  have node₂ := builtTree_at_of_le_root ((presentSymbols_ne_nil_iff s₂).mpr counted₂) (same_root ▸ to_root)
  rw [same_nodes, node₂] at node₁
  exact (Option.some.inj node₁).symm

end Sys2Proof.Machine
end

section
/-! PROOFS. The obligations about the codes CG_GEN makes (spec/42_code_gen.md R171 to R177). -/

namespace Sys2Proof.Machine

/-- CG_GEN's precondition holds on a valid tree when nothing is active (R132). -/
theorem State.Inactive.cgGen_allowed {s : State} (inactive : s.Inactive) (valid : s.tb.valid = true) :
    sequenceFails .cgGen s = false := by
  obtain ⟨enc_idle, dec_idle⟩ := inactive
  simp [sequenceFails, valid, enc_idle, dec_idle]

/-- On a valid tree with nothing active CG_GEN completes and writes the generated table alone (R171). -/
theorem exec_cgGen {s : State} (inactive : s.Inactive) (valid : s.tb.valid = true) :
    exec .cgGen s = .next { s with cg := generatedCodes s.tb } := by
  simp only [exec, execCgGen, inactive.cgGen_allowed valid, Bool.false_eq_true, if_false]

/-- The code table after CG_GEN (R171). -/
theorem cgGen_codes {s t : State} (inactive : s.Inactive) (valid : s.tb.valid = true)
    (generated : exec .cgGen s = .next t) : t.cg = generatedCodes s.tb := by
  rw [exec_cgGen inactive valid] at generated
  cases generated
  rfl

/-! ### MAXLEN (R177) -/

/-- The longest code length of a table fits MAXLEN's 8 bits: it is some CODE_LEN, or 0 (R42). -/
theorem longest_lt (r : CodeRegs) : r.longest < 256 := by
  obtain ⟨x, attained⟩ | zero := (longest_spec r).2
  · exact attained ▸ (r.lenAt x).isLt
  · omega

@[simp] theorem generatedCodes_maxlen_toNat (t : TreeRegs) :
    (generatedCodes t).maxlen.toNat = (codeEntries t).longest :=
  Nat.mod_eq_of_lt (longest_lt (codeEntries t))

/-- No CODE_LEN of the generated table is above MAXLEN (R177). -/
theorem generatedCodes_lenAt_le_maxlen (t : TreeRegs) (x : Byte) :
    ((generatedCodes t).lenAt x).toNat ≤ (generatedCodes t).maxlen.toNat := by
  simpa using (longest_spec (codeEntries t)).1 x

/-- MAXLEN is the CODE_LEN of some symbol (R177); where it is 0, of every symbol. -/
theorem generatedCodes_maxlen_attained (t : TreeRegs) :
    ∃ x, (generatedCodes t).lenAt x = (generatedCodes t).maxlen := by
  simp only [← BitVec.toNat_inj]
  obtain ⟨x, attained⟩ | zero := (longest_spec (codeEntries t)).2
  · exact ⟨x, by simpa using attained⟩
  · have upper := generatedCodes_lenAt_le_maxlen t 0#8
    rw [generatedCodes_maxlen_toNat, zero] at upper
    exact ⟨0#8, by rw [generatedCodes_maxlen_toNat, zero]; omega⟩

/-! ### Which codes there are (R173, R174) -/

/-- With a leaf at the root, its symbol has the code "0" and no other symbol has one (R173). -/
theorem hasCode_of_root_leaf {t : TreeRegs} {y : Byte} {f : Freq} (root : t.at t.root = .leaf y f) (x : Byte)
    (c : List Bool) : t.hasCode x c ↔ x = y ∧ c = [false] := by
  simp [TreeRegs.hasCode, root, Node.isLeaf, eq_comm]

/-- With an internal root, a code is the path from ROOT to a leaf (R172). -/
theorem hasCode_of_root_internal {t : TreeRegs} (root : (t.at t.root).isLeaf = false) (x : Byte) (c : List Bool) :
    t.hasCode x c ↔ t.leadsTo t.root c x := by
  simp [TreeRegs.hasCode, root]

/-- A CODE_LEN other than 0 says that the symbol has a code (R174). -/
theorem lenAt_ne_zero_iff {t : TreeRegs} (ok : TreeOk t) (x : Byte) :
    (generatedCodes t).lenAt x ≠ 0#8 ↔ ∃ c, t.hasCode x c := by
  simp [hasCode_iff ok]

/-- The symbols with a code are those of the leaves NODE[0..NLEAF-1] (R174). -/
theorem exists_hasCode_iff {t : TreeRegs} (ok : TreeOk t) (x : Byte) :
    (∃ c, t.hasCode x c) ↔ ∃ (k : NodeIdx) (f : Freq), k.val < t.nleaf.val ∧ t.at k = .leaf x f := by
  constructor
  · rintro ⟨c, code⟩
    exact leaf_of_hasCode ok code
  · rintro ⟨k, f, in_leaves, node⟩
    have root := ok.root_eq
    exact hasCode_of_leaf ok (by omega) node

/-- The root of a valid tree of two leaves or more is internal (R33, R36). -/
theorem TreeOk.root_internal {t : TreeRegs} (ok : TreeOk t) (several : 2 ≤ t.nleaf.val) :
    (t.at t.root).isLeaf = false := by
  have root := ok.root_eq
  have internal := (ok.internal_of_ge t.root.val (by omega) (by omega)).1
  rwa [nodeNo_val] at internal

/-- A valid tree has a leaf, NODE[0], so some symbol has a code (R32, R36). -/
theorem TreeOk.some_hasCode {t : TreeRegs} (ok : TreeOk t) : ∃ x c, t.hasCode x c := by
  have first_leaf := ok.leaf_of_lt 0 ok.nleaf_pos
  rcases node : t.nodeNo 0 with ⟨x, f⟩ | ⟨l, r, f⟩
  · exact ⟨x, hasCode_of_leaf ok (Nat.zero_le _) node⟩
  · simp [node, Node.isLeaf] at first_leaf

/-- Settles O23: the leaf at the root is the only entry, so the table is the cleared one with "0" set for its symbol. -/
theorem singleLeafCodeIsZero : Obligations.SingleLeafCodeIsZero := by
  intro s x f inactive valid root
  have entries : codeEntries s.tb = CodeRegs.setCode { CodeRegs.reset with valid := true } x [false] := by
    simp [codeEntries, leafCodes, root]
  have own_len : (generatedCodes s.tb).lenAt x = 1#8 := by
    simp [entries, setCode_lenAt]
  have own_bits : (generatedCodes s.tb).bitsAt x = packCode [false] := by
    simp [entries, setCode_bitsAt]
  have others : ∀ y, y ≠ x → (generatedCodes s.tb).lenAt y = 0#8 ∧ (generatedCodes s.tb).bitsAt y = 0#256 := by
    intro y hy
    rw [generatedCodes_lenAt, generatedCodes_bitsAt, entries, setCode_lenAt, setCode_bitsAt, if_neg hy.symm,
      if_neg hy.symm]
    exact ⟨reset_lenAt y, reset_bitsAt y⟩
  refine ⟨_, exec_cgGen inactive valid, codeOf_eq _ x [false] own_len own_bits (by decide), own_len, ?_, others⟩
  obtain ⟨y, attained⟩ := generatedCodes_maxlen_attained s.tb
  have upper := generatedCodes_lenAt_le_maxlen s.tb x
  rw [own_len, ← attained] at upper
  have hy : y = x := by
    by_contra other
    rw [(others y other).1] at upper
    exact absurd upper (by decide)
  exact attained.symm.trans (hy ▸ own_len)

/-- Settles O24: the leaf's symbol has a code, that code is the stored one, and the path it spells ends in a leaf that holds
the symbol, which is `k` since no two leaves share a symbol. -/
theorem codesAreTreePaths : Obligations.CodesAreTreePaths := by
  intro s inactive valid ok several
  refine ⟨_, exec_cgGen inactive valid, fun k x f in_leaves node => ?_⟩
  have root := ok.root_eq
  have in_use : k.val ≤ s.tb.root.val := by omega
  obtain ⟨c, code⟩ := hasCode_of_leaf ok in_use node
  rw [(generated_code ok code).1]
  rw [hasCode_of_root_internal (ok.root_internal several)] at code
  obtain ⟨m, g, path, node_m⟩ := (leadsTo_iff _ _ _ _).mp code
  have m_eq_k := ok.leaf_unique (ok.reaches_le le_rfl path).1 in_use node_m node
  exact ⟨code, m_eq_k ▸ reaches_follow path⟩

/-- Settles O25: the symbols with a code are those of the leaves; the stored bits are the code's own, then zeros, and all
zeros for a symbol without a code. -/
theorem codesOfExactlyTheLeaves : Obligations.CodesOfExactlyTheLeaves := by
  intro s t inactive valid ok generated x
  rw [cgGen_codes inactive valid generated]
  refine ⟨(lenAt_ne_zero_iff ok x).trans (exists_hasCode_iff ok x), fun i past => ?_⟩
  by_cases has : ∃ c, s.tb.hasCode x c
  · obtain ⟨c, code⟩ := has
    obtain ⟨-, len, bits⟩ := generated_code ok code
    have short := (hasCode_length ok code).2.2
    rw [len] at past
    rw [CodeRegs.codeBit, bits, packCode_getMsbD c i short.le, List.getD_eq_default _ _ past]
  · rw [CodeRegs.codeBit, (generated_none ok (not_exists.mp has)).2, BitVec.getMsbD_zero]

/-! ### No code begins another (R175) -/

/-- A path that ends in a leaf cannot be prolonged: two paths of which one begins the other end in leaves with the same
symbol. -/
theorem leadsTo_eq_of_begins {t : TreeRegs} {c d : List Bool} {k : NodeIdx} {x y : Byte} (hx : t.leadsTo k c x)
    (hy : t.leadsTo k d y) (begins : c <+: d) : x = y := by
  induction c generalizing k d with
  | nil =>
    obtain ⟨f, node⟩ := hx
    cases d with
    | nil =>
      obtain ⟨g, node'⟩ := hy
      exact (Node.leaf.inj (node.symm.trans node')).1
    | cons b d =>
      have internal := hy.1
      simp [node, Node.isLeaf] at internal
  | cons b c ih =>
    obtain ⟨d, rfl⟩ := begins
    exact ih hx.2 hy.2 ⟨d, rfl⟩

/-- Settles O26: under an internal root a code cannot be prolonged to another; under a root that is a leaf there is but one
symbol with a code. -/
theorem noCodeIsAPrefixOfAnother : Obligations.NoCodeIsAPrefixOfAnother := by
  intro s t inactive valid ok generated x y
  rw [cgGen_codes inactive valid generated]
  intro len_x len_y begins
  have code_x := (hasCode_iff ok x _).mpr ⟨len_x, rfl⟩
  have code_y := (hasCode_iff ok y _).mpr ⟨len_y, rfl⟩
  rcases root : s.tb.at s.tb.root with ⟨z, f⟩ | ⟨l, r, f⟩
  · rw [hasCode_of_root_leaf root] at code_x code_y
    exact code_x.1.trans code_y.1.symm
  · rw [hasCode_of_root_internal (by rw [root]; rfl)] at code_x code_y
    exact leadsTo_eq_of_begins code_x code_y begins

/-- Settles O27: a code is no longer than a path of the tree can be, MAXLEN is the largest CODE_LEN, and the code of the
first leaf keeps it from being 0. -/
theorem codeLengthsAreBounded : Obligations.CodeLengthsAreBounded := by
  intro s t inactive valid ok generated
  rw [cgGen_codes inactive valid generated]
  refine ⟨fun x has => ?_, generatedCodes_lenAt_le_maxlen s.tb, generatedCodes_maxlen_attained s.tb, fun zero => ?_⟩
  · obtain ⟨c, code⟩ := (lenAt_ne_zero_iff ok x).mp has
    rw [(generated_code ok code).2.1]
    exact (hasCode_length ok code).2.1
  · obtain ⟨x, c, code⟩ := ok.some_hasCode
    have long := (hasCode_length ok code).1
    have upper := generatedCodes_lenAt_le_maxlen s.tb x
    rw [(generated_code ok code).2.1, zero, BitVec.toNat_zero] at upper
    omega

end Sys2Proof.Machine
end

section
/-! PROOFS. The obligation about a whole encode: ENC_BEGIN, ENC_SYM for each symbol, ENC_FLUSH
(spec/43_stream_encoder.md R190 to R198, spec/20_memory.md R82). -/

namespace Sys2Proof.Machine

/-! ### Commands in sequence -/

/-- A command that completes hands its state to the commands after it. -/
theorem execAll_cons_next {i : Instr} {s t : State} (completes : exec i s = .next t) (is : List Instr) :
    execAll (i :: is) s = execAll is t := by
  rw [execAll, completes]

/-- Commands that complete hand their state to the commands after them. -/
theorem execAll_append_next {is : List Instr} {s t : State} (complete : execAll is s = .next t) (js : List Instr) :
    execAll (is ++ js) s = execAll js t := by
  rw [execAll_append, complete]

/-! ### Appending bits (R193) -/

theorem emitBits_append (c d : List Bool) (s : State) : emitBits (c ++ d) s = emitBits d (emitBits c s) := by
  induction c generalizing s with
  | nil => rfl
  | cons b c ih => exact ih (emitBit b s)

@[simp] theorem emitBits_cg (c : List Bool) (s : State) : (emitBits c s).cg = s.cg := by
  obtain ⟨acc, cnt, out, frame, -⟩ := emitBits_spec c s
  rw [frame]

@[simp] theorem emitBits_host (c : List Bool) (s : State) : (emitBits c s).host = s.host := by
  obtain ⟨acc, cnt, out, frame, -⟩ := emitBits_spec c s
  rw [frame]

@[simp] theorem emitBits_decOut (c : List Bool) (s : State) : (emitBits c s).decOut = s.decOut := by
  obtain ⟨acc, cnt, out, frame, -⟩ := emitBits_spec c s
  rw [frame]

@[simp] theorem emitBits_active (c : List Bool) (s : State) : (emitBits c s).enc.active = s.enc.active := by
  obtain ⟨acc, cnt, out, frame, -⟩ := emitBits_spec c s
  rw [frame]

/-- Appended bits complete some whole bytes; these bytes and the bits left in ACC read as the bits that were pending and
then the appended ones (R81, R193). -/
theorem emitBits_packs (c : List Bool) (s : State) :
    ∃ whole : List Byte, (emitBits c s).encOut.pending = s.encOut.pending ++ whole ∧
      8 * whole.length + (emitBits c s).enc.accCnt.toNat = s.enc.accCnt.toNat + c.length ∧
      whole.flatMap bitsMsbFirst ++ (bitsMsbFirst (emitBits c s).enc.acc).take (emitBits c s).enc.accCnt.toNat =
        (bitsMsbFirst s.enc.acc).take s.enc.accCnt.toNat ++ c := by
  obtain ⟨acc, cnt, out, frame, taken, ⟨whole, pending, count⟩, bits⟩ := emitBits_spec c s
  rw [frame] at bits ⊢
  exact ⟨whole, pending, count, by simpa [State.encBits, Stream.all, taken, pending] using bits⟩

/-! ### Counting symbols (R194) -/

/-- `s` with `n` more symbols counted in ENC_SYMCNT (R194). -/
def State.countSymbols (n : Nat) (s : State) : State :=
  { s with enc := { s.enc with symcnt := s.enc.symcnt + BitVec.ofNat 64 n } }

@[simp] theorem countSymbols_cg (n : Nat) (s : State) : (s.countSymbols n).cg = s.cg := rfl
@[simp] theorem countSymbols_host (n : Nat) (s : State) : (s.countSymbols n).host = s.host := rfl
@[simp] theorem countSymbols_active (n : Nat) (s : State) : (s.countSymbols n).enc.active = s.enc.active := rfl

theorem countSymbols_zero (s : State) : s.countSymbols 0 = s := by
  simp [State.countSymbols]

theorem countSymbols_add (m n : Nat) (s : State) : (s.countSymbols m).countSymbols n = s.countSymbols (m + n) := by
  simp [State.countSymbols, BitVec.ofNat_add, BitVec.add_assoc]

/-- The packer does not look at ENC_SYMCNT, so symbols may be counted after the bits are appended (R193). -/
theorem emitBit_countSymbols (b : Bool) (n : Nat) (s : State) :
    emitBit b (s.countSymbols n) = (emitBit b s).countSymbols n := by
  by_cases full : s.enc.accCnt.toNat + 1 = 8
  · simp [emitBit, State.countSymbols, full, pushEnc]
  · simp [emitBit, State.countSymbols, full]

theorem emitBits_countSymbols (c : List Bool) (n : Nat) (s : State) :
    emitBits c (s.countSymbols n) = (emitBits c s).countSymbols n := by
  induction c generalizing s with
  | nil => rfl
  | cons b c ih => rw [emitBits, emitBit_countSymbols, ih, emitBits]

/-! ### The three commands (R190, R194, R197) -/

/-- ENC_BEGIN with valid codes and no encode active (R190). -/
theorem exec_encBegin {s : State} (valid : s.cg.valid = true) (inactive : s.enc.active = false) :
    exec .encBegin s =
      .next { s with enc := { active := true, acc := 0#8, accCnt := 0#3, bitcnt := 0#64, symcnt := 0#64 } } := by
  simp [exec, execEncBegin, sequenceFails, valid, inactive]

/-- ENC_SYM of a symbol with a code: its bits are appended and one symbol is counted (R194). -/
theorem exec_encSym {s : State} {x : Byte} (active : s.enc.active = true) (drains : s.host.drainsEnc = true)
    (coded : s.cg.lenAt x ≠ 0#8) :
    exec (.encSym x) s = .next ((emitBits (s.cg.codeOf x) s).countSymbols 1) := by
  have allowed : sequenceFails (.encSym x) s = false := by simp [sequenceFails, active]
  simp only [exec, execEncSym, allowed, if_neg coded, Bool.false_eq_true, if_false]
  exact drained_next (.inr drains) (.inl (emitBits_decOut _ s))

/-- The bytes ENC_FLUSH pushes: ACC where bits are pending, and none otherwise (R197). -/
def EncRegs.flushed (e : EncRegs) : List Byte := if e.accCnt = 0#3 then [] else [e.acc]

/-- ENC_FLUSH in an active encode (R197). -/
theorem exec_encFlush {s : State} (active : s.enc.active = true) (drains : s.host.drainsEnc = true) :
    exec .encFlush s = .next { s with
      enc := { s.enc with active := false, acc := 0#8, accCnt := 0#3 },
      encOut := { s.encOut with pending := s.encOut.pending ++ s.enc.flushed } } := by
  have allowed : sequenceFails .encFlush s = false := by simp [sequenceFails, active]
  simp only [exec, execEncFlush, allowed, Bool.false_eq_true, if_false]
  by_cases none_pending : s.enc.accCnt = 0#3
  · rw [drained_next (.inr drains) (.inl (by simp [none_pending]))]
    simp [EncRegs.flushed, none_pending]
  · rw [drained_next (.inr drains) (.inl (by simp [none_pending]))]
    simp [EncRegs.flushed, none_pending, pushEnc, Stream.push]

/-- ENC_FLUSH pushes one byte for pending bits and none otherwise (R197). -/
theorem flushed_length (e : EncRegs) : e.flushed.length = (e.accCnt.toNat + 7) / 8 := by
  have short := e.accCnt.isLt
  by_cases none_pending : e.accCnt = 0#3
  · simp [EncRegs.flushed, none_pending]
  · have some_pending : e.accCnt.toNat ≠ 0 := fun h => none_pending (BitVec.eq_of_toNat_eq h)
    rw [EncRegs.flushed, if_neg none_pending, List.length_singleton]
    omega

/-- What ENC_FLUSH pushes reads as the pending bits and then zeros, ACC being 0 below them (R82, R197). -/
theorem flushed_bits {e : EncRegs} (padded : ∀ i, i < 8 - e.accCnt.toNat → e.acc.getLsbD i = false) :
    e.flushed.flatMap bitsMsbFirst =
      (bitsMsbFirst e.acc).take e.accCnt.toNat ++
        List.replicate (8 * e.flushed.length - e.accCnt.toNat) false := by
  by_cases none_pending : e.accCnt = 0#3
  · simp [EncRegs.flushed, none_pending]
  · simpa [EncRegs.flushed, none_pending] using padded_bits e.accCnt.toNat e.accCnt.isLt e.acc padded

/-! ### The whole encode (R198) -/

/-- ENC_SYM for each symbol appends the concatenated codes and counts the symbols (R194). -/
theorem execAll_encSyms {s : State} {S : List Byte} (active : s.enc.active = true)
    (drains : s.host.drainsEnc = true) (coded : ∀ x ∈ S, s.cg.lenAt x ≠ 0#8) :
    execAll (S.map .encSym) s = .next ((emitBits (S.flatMap s.cg.codeOf) s).countSymbols S.length) := by
  induction S generalizing s with
  | nil => rw [List.length_nil, countSymbols_zero]; rfl
  | cons x S ih =>
    rw [List.forall_mem_cons] at coded
    obtain ⟨coded_x, coded_S⟩ := coded
    have first := exec_encSym active drains coded_x
    rw [List.map_cons, execAll_cons_next first, ih (by simpa) (by simpa) (by simpa), countSymbols_cg, emitBits_cg,
      emitBits_countSymbols, countSymbols_add, ← emitBits_append, List.flatMap_cons, List.length_cons, Nat.add_comm]

/-- The bytes are the bits `c` packed, most significant first in each byte, with zeros after them up to a whole byte and no
byte more (R81, R82). -/
def PacksBits (bytes : List Byte) (c : List Bool) : Prop :=
  bytes.length = (c.length + 7) / 8 ∧
    bytes.flatMap bitsMsbFirst = c ++ List.replicate (8 * bytes.length - c.length) false

/-- From an empty packer, the whole bytes that appended bits complete and the byte ENC_FLUSH would push after them are
these bits packed (R82, R198). -/
theorem emitBits_flushed (c : List Bool) {s : State} (empty : s.enc.accCnt = 0#3) (clear : s.enc.acc = 0#8) :
    ∃ new : List Byte,
      (emitBits c s).encOut.pending ++ (emitBits c s).enc.flushed = s.encOut.pending ++ new ∧
      PacksBits new c := by
  obtain ⟨whole, pending, count, bits⟩ := emitBits_packs c s
  have last_bits := flushed_bits (emitBits_padded c s (by simp [clear]))
  have last_length := flushed_length (emitBits c s).enc
  simp only [empty, BitVec.toNat_zero, Nat.zero_add, List.take_zero, List.nil_append] at count bits
  refine ⟨whole ++ (emitBits c s).enc.flushed, by rw [pending, List.append_assoc], ?_, ?_⟩
  · rw [List.length_append, last_length]
    omega
  · have pad : 8 * (whole ++ (emitBits c s).enc.flushed).length - c.length =
        8 * (emitBits c s).enc.flushed.length - (emitBits c s).enc.accCnt.toNat := by
      rw [List.length_append]
      omega
    rw [List.flatMap_append, last_bits, pad, ← List.append_assoc, bits]

/-- From an empty packer, ENC_SYM for each symbol and ENC_FLUSH complete and change only the encoder's registers and
enc_out (R194, R197, R198). -/
theorem execAll_encSyms_encFlush {s : State} {S : List Byte} (active : s.enc.active = true)
    (drains : s.host.drainsEnc = true) (coded : ∀ x ∈ S, s.cg.lenAt x ≠ 0#8) (empty : s.enc.accCnt = 0#3)
    (clear : s.enc.acc = 0#8) :
    ∃ new : List Byte,
      execAll (S.map .encSym ++ [.encFlush]) s = .next { s with
        enc := { active := false, acc := 0#8, accCnt := 0#3,
                 bitcnt := s.enc.bitcnt + BitVec.ofNat 64 (S.flatMap s.cg.codeOf).length,
                 symcnt := s.enc.symcnt + BitVec.ofNat 64 S.length },
        encOut := { s.encOut with pending := s.encOut.pending ++ new } } ∧
      PacksBits new (S.flatMap s.cg.codeOf) := by
  obtain ⟨new, pushed, packed⟩ := emitBits_flushed (S.flatMap s.cg.codeOf) empty clear
  refine ⟨new, ?_, packed⟩
  have flush := exec_encFlush (s := (emitBits (S.flatMap s.cg.codeOf) s).countSymbols S.length)
    (by simpa) (by simpa)
  rw [execAll_append_next (execAll_encSyms active drains coded), execAll_cons_next flush, execAll]
  obtain ⟨acc, cnt, out, frame, taken, -⟩ := emitBits_spec (S.flatMap s.cg.codeOf) s
  rw [frame] at pushed
  simp only [State.countSymbols, frame, taken]
  rw [← pushed]
  rfl

/-- An encode completes and changes only the encoder's registers and enc_out: it counts the bits and the symbols and
pushes the concatenated codes packed (R198). -/
theorem execAll_encode {s : State} {S : List Byte} (valid : s.cg.valid = true) (inactive : s.enc.active = false)
    (drains : s.host.drainsEnc = true) (coded : ∀ x ∈ S, s.cg.lenAt x ≠ 0#8) :
    ∃ new : List Byte,
      execAll (.encBegin :: S.map .encSym ++ [.encFlush]) s = .next { s with
        enc := { active := false, acc := 0#8, accCnt := 0#3,
                 bitcnt := BitVec.ofNat 64 (S.flatMap s.cg.codeOf).length, symcnt := BitVec.ofNat 64 S.length },
        encOut := { s.encOut with pending := s.encOut.pending ++ new } } ∧
      PacksBits new (S.flatMap s.cg.codeOf) := by
  rw [List.cons_append, execAll_cons_next (exec_encBegin valid inactive)]
  simpa only [BitVec.zero_add] using execAll_encSyms_encFlush (S := S)
    (s := { s with enc := { active := true, acc := 0#8, accCnt := 0#3, bitcnt := 0#64, symcnt := 0#64 } })
    rfl drains coded rfl rfl

/-- Settles O32: the encode's final state, read at enc_out and the two counters. -/
theorem encodeProducesThePackedCodes : Obligations.EncodeProducesThePackedCodes := by
  intro s S valid inactive drains coded
  obtain ⟨new, complete, length, bits⟩ := execAll_encode valid inactive drains coded
  exact ⟨_, new, complete, (List.append_assoc _ _ _).symm, rfl, rfl, length, bits⟩

end Sys2Proof.Machine
end

section
/-! PROOFS. The obligation about one walked bit (spec/44_stream_decoder.md R222, R225). -/

namespace Sys2Proof.Machine

/-- `s` with the cursor at node `k` (R50). -/
def State.atCursor (k : NodeIdx) (s : State) : State := { s with dec := { s.dec with cursor := k } }

/-- On a single-leaf tree a walked bit pushes and counts the sole symbol, whatever its value (R225). -/
theorem decBit_of_root_leaf {s : State} {x : Byte} {f : Freq} (root : s.tb.at s.tb.root = .leaf x f) (b : Bool) :
    decBit b s = emitSymbol x s := by
  simp only [decBit, root]

/-- A walked bit that reaches a leaf pushes and counts its symbol and puts the cursor back to ROOT (R222). -/
theorem decBit_to_leaf {s : State} {b : Bool} {x : Byte} {f : Freq} (root : (s.tb.at s.tb.root).isLeaf = false)
    (reached : s.tb.at ((s.tb.at s.dec.cursor).child b) = .leaf x f) :
    decBit b s = emitSymbol x (s.atCursor s.tb.root) := by
  rcases node : s.tb.at s.tb.root with ⟨y, g⟩ | ⟨l, r, g⟩
  · simp [node, Node.isLeaf] at root
  · simp only [decBit, node, reached, State.atCursor]

/-- A walked bit that reaches an internal node makes it the cursor (R222). -/
theorem decBit_to_internal {s : State} {b : Bool} (root : (s.tb.at s.tb.root).isLeaf = false)
    (reached : (s.tb.at ((s.tb.at s.dec.cursor).child b)).isLeaf = false) :
    decBit b s = s.atCursor ((s.tb.at s.dec.cursor).child b) := by
  rcases node : s.tb.at s.tb.root with ⟨y, g⟩ | ⟨l, r, g⟩
  · simp [node, Node.isLeaf] at root
  · rcases child : s.tb.at ((s.tb.at s.dec.cursor).child b) with ⟨y, g'⟩ | ⟨l', r', g'⟩
    · simp [child, Node.isLeaf] at reached
    · simp only [decBit, node, child, State.atCursor]

/-- With two leaves or more a cursor on the tree names an internal node, whose children exist (R50, R222). -/
theorem CursorOk.internal {s : State} (cursor : CursorOk s) (ok : TreeOk s.tb) (several : 2 ≤ s.tb.nleaf.val) :
    (s.tb.at s.dec.cursor).isLeaf = false := by
  obtain at_root | ⟨above_leaves, below_root⟩ := cursor
  · rw [at_root]
    exact ok.root_internal several
  · have root := ok.root_eq
    have internal := (ok.internal_of_ge s.dec.cursor.val (by omega) above_leaves).1
    rwa [nodeNo_val] at internal

/-- Settles O34: the cursor stays on the tree, and the three cases of the walk are a root that is a leaf, a leaf reached and
an internal node reached. -/
theorem walkedBitMovesTheCursor : Obligations.WalkedBitMovesTheCursor := by
  intro s b
  refine ⟨fun ok cursor => ⟨decBit_cursor b s ok cursor, cursor.internal ok⟩,
    fun x f root => decBit_of_root_leaf root b, ?_⟩
  rintro l r f k root node rfl
  have child : (s.tb.at s.dec.cursor).child b = if b then r else l := by rw [node]; rfl
  rw [← child]
  exact ⟨fun x g reached => decBit_to_leaf root reached, decBit_to_internal root⟩

end Sys2Proof.Machine
end

section
/-! PROOFS. The obligation about the round trip: a decode of an encoded stream gives the input back
(spec/44_stream_decoder.md R220 to R230). -/

namespace Sys2Proof.Machine

/-! ### Walking one code (R222, R225) -/

/-- `s` after `n` walked bits that spelled the symbols `xs`, the cursor apart (R222, R223). -/
def State.decoded (n : Nat) (xs : List Byte) (s : State) : State :=
  { s with
    dec := { s.dec with remain := s.dec.remain - BitVec.ofNat 64 n,
                        symcnt := s.dec.symcnt + BitVec.ofNat 64 xs.length }
    decOut := { s.decOut with pending := s.decOut.pending ++ xs } }

theorem decoded_zero (s : State) : s.decoded 0 [] = s := by
  simp [State.decoded]

theorem decoded_add (m n : Nat) (xs ys : List Byte) (s : State) :
    (s.decoded m xs).decoded n ys = s.decoded (m + n) (xs ++ ys) := by
  simp [State.decoded, BitVec.ofNat_add, BitVec.add_assoc, BitVec.sub_sub]

/-- A pushed and counted symbol is decoded without a bit of its own (R222). -/
theorem emitSymbol_eq_decoded (x : Byte) (s : State) : emitSymbol x s = s.decoded 0 [x] := by
  simp [emitSymbol, pushDec, Stream.push, State.decoded]

/-- DEC_REMAIN goes down by the bits walked, as long as it held that many (R223). -/
theorem decoded_remain {n : Nat} {s : State} (enough : n ≤ s.dec.remain.toNat) (xs : List Byte) :
    (s.decoded n xs).dec.remain.toNat = s.dec.remain.toNat - n := by
  have small := s.dec.remain.isLt
  simp only [State.decoded, BitVec.toNat_sub, BitVec.toNat_ofNat]
  omega

theorem decoded_none_owed {n : Nat} {s : State} (exact_owed : s.dec.remain.toNat = n) (xs : List Byte) :
    (s.decoded n xs).dec.remain = 0#64 :=
  BitVec.eq_of_toNat_eq (by simp [decoded_remain exact_owed.ge, exact_owed])

/-- While bits are owed, the first of a list is counted down and walked (R223, R224). -/
theorem walkBits_cons {s : State} (owed : 1 ≤ s.dec.remain.toNat) (b : Bool) (c : List Bool) :
    walkBits (b :: c) s = walkBits c (decBit b (s.decoded 1 [])) := by
  have nonzero : s.dec.remain ≠ 0#64 := by
    intro zero
    simp [zero] at owed
  rw [walkBits, if_neg nonzero]
  simp [State.decoded]

/-- The bits of a path from the cursor to a leaf: its symbol is decoded and the cursor ends at ROOT (R172, R222). -/
theorem walkBits_path {s : State} {b : Bool} {c : List Bool} {x : Byte} (root : (s.tb.at s.tb.root).isLeaf = false)
    (path : s.tb.leadsTo s.dec.cursor (b :: c) x) (owed : c.length + 1 ≤ s.dec.remain.toNat) :
    walkBits (b :: c) s = (s.atCursor s.tb.root).decoded (c.length + 1) [x] := by
  induction c generalizing s b with
  | nil =>
    obtain ⟨f, leaf⟩ := path.2
    have ended := decBit_to_leaf (s := s.decoded 1 []) root leaf
    rw [walkBits_cons owed, ended, emitSymbol_eq_decoded]
    exact decoded_add 1 0 [] [x] (s.atCursor s.tb.root)
  | cons b' c ih =>
    have owed_one : 1 ≤ s.dec.remain.toNat := by omega
    have moved := decBit_to_internal (s := s.decoded 1 []) (b := b) root path.2.1
    have left : (s.decoded 1 []).dec.remain.toNat = s.dec.remain.toNat - 1 := decoded_remain owed_one []
    have owed_next : c.length + 1 ≤ (s.decoded 1 []).dec.remain.toNat := by
      rw [List.length_cons] at owed
      omega
    calc walkBits (b :: b' :: c) s
      _ = walkBits (b' :: c) ((s.decoded 1 []).atCursor ((s.tb.at s.dec.cursor).child b)) := by
        rw [walkBits_cons owed_one, moved]
        rfl
      _ = ((s.atCursor s.tb.root).decoded 1 []).decoded (c.length + 1) [x] := ih root path.2 owed_next
      _ = (s.atCursor s.tb.root).decoded ((b' :: c).length + 1) [x] := by
        rw [decoded_add, List.length_cons, Nat.add_comm 1, List.nil_append]

/-- The code of a symbol, walked from ROOT, decodes to the symbol and ends at ROOT (R222, R225). -/
theorem walkBits_code {s : State} {c : List Bool} {x : Byte} (code : s.tb.hasCode x c)
    (at_root : s.dec.cursor = s.tb.root) (owed : c.length ≤ s.dec.remain.toNat) :
    walkBits c s = s.decoded c.length [x] := by
  rcases root : s.tb.at s.tb.root with ⟨y, f⟩ | ⟨l, r, f⟩
  · obtain ⟨rfl, rfl⟩ := (hasCode_of_root_leaf root x c).mp code
    rw [walkBits_cons owed, decBit_of_root_leaf (s := s.decoded 1 []) root, emitSymbol_eq_decoded, walkBits,
      decoded_add]
    rfl
  · have internal : (s.tb.at s.tb.root).isLeaf = false := by rw [root]; rfl
    have path := (hasCode_of_root_internal internal x c).mp code
    cases c with
    | nil =>
      obtain ⟨g, leaf⟩ := path
      simp [leaf, Node.isLeaf] at internal
    | cons b c =>
      rw [← at_root] at path
      rw [walkBits_path internal path owed, ← at_root]
      rfl

/-- The codes of a sequence of symbols, walked from ROOT, decode to the sequence (R230). -/
theorem walkBits_codes {s : State} {S : List Byte} {code : Byte → List Bool}
    (coded : ∀ x ∈ S, s.tb.hasCode x (code x)) (at_root : s.dec.cursor = s.tb.root)
    (owed : (S.flatMap code).length ≤ s.dec.remain.toNat) :
    walkBits (S.flatMap code) s = s.decoded (S.flatMap code).length S := by
  induction S generalizing s with
  | nil => exact (decoded_zero s).symm
  | cons x S ih =>
    rw [List.forall_mem_cons] at coded
    obtain ⟨coded_x, coded_S⟩ := coded
    rw [List.flatMap_cons, List.length_append] at owed
    have owed_x : (code x).length ≤ s.dec.remain.toNat := by omega
    have owed_S : (S.flatMap code).length ≤ (s.decoded (code x).length [x]).dec.remain.toNat := by
      rw [decoded_remain owed_x]
      omega
    rw [List.flatMap_cons, walkBits_append, walkBits_code coded_x at_root owed_x,
      ih (s := s.decoded (code x).length [x]) coded_S at_root owed_S, decoded_add, List.length_append,
      List.singleton_append]

/-! ### The decode (R220 to R227) -/

@[simp] theorem walkBits_encOut (bs : List Bool) (s : State) : (walkBits bs s).encOut = s.encOut := by
  obtain ⟨rem, cur, cnt, out, frame, -⟩ := walkBits_frame bs s
  rw [frame]

@[simp] theorem walkBits_host (bs : List Bool) (s : State) : (walkBits bs s).host = s.host := by
  obtain ⟨rem, cur, cnt, out, frame, -⟩ := walkBits_frame bs s
  rw [frame]

@[simp] theorem walkBits_active (bs : List Bool) (s : State) : (walkBits bs s).dec.active = s.dec.active := by
  obtain ⟨rem, cur, cnt, out, frame, -⟩ := walkBits_frame bs s
  rw [frame]

/-- DEC_BEGIN with a valid tree and no decode active (R220). -/
theorem exec_decBegin {s : State} (valid : s.tb.valid = true) (inactive : s.dec.active = false) :
    exec .decBegin s = .next { s with dec :=
      { active := true, nbits := s.dec.nbits, remain := s.dec.nbits, cursor := s.tb.root, symcnt := 0#64 } } := by
  simp [exec, execDecBegin, sequenceFails, valid, inactive]

/-- DEC_BYTE in an active decode walks its operand's bits, most significant first (R224). -/
theorem exec_decByte {s : State} (active : s.dec.active = true) (drains : s.host.drainsDec = true) (b : Byte) :
    exec (.decByte b) s = .next (walkBits (bitsMsbFirst b) s) := by
  have allowed : sequenceFails (.decByte b) s = false := by simp [sequenceFails, active]
  simp only [exec, execDecByte, allowed, Bool.false_eq_true, if_false]
  exact drained_next (.inl (walkBits_encOut _ s)) (.inr drains)

/-- DEC_END of an active decode with no bit owed and the cursor at ROOT is a clean stop (R227, R228). -/
theorem exec_decEnd {s : State} (active : s.dec.active = true) (none_owed : s.dec.remain = 0#64)
    (at_root : s.dec.cursor = s.tb.root) :
    exec .decEnd s = .next { s with dec := { s.dec with active := false } } := by
  simp [exec, execDecEnd, sequenceFails, active, none_owed, at_root]

/-- DEC_BYTE for each byte walks the bits of all of them in order (R221, R224). -/
theorem execAll_decBytes {s : State} (active : s.dec.active = true) (drains : s.host.drainsDec = true)
    (E : List Byte) : execAll (E.map .decByte) s = .next (walkBits (E.flatMap bitsMsbFirst) s) := by
  induction E generalizing s with
  | nil => rfl
  | cons b E ih =>
    rw [List.map_cons, execAll_cons_next (exec_decByte active drains b), ih (by simpa) (by simpa), List.flatMap_cons,
      walkBits_append]

/-- The bits of packed codes, walked from ROOT with as many owed as the codes have, decode to the symbols; then no bit is
owed, so the pad bits are not walked (R226, R230). -/
theorem walkBits_packed {s : State} {S E : List Byte} {code : Byte → List Bool}
    (coded : ∀ x ∈ S, s.tb.hasCode x (code x)) (packed : PacksBits E (S.flatMap code))
    (at_root : s.dec.cursor = s.tb.root) (owed : s.dec.remain.toNat = (S.flatMap code).length) :
    walkBits (E.flatMap bitsMsbFirst) s = s.decoded (S.flatMap code).length S := by
  obtain ⟨-, bits⟩ := packed
  rw [bits, walkBits_append, walkBits_codes coded at_root owed.ge, walkBits_zero _ _ (decoded_none_owed owed S)]

/-- DEC_BYTE for each byte of packed codes and DEC_END decode the symbols and end the decode cleanly (R224, R227). -/
theorem execAll_decBytes_decEnd {s : State} {S E : List Byte} {code : Byte → List Bool}
    (active : s.dec.active = true) (drains : s.host.drainsDec = true) (coded : ∀ x ∈ S, s.tb.hasCode x (code x))
    (packed : PacksBits E (S.flatMap code)) (at_root : s.dec.cursor = s.tb.root)
    (owed : s.dec.remain.toNat = (S.flatMap code).length) :
    execAll (E.map .decByte ++ [.decEnd]) s =
      .next (State.decoded (S.flatMap code).length S { s with dec := { s.dec with active := false } }) := by
  have ended := exec_decEnd (s := s.decoded (S.flatMap code).length S) active (decoded_none_owed owed S) at_root
  rw [execAll_append_next (execAll_decBytes active drains E), walkBits_packed coded packed at_root owed,
    execAll_cons_next ended]
  rfl

/-- A decode of packed codes, with DEC_NBITS at their length, completes and decodes the symbols (R220, R230). -/
theorem execAll_decode {s : State} {S E : List Byte} {code : Byte → List Bool} (valid : s.tb.valid = true)
    (inactive : s.dec.active = false) (drains : s.host.drainsDec = true)
    (coded : ∀ x ∈ S, s.tb.hasCode x (code x)) (packed : PacksBits E (S.flatMap code))
    (nbits : s.dec.nbits.toNat = (S.flatMap code).length) :
    execAll (.decBegin :: E.map .decByte ++ [.decEnd]) s =
      .next (State.decoded (S.flatMap code).length S { s with dec :=
        { active := false, nbits := s.dec.nbits, remain := s.dec.nbits, cursor := s.tb.root, symcnt := 0#64 } }) := by
  rw [List.cons_append, execAll_cons_next (exec_decBegin valid inactive)]
  exact execAll_decBytes_decEnd rfl drains coded packed rfl nbits

/-! ### The encoded length fits the counters (R8, R176) -/

/-- The symbols of a sequence whose counts FREQ holds are present (R151). -/
theorem mem_presentSymbols_of_counts {s : State} {S : List Byte} (counts : ∀ x, (s.freqAt x).toNat = S.count x)
    {x : Byte} (member : x ∈ S) : x ∈ s.presentSymbols := by
  rw [mem_presentSymbols]
  intro zero
  have positive := List.count_pos_iff.mpr member
  simp [← counts x, zero] at positive

/-- A sequence whose counts FREQ holds is at most 2^40 long: 256 counts of 32 bits (R8). -/
theorem length_le_of_counts {s : State} {S : List Byte} (counts : ∀ x, (s.freqAt x).toNat = S.count x) :
    S.length ≤ 2 ^ 40 := by
  have symbols : S.toFinset.card ≤ 256 := calc
    S.toFinset.card ≤ s.presentSymbols.toFinset.card := Finset.card_le_card fun x member =>
      List.mem_toFinset.mpr (mem_presentSymbols_of_counts counts (List.mem_toFinset.mp member))
    _ ≤ s.presentSymbols.length := List.toFinset_card_le _
    _ ≤ 256 := presentSymbols_length_le s
  have each : ∀ x ∈ S.toFinset, S.count x ≤ 2 ^ 32 := fun x _ => counts x ▸ (s.freqAt x).isLt.le
  calc
    S.length = ∑ x ∈ S.toFinset, S.count x := (List.sum_toFinset_count_eq_length S).symm
    _ ≤ S.toFinset.card * 2 ^ 32 := Finset.sum_le_card_nsmul _ _ _ each
    _ ≤ 256 * 2 ^ 32 := Nat.mul_le_mul_right _ symbols

/-- Codes of at most 255 bits keep the encoded length of such a sequence below 2^64 (R176). -/
theorem codes_length_lt {S : List Byte} {code : Byte → List Bool} (short : S.length ≤ 2 ^ 40)
    (bounded : ∀ x ∈ S, (code x).length < 256) : (S.flatMap code).length < 2 ^ 64 := by
  have total := sum_le_length_mul (S.map fun x => (code x).length) 255
    (List.forall_mem_map.mpr fun x member => Nat.le_of_lt_succ (bounded x member))
  rw [List.length_map, ← List.length_flatMap] at total
  omega

/-! ### The round trip (R230) -/

/-- TB_BUILD with nothing active and a symbol present writes the built tree and invalidates the codes (R152). -/
theorem exec_tbBuild {s : State} (inactive : s.Inactive) (present : s.presentSymbols ≠ []) :
    exec .tbBuild s = .next { s with cg := { s.cg with valid := false, maxlen := 0#8 }, tb := builtTree s } := by
  simp only [exec, execTbBuild, inactive.tbBuild_allowed, Bool.false_eq_true, if_false, if_neg present]

/-- A present symbol has a code in the built tree (R151, R174). -/
theorem builtTree_hasCode {s : State} {x : Byte} (present : x ∈ s.presentSymbols) :
    (builtTree s).hasCode x ((generatedCodes (builtTree s)).codeOf x) := by
  obtain ⟨k, in_leaves, rfl⟩ := List.mem_iff_getElem.mp present
  have some_present := List.ne_nil_of_mem present
  have ok := builtTree_ok s some_present
  have root := builtTree_root s some_present
  have small := presentSymbols_length_le s
  have in_use : (nodeIdx k).val ≤ (builtTree s).root.val := by
    rw [nodeIdx_val (by omega)]
    omega
  obtain ⟨c, code⟩ := hasCode_of_leaf ok in_use (builtTree_leaf s k in_leaves)
  rwa [(generated_code ok code).1]

/-- Settles O37: the encode packs the codes of the built tree, which spell the paths the decode walks; the number of their
bits fits ENC_BITCNT and so DEC_NBITS. -/
theorem decodeOfTheEncodedStreamIsTheInput : Obligations.DecodeOfTheEncodedStreamIsTheInput := by
  intro s S nonempty counts inactive drains
  obtain ⟨y, first⟩ := List.exists_mem_of_ne_nil S nonempty
  have ⟨enc_idle, dec_idle⟩ := inactive
  obtain ⟨drains_enc, drains_dec⟩ := drains
  have present := List.ne_nil_of_mem (mem_presentSymbols_of_counts counts first)
  have ok := builtTree_ok s present
  have coded : ∀ x ∈ S, (builtTree s).hasCode x ((generatedCodes (builtTree s)).codeOf x) :=
    fun x member => builtTree_hasCode (mem_presentSymbols_of_counts counts member)
  have bits_fit := codes_length_lt (length_le_of_counts counts) fun x member => (hasCode_length ok (coded x member)).2.2
  obtain ⟨E, encoded, packed⟩ := execAll_encode (S := S)
    (s := { s with cg := generatedCodes (builtTree s), tb := builtTree s }) (generatedCodes_valid _) enc_idle
    drains_enc fun x member => (lenAt_ne_zero_iff ok x).mpr ⟨_, coded x member⟩
  have built := exec_tbBuild inactive present
  have generated := exec_cgGen
    (s := { s with cg := { s.cg with valid := false, maxlen := 0#8 }, tb := builtTree s }) inactive rfl
  have complete : execAll (.tbBuild :: .cgGen :: .encBegin :: S.map .encSym ++ [.encFlush]) s = _ :=
    (execAll_cons_next built _).trans ((execAll_cons_next generated _).trans encoded)
  refine ⟨_, E, complete, (List.append_assoc _ _ _).symm, _,
    execAll_decode (code := (generatedCodes (builtTree s)).codeOf) ?valid dec_idle drains_dec coded packed ?nbits,
    (List.append_assoc _ _ _).symm, rfl, rfl⟩
  case valid => rfl
  case nbits => exact Nat.mod_eq_of_lt bits_fit

end Sys2Proof.Machine
end

section
/-! PROOFS. The obligations about what a command that raises an error leaves behind, and about the interrupt line
(spec/60_exceptions.md R252 to R254, R260, R266). -/

namespace Sys2Proof.Machine

/-! ### SEQUENCE (R132, R254) -/

/-- A command whose precondition fails records SEQUENCE with its word and does nothing else (R254). -/
theorem exec_of_sequenceFails {i : Instr} {s : State} {w : Word} (word : encode i = w)
    (fails : sequenceFails i s = true) : exec i s = .next (s.withError .sequence w) := by
  subst word
  cases i with
  | nop | sreset | errClear => cases fails
  | tbBuild | cgGen | encBegin | encSym _ | encFlush | decBegin | decByte _ | decEnd => exact if_pos fails

/-- Settles O11: each condition of the table of R132 makes the precondition fail, and one law covers the eight commands. -/
theorem failedPreconditionRaisesSequence : Obligations.FailedPreconditionRaisesSequence := by
  intro s
  refine ⟨fun busy => exec_of_sequenceFails rfl ?tbBuild, fun unready => exec_of_sequenceFails rfl ?cgGen,
    fun unready => exec_of_sequenceFails rfl ?encBegin, fun idle x => exec_of_sequenceFails (encode_encSym x) ?encSym,
    fun idle => exec_of_sequenceFails rfl ?encFlush, fun unready => exec_of_sequenceFails rfl ?decBegin,
    fun idle b => exec_of_sequenceFails (encode_decByte b) ?decByte, fun idle => exec_of_sequenceFails rfl ?decEnd⟩
  case tbBuild => simpa [sequenceFails] using busy
  case cgGen => simpa [sequenceFails, or_assoc] using unready
  case encBegin | decBegin => simpa [sequenceFails] using unready
  case encSym | encFlush | decByte | decEnd => simpa [sequenceFails] using idle

/-! ### LOGIC and TRUNCATED_STREAM (R252, R253) -/

/-- Settles O30: ENC_SYM passes its precondition and finds no code, so it raises before a bit is appended. -/
theorem encSymOfAnAbsentSymbolRaisesLogic : Obligations.EncSymOfAnAbsentSymbolRaisesLogic := by
  intro s x active absent
  have allowed : sequenceFails (.encSym x) s = false := by simp [sequenceFails, active]
  rw [← encode_encSym]
  simp only [exec, execEncSym, allowed, if_pos absent, Bool.false_eq_true, if_false]
  rfl

/-- DEC_END of an active decode with bits owed or the cursor off ROOT ends it and records TRUNCATED_STREAM (R228, R253). -/
theorem exec_decEnd_truncated {s : State} (active : s.dec.active = true)
    (truncated : s.dec.remain ≠ 0#64 ∨ s.dec.cursor ≠ s.tb.root) :
    exec .decEnd s = .next
      ({ s with dec := { s.dec with active := false } }.withError .truncatedStream 0x00000042#32) := by
  have allowed : sequenceFails .decEnd s = false := by simp [sequenceFails, active]
  simp only [exec, execDecEnd, allowed, Bool.false_eq_true, if_false]
  by_cases owed : s.dec.remain ≠ 0#64
  · rw [if_pos owed]
    rfl
  · rw [if_neg owed, if_pos (truncated.resolve_left owed)]
    rfl

/-- Settles O36: the clean stop and the truncated one, each by its law of DEC_END. -/
theorem decEndTellsACleanStopFromATruncatedOne : Obligations.DecEndTellsACleanStopFromATruncatedOne :=
  fun _ active => ⟨exec_decEnd active, exec_decEnd_truncated active⟩

/-! ### The interrupt line (R266) -/

/-- Settles O47: the formula of `State.irq`, read as a proposition. -/
theorem irqIsTheEnabledSources : Obligations.IrqIsTheEnabledSources := by
  intro s
  simp only [State.irq, Bool.or_eq_true, Bool.and_eq_true, bne_iff_ne]

/-! ### Pushed bytes (R84, R260) -/

/-- From `s` to `t` the bytes taken from each stream stay, in order, and only gain bytes after them (R84). -/
def TakenKept (s t : State) : Prop := s.encOut.taken <+: t.encOut.taken ∧ s.decOut.taken <+: t.decOut.taken

/-- From `s` to `t` the bytes pushed to each stream stay, in order, and only gain bytes after them (R260). -/
def PushedKept (s t : State) : Prop := s.encOut.all <+: t.encOut.all ∧ s.decOut.all <+: t.decOut.all

theorem PushedKept.refl (s : State) : PushedKept s s := ⟨List.prefix_rfl, List.prefix_rfl⟩

theorem TakenKept.refl (s : State) : TakenKept s s := ⟨List.prefix_rfl, List.prefix_rfl⟩

/-- A reset of the block drops the untaken bytes and keeps the taken ones (R134, R280). -/
theorem resetBlock_takenKept (s : State) : TakenKept s (resetBlock s) := ⟨List.prefix_rfl, List.prefix_rfl⟩

/-- A command that keeps the frame takes no byte for the host (R84). -/
theorem CommandFrame.takenKept {s t : State} (frame : CommandFrame s t) : TakenKept s t :=
  ⟨frame.encTaken ▸ List.prefix_rfl, frame.decTaken ▸ List.prefix_rfl⟩

/-- A command that keeps the frame only pushes (R84, R260). -/
theorem CommandFrame.pushedKept {s t : State} (frame : CommandFrame s t) : PushedKept s t := by
  constructor
  · rw [Stream.all, Stream.all, frame.encTaken]
    exact (List.prefix_append_right_inj _).mpr frame.encPushed
  · rw [Stream.all, Stream.all, frame.decTaken]
    exact (List.prefix_append_right_inj _).mpr frame.decPushed

/-- A legal word is the word of the command it decodes to (R105, R109). -/
theorem encode_of_decode_ok {w : Word} {i : Instr} (legal : decode w = .ok i) : encode i = w := by
  obtain ⟨rsv, op, imm⟩ := decode_ok_fields legal
  rw [encode, ← rsv, ← imm, ← op, append_fields]

/-- The engine's turn keeps the taken bytes, and the pushed ones too unless it executes SRESET: a rejection and
ILLEGAL_CMD touch no stream, every command but SRESET keeps its frame, and retirement touches neither (R131, R260). -/
theorem engineTurn_keeps_streams {s t : State} (turn : engineTurn s = .next t) :
    TakenKept s t ∧ (s.eng = .busy (encode .sreset) ∨ PushedKept s t) := by
  rcases engineTurn_cases turn with
    ⟨-, rfl⟩ | ⟨w, held, ⟨-, rfl⟩ | ⟨-, -, rfl⟩ | ⟨i, u, legal, -, completes, rfl⟩⟩
  · exact ⟨.refl _, .inr (.refl _)⟩
  · exact ⟨.refl s, .inr (.refl s)⟩
  · exact ⟨.refl s, .inr (.refl s)⟩
  · rcases exec_frame completes with rfl | frame
    · cases completes
      exact ⟨resetBlock_takenKept s, .inl (by rw [held, encode_of_decode_ok legal])⟩
    · exact ⟨frame.takenKept, .inr frame.pushedKept⟩

/-- Every turn keeps the taken bytes, and the pushed ones too unless it resets the block (R84, R134, R260, R280). -/
theorem takeTurn_keeps_streams {r : Turn} {s t : State} (turn : takeTurn r s = .next t) :
    TakenKept s t ∧
      ((r = .setRst false ∨ (r = .engine ∧ s.eng = .busy (encode .sreset))) ∨ PushedKept s t) := by
  by_cases engine : r = .engine
  · subst engine
    obtain ⟨taken, pushed⟩ := engineTurn_keeps_streams turn
    exact ⟨taken, pushed.imp_left fun sreset => .inr ⟨rfl, sreset⟩⟩
  by_cases reset : r = .setRst false
  · subst reset
    cases turn
    exact ⟨resetBlock_takenKept { s with rstN := false }, .inl (.inl rfl)⟩
  · obtain ⟨-, -, -, -, -, -, encAll, decAll, encTaken, decTaken⟩ := hostTurn_keeps turn engine reset
    exact ⟨⟨encTaken, decTaken⟩, .inr ⟨encAll ▸ List.prefix_rfl, decAll ▸ List.prefix_rfl⟩⟩

/-- Settles O57: a step is one turn, and moving the script on touches neither stream nor the engine. -/
theorem pushedBytesAreNeverTakenBack : Obligations.PushedBytesAreNeverTakenBack := by
  intro s t stepped
  obtain ⟨script, one_turn⟩ := step_turn s
  rw [one_turn] at stepped
  obtain ⟨taken, pushed⟩ := takeTurn_keeps_streams stepped
  exact ⟨taken, fun no_reset => pushed.resolve_left no_reset⟩

end Sys2Proof.Machine
end

section
/-! PROOFS. The obligations about the encoding of the commands (spec/30_encoding.md R101 to R109). -/

namespace Sys2Proof

/-- Settles O1: the fields of the encoded word are RSV 0, the command's opcode and its immediate, and each opcode leads the
decoder to its command. -/
theorem decodeOfEncodeIsTheCommand : Obligations.DecodeOfEncodeIsTheCommand := by
  intro i
  rw [decode, if_pos (rsvOf_encode i), opOf_encode, immOf_encode]
  cases i <;> rfl

/-- Settles O2: the fields of a legal word are those of its command, and a word is its fields put together. -/
theorem encodeOfDecodeIsTheWord : Obligations.EncodeOfDecodeIsTheWord :=
  fun _ _ legal => Machine.encode_of_decode_ok legal

/-- The legal words are the encoded commands, each the word of one command only (R105, R109). -/
theorem decode_eq_ok_iff {w : Word} {i : Instr} : decode w = .ok i ↔ encode i = w :=
  ⟨encodeOfDecodeIsTheWord w i, fun word => word ▸ decodeOfEncodeIsTheCommand i⟩

/-- The mask of a format-I row drops IMM8 and keeps RSV and OP (R101, R105). -/
theorem and_maskI (w : Word) : w &&& maskI = rsvOf w ++ 0#8 ++ opOf w := by
  have mask_fields : BitVec.allOnes 16 ++ 0#8 ++ BitVec.allOnes 8 = maskI := by decide
  have masked : rsvOf w ++ immOf w ++ opOf w &&& BitVec.allOnes 16 ++ 0#8 ++ BitVec.allOnes 8 =
      rsvOf w ++ 0#8 ++ opOf w := by
    rw [BitVec.and_append, BitVec.and_append, BitVec.and_allOnes, BitVec.and_allOnes, BitVec.and_zero]
  rwa [append_fields, mask_fields] at masked

/-- A word fits a format-N row when it is the row's word (R105). -/
theorem fits_maskN (name : String) (m w : Word) : (OpcodeRow.mk name m maskN).fits w = true ↔ w = m := by
  have mask : maskN = BitVec.allOnes 32 := by decide
  rw [OpcodeRow.fits, mask, BitVec.and_allOnes, beq_iff_eq]

/-- A word fits a format-I row when it is the row's opcode with some operand (R102, R105). -/
theorem fits_maskI (name : String) (op : Byte) (w : Word) :
    (OpcodeRow.mk name (0#16 ++ 0#8 ++ op) maskI).fits w = true ↔ ∃ imm : Byte, w = 0#16 ++ imm ++ op := by
  simp only [OpcodeRow.fits, beq_iff_eq, and_maskI]
  constructor
  · intro fits
    have rsv := congrArg rsvOf fits
    have opcode := congrArg opOf fits
    rw [rsvOf_append, rsvOf_append] at rsv
    rw [opOf_append, opOf_append] at opcode
    exact ⟨immOf w, by rw [← rsv, ← opcode, append_fields]⟩
  · rintro ⟨imm, rfl⟩
    rw [rsvOf_append, opOf_append]

/-- The well-formed words are the encoded commands: one word for a format-N row, one for each operand of a format-I row
(R105). -/
theorem wordWellFormed_iff (w : Word) : wordWellFormed w = true ↔ ∃ i, encode i = w := by
  have sym_row : (0x31#32 : Word) = 0#16 ++ 0#8 ++ 0x31#8 := by decide
  have byte_row : (0x41#32 : Word) = 0#16 ++ 0#8 ++ 0x41#8 := by decide
  simp only [wordWellFormed, opcodeRows, sym_row, byte_row, List.any_cons, List.any_nil, Bool.or_false,
    Bool.or_eq_true, fits_maskN, fits_maskI]
  constructor
  · rintro (rfl | rfl | rfl | rfl | rfl | rfl | ⟨x, rfl⟩ | rfl | rfl | ⟨b, rfl⟩ | rfl)
    exacts [⟨.nop, rfl⟩, ⟨.sreset, rfl⟩, ⟨.errClear, rfl⟩, ⟨.tbBuild, rfl⟩, ⟨.cgGen, rfl⟩, ⟨.encBegin, rfl⟩,
      ⟨.encSym x, rfl⟩, ⟨.encFlush, rfl⟩, ⟨.decBegin, rfl⟩, ⟨.decByte b, rfl⟩, ⟨.decEnd, rfl⟩]
  · rintro ⟨i, rfl⟩
    cases i with
    | encSym x =>
      have operand : ∃ imm : Byte, encode (.encSym x) = 0#16 ++ imm ++ 0x31#8 := ⟨x, rfl⟩
      simp only [operand, true_or, or_true]
    | decByte b =>
      have operand : ∃ imm : Byte, encode (.decByte b) = 0#16 ++ imm ++ 0x41#8 := ⟨b, rfl⟩
      simp only [operand, true_or, or_true]
    | nop | sreset | errClear | tbBuild | cgGen | encBegin | encFlush | decBegin | decEnd =>
      simp [encode, opcodeOf, immediateOf]

/-- Settles O3: the legal words and the well-formed words are both the encoded commands. -/
theorem legalWordsAreTheOpcodeMap : Obligations.LegalWordsAreTheOpcodeMap := by
  intro w
  simp only [decode_eq_ok_iff, wordWellFormed_iff]

/-- Settles O4: each of the eleven words is decoded. -/
theorem wordsOfTheMapDecode : Obligations.WordsOfTheMapDecode := by
  unfold Obligations.WordsOfTheMapDecode
  simp only [decode_eq_ok_iff]
  decide

end Sys2Proof
end

section
/-! PROOFS. The obligations about single commands of the tree builder and the code generator (spec/41_tree_builder.md
R152 to R162, spec/42_code_gen.md R171). -/

namespace Sys2Proof.Machine

/-! ### TB_BUILD (R152, R158) -/

/-- Settles O14: the arena keeps what lies beyond the nodes the build wrote. -/
theorem tbBuildCompletes : Obligations.TbBuildCompletes := by
  intro s inactive counted
  have present := (presentSymbols_ne_nil_iff s).mpr counted
  have nleaf := builtTree_nleaf s
  have root := builtTree_root s present
  refine ⟨builtTree s, exec_tbBuild inactive present, rfl, nleaf, by rw [root, nleaf], fun k beyond => ?_⟩
  have length := (builtNodes_spec s present).1
  rw [builtTree_at, List.getElem?_eq_none (by omega), Option.getD_none]

/-- Settles O15: with no symbol present the build stops before it writes a node. -/
theorem tbBuildOfNoSymbolRaisesEmptyInput : Obligations.TbBuildOfNoSymbolRaisesEmptyInput := by
  intro s inactive uncounted
  have none_present : s.presentSymbols = [] := by
    by_contra present
    exact uncounted ((presentSymbols_ne_nil_iff s).mp present)
  simp only [exec, execTbBuild, inactive.tbBuild_allowed, Bool.false_eq_true, if_false, if_pos none_present]
  rfl

/-- Settles O18: with a count the build leaves the builder's tree, a valid arena. -/
theorem builtArenaIsAValidTree : Obligations.BuiltArenaIsAValidTree := by
  intro s t inactive counted built
  rw [tbBuild_builds inactive counted built]
  exact builtTree_ok s ((presentSymbols_ne_nil_iff s).mpr counted)

/-- The counts of the absent symbols are 0, so the present ones have the whole sum (R151). -/
theorem presentSymbols_sum (s : State) :
    (s.presentSymbols.map fun x => (s.freqAt x).toNat).sum = (allSymbols.map fun x => (s.freqAt x).toNat).sum := by
  unfold State.presentSymbols
  induction allSymbols with
  | nil => rfl
  | cons x xs ih =>
    by_cases absent : s.freqAt x = 0#32 <;> simpa [absent] using ih

/-- Settles O19: ROOT has the sum of the present symbols' counts, and the others' are 0. -/
theorem rootFrequencyIsTheSumOfCounts : Obligations.RootFrequencyIsTheSumOfCounts := by
  intro s t inactive counted built
  have present := (presentSymbols_ne_nil_iff s).mpr counted
  rw [tbBuild_builds inactive counted built, ← presentSymbols_sum, ← (builtTree_end s present).2]
  rfl

/-! ### Depth against count (R162) -/

/-- A leaf of the built tree has its symbol's count as frequency (R155, R157). -/
theorem builtTree_leaf_freq {s : State} (present : s.presentSymbols ≠ []) {k : NodeIdx} {x : Byte} {f : Freq}
    (in_use : k.val ≤ (builtTree s).root.val) (node : (builtTree s).at k = .leaf x f) :
    f.toNat = (s.freqAt x).toNat := by
  have in_leaves := (builtTree_ok s present).leaf_index in_use (by rw [node]; rfl)
  rw [builtTree_nleaf] at in_leaves
  have leaf := builtTree_leaf s k.val in_leaves
  rw [nodeNo_val, node] at leaf
  obtain ⟨rfl, rfl⟩ := Node.leaf.inj leaf
  exact BitVec.toNat_setWidth_of_le (by omega)

/-- Of two symbols with codes in the built tree the one with the higher count has a code no longer than the other's: with
one leaf there are no two such symbols, and otherwise the codes are paths, and its leaf lies no deeper (R162). -/
theorem builtTree_code_length_le {s : State} (present : s.presentSymbols ≠ []) {x y : Byte} {c d : List Bool}
    (code_x : (builtTree s).hasCode x c) (code_y : (builtTree s).hasCode y d) (higher : s.freqAt y < s.freqAt x) :
    c.length ≤ d.length := by
  have ok := builtTree_ok s present
  rcases root : (builtTree s).at (builtTree s).root with ⟨z, f⟩ | ⟨l, r, f⟩
  · rw [hasCode_of_root_leaf root] at code_x code_y
    rw [code_x.2, code_y.2]
  · rw [hasCode_of_root_internal (by rw [root]; rfl)] at code_x code_y
    obtain ⟨a, f_x, path_x, leaf_x⟩ := (leadsTo_iff _ _ _ _).mp code_x
    obtain ⟨b, f_y, path_y, leaf_y⟩ := (leadsTo_iff _ _ _ _).mp code_y
    have count_x := builtTree_leaf_freq present (ok.reaches_le le_rfl path_x).1 leaf_x
    have count_y := builtTree_leaf_freq present (ok.reaches_le le_rfl path_y).1 leaf_y
    have smaller_key : (builtTree s).keyLt b.val a.val := by
      left
      rwa [nodeNo_val, nodeNo_val, leaf_x, leaf_y, Node.freq, Node.freq, count_x, count_y]
    exact depth_le present c d (.inl smaller_key) path_x path_y

/-- Settles O21: both symbols are present, so both have codes in the built tree, which CG_GEN stores. -/
theorem higherCountIsNoDeeper : Obligations.HigherCountIsNoDeeper := by
  intro s t x y inactive done counted_y higher
  have counted_x : s.freqAt x ≠ 0#32 := by
    intro zero
    rw [zero] at higher
    exact BitVec.not_lt_zero higher
  have present := (presentSymbols_ne_nil_iff s).mpr ⟨y, counted_y⟩
  have ok := builtTree_ok s present
  have code_x := builtTree_hasCode ((mem_presentSymbols s x).mpr counted_x)
  have code_y := builtTree_hasCode ((mem_presentSymbols s y).mpr counted_y)
  have generated := exec_cgGen
    (s := { s with cg := { s.cg with valid := false, maxlen := 0#8 }, tb := builtTree s }) inactive rfl
  rw [execAll_cons_next (exec_tbBuild inactive present), execAll_cons_next generated, execAll] at done
  cases done
  rw [BitVec.le_def, (generated_code ok code_x).2.1, (generated_code ok code_y).2.1]
  exact builtTree_code_length_le present code_x code_y higher

/-! ### CG_GEN (R171) -/

/-- Settles O22: CG_GEN writes the generated table, whose MAXLEN is its largest CODE_LEN. -/
theorem cgGenCompletes : Obligations.CgGenCompletes :=
  fun s inactive valid => ⟨generatedCodes s.tb, exec_cgGen inactive valid, generatedCodes_valid s.tb,
    generatedCodes_lenAt_le_maxlen s.tb, generatedCodes_maxlen_attained s.tb⟩

end Sys2Proof.Machine
end

section
/-! PROOFS. The obligations about single commands of the encoder, the decoder and the control unit, and about where a
command stops (spec/43_stream_encoder.md R190 to R197, spec/44_stream_decoder.md R220 to R226, spec/40_control.md R134,
spec/20_memory.md R86). -/

namespace Sys2Proof.Machine

/-! ### The commands that push, drained or not (R86) -/

/-- ENC_SYM of a symbol with a code, in an active encode (R194). -/
theorem exec_encSym_drained {s : State} {x : Byte} (active : s.enc.active = true) (coded : s.cg.lenAt x ≠ 0#8) :
    exec (.encSym x) s = drained s ((emitBits (s.cg.codeOf x) s).countSymbols 1) := by
  have allowed : sequenceFails (.encSym x) s = false := by simp [sequenceFails, active]
  simp only [exec, execEncSym, allowed, if_neg coded, Bool.false_eq_true, if_false]
  rfl

/-- `s` after what ENC_FLUSH pushes and clears (R197). -/
def State.afterFlush (s : State) : State :=
  { s with
    enc := { s.enc with active := false, acc := 0#8, accCnt := 0#3 }
    encOut := { s.encOut with pending := s.encOut.pending ++ s.enc.flushed } }

/-- ENC_FLUSH in an active encode (R197). -/
theorem exec_encFlush_drained {s : State} (active : s.enc.active = true) :
    exec .encFlush s = drained s s.afterFlush := by
  have allowed : sequenceFails .encFlush s = false := by simp [sequenceFails, active]
  simp only [exec, execEncFlush, allowed, Bool.false_eq_true, if_false]
  by_cases none_pending : s.enc.accCnt = 0#3
  · simp [State.afterFlush, EncRegs.flushed, none_pending]
  · simp [State.afterFlush, EncRegs.flushed, none_pending, pushEnc, Stream.push]

/-- DEC_BYTE in an active decode (R224). -/
theorem exec_decByte_drained {s : State} (active : s.dec.active = true) (b : Byte) :
    exec (.decByte b) s = drained s (walkBits (bitsMsbFirst b) s) := by
  have allowed : sequenceFails (.decByte b) s = false := by simp [sequenceFails, active]
  simp only [exec, execDecByte, allowed, Bool.false_eq_true, if_false]

/-- ENC_FLUSH pushes nothing exactly where no bit is pending (R197). -/
theorem afterFlush_encOut (s : State) : s.afterFlush.encOut = s.encOut ↔ s.enc.accCnt = 0#3 := by
  rcases out : s.encOut with ⟨taken, pending⟩
  simp [State.afterFlush, EncRegs.flushed, out]

/-! ### The encoder's commands (R190 to R197) -/

/-- Settles O28: the law of ENC_BEGIN. -/
theorem encBeginStartsAnEncode : Obligations.EncBeginStartsAnEncode :=
  fun _ valid inactive => exec_encBegin valid inactive

/-- Settles O29: the code's bits are appended, and a code that completes no byte pushes none, drained or not. -/
theorem encSymAppendsTheCode : Obligations.EncSymAppendsTheCode := by
  intro s x active coded drains_or_short
  have no_push_or_drains : (emitBits (s.cg.codeOf x) s).encOut = s.encOut ∨ s.host.drainsEnc = true := by
    rw [emitBits_pushes_nothing, codeOf_length]
    exact drains_or_short.symm
  obtain ⟨acc, cnt, out, frame, taken, -⟩ := emitBits_spec (s.cg.codeOf x) s
  obtain ⟨new, pending, count, bits⟩ := emitBits_packs (s.cg.codeOf x) s
  have padded := emitBits_padded (s.cg.codeOf x) s
  have completes := (exec_encSym_drained active coded).trans
    (drained_next no_push_or_drains (.inl (emitBits_decOut _ s)))
  rw [codeOf_length] at count frame
  rw [frame] at pending count bits padded completes
  have short := cnt.isLt
  simp only at pending count
  refine ⟨acc, cnt, new, ?_, by omega, by omega, bits, padded⟩
  rw [completes, ← taken, ← pending]
  simp only [State.countSymbols, active, BitVec.ofNat_toNat]

/-- Settles O31: the law of ENC_FLUSH, with no byte to push or with one that the host drains. -/
theorem encFlushEndsTheEncode : Obligations.EncFlushEndsTheEncode := by
  intro s active
  refine ⟨fun none_pending => ?_, fun some_pending drains => ?_⟩
  · rw [exec_encFlush_drained active, drained_next (.inl ((afterFlush_encOut s).mpr none_pending)) (.inl rfl)]
    simp [State.afterFlush, EncRegs.flushed, none_pending]
  · rw [exec_encFlush active drains, EncRegs.flushed, if_neg some_pending]

/-! ### The decoder's commands (R220 to R226) -/

/-- Settles O33: the law of DEC_BEGIN. -/
theorem decBeginStartsADecode : Obligations.DecBeginStartsADecode :=
  fun _ valid inactive => exec_decBegin valid inactive

/-- DEC_BYTE completes with the walk where the host drains dec_out or the walk pushes nothing (R224). -/
theorem exec_decByte_walks {s : State} {b : Byte} (active : s.dec.active = true)
    (drains_or_quiet : s.host.drainsDec = true ∨ (s.walkedBy b).decOut.pending = s.decOut.pending) :
    exec (.decByte b) s = .next (walkBits (bitsMsbFirst b) s) := by
  rw [walkedBy_eq, ← walkBits_decOut] at drains_or_quiet
  rw [exec_decByte_drained active]
  exact drained_next (.inl (walkBits_encOut _ s)) drains_or_quiet.symm

/-- Settles O35: DEC_BYTE is the walk of its bits, whose frame says what it changes; with no bit owed it is empty. -/
theorem decByteWalksItsBits : Obligations.DecByteWalksItsBits := by
  refine ⟨fun s b active none_owed => ?_, fun s b active drains_or_quiet => ?_⟩
  · rw [exec_decByte_drained active, walkBits_zero _ _ none_owed]
    exact drained_next (.inl rfl) (.inl rfl)
  · have completes := exec_decByte_walks active drains_or_quiet
    obtain ⟨rem, cur, cnt, out, frame, owed, taken, new, pending, rfl, few⟩ := walkBits_frame (bitsMsbFirst b) s
    have rem_eq : rem = BitVec.ofNat 64 (s.dec.remain.toNat - 8) := by
      rw [← length_bitsMsbFirst b, ← owed, BitVec.ofNat_toNat, BitVec.setWidth_eq]
    refine ⟨cur, new, by rw [completes, walkBits_eq_foldl], ?_, few⟩
    rw [completes, frame, ← rem_eq, ← taken, ← pending]

/-! ### SRESET (R134) -/

/-- Settles O9: SRESET is the reset of the block, and its word passes the gate whether or not an error is pending. -/
theorem sresetLeavesTheResetState : Obligations.SresetLeavesTheResetState := by
  intro s
  have legal : decode 0x00000001#32 = .ok .sreset := by decide
  exact ⟨resetBlock s, rfl, resetFrom_resetBlock s, rfl, fun held => engineTurn_completes held legal (.inr rfl) rfl⟩

/-! ### Where a command stops (R86, R290) -/

/-- A command that pushes to neither stream answers a next state: a raise, or its own effect. -/
theorem exec_completes_of_no_push {i : Instr} (s : State) (no_sym : ∀ x, i ≠ .encSym x) (no_flush : i ≠ .encFlush)
    (no_byte : ∀ b, i ≠ .decByte b) : ∃ t, exec i s = .next t := by
  cases i with
  | nop | sreset | errClear => exact ⟨_, rfl⟩
  | encSym x => exact absurd rfl (no_sym x)
  | encFlush => exact absurd rfl no_flush
  | decByte b => exact absurd rfl (no_byte b)
  | tbBuild =>
    simp only [exec, execTbBuild]
    split
    · exact ⟨_, rfl⟩
    · split <;> exact ⟨_, rfl⟩
  | cgGen =>
    simp only [exec, execCgGen]
    split <;> exact ⟨_, rfl⟩
  | encBegin =>
    simp only [exec, execEncBegin]
    split <;> exact ⟨_, rfl⟩
  | decBegin =>
    simp only [exec, execDecBegin]
    split <;> exact ⟨_, rfl⟩
  | decEnd =>
    simp only [exec, execDecEnd]
    split
    · exact ⟨_, rfl⟩
    · split
      · exact ⟨_, rfl⟩
      · split <;> exact ⟨_, rfl⟩

/-- A command that pushes to neither stream never stops. -/
theorem exec_no_stop_of_no_push {i : Instr} {s : State} {r : Fault} (no_sym : ∀ x, i ≠ .encSym x)
    (no_flush : i ≠ .encFlush) (no_byte : ∀ b, i ≠ .decByte b) : exec i s ≠ .fault r := by
  obtain ⟨t, completes⟩ := exec_completes_of_no_push s no_sym no_flush no_byte
  rw [completes]
  exact nofun

/-- ENC_SYM stops where the code completes a byte that the host does not drain (R86). -/
theorem exec_encSym_fault {s : State} {x : Byte} (r : Fault) :
    exec (.encSym x) s = .fault r ↔
      r = .encOutUndrained ∧ s.host.drainsEnc = false ∧ s.enc.active = true ∧ s.cg.lenAt x ≠ 0#8 ∧
        8 ≤ s.enc.accCnt.toNat + (s.cg.lenAt x).toNat := by
  by_cases active : s.enc.active = true
  · by_cases absent : s.cg.lenAt x = 0#8
    · simp [encSymOfAnAbsentSymbolRaisesLogic s x active absent, absent]
    · have no_push := emitBits_pushes_nothing (s.cg.codeOf x) s
      rw [codeOf_length] at no_push
      have same_dec : ((emitBits (s.cg.codeOf x) s).countSymbols 1).decOut = s.decOut := emitBits_decOut _ s
      have same_enc : ((emitBits (s.cg.codeOf x) s).countSymbols 1).encOut = (emitBits (s.cg.codeOf x) s).encOut := rfl
      rw [exec_encSym_drained active absent, drained_fault (.inr same_dec), same_enc, ne_eq, no_push, Nat.not_lt]
      simp only [same_dec, active, absent, ne_eq, not_true_eq_false, not_false_eq_true, false_and, or_false,
        true_and, and_comm]
  · have fails : sequenceFails (.encSym x) s = true := by simpa [sequenceFails] using active
    simp [exec_of_sequenceFails rfl fails, active]

/-- ENC_FLUSH stops where bits are pending and the host does not drain (R86). -/
theorem exec_encFlush_fault {s : State} (r : Fault) :
    exec .encFlush s = .fault r ↔
      r = .encOutUndrained ∧ s.host.drainsEnc = false ∧ s.enc.active = true ∧ s.enc.accCnt ≠ 0#3 := by
  by_cases active : s.enc.active = true
  · have same_dec : s.afterFlush.decOut = s.decOut := rfl
    rw [exec_encFlush_drained active, drained_fault (.inr same_dec)]
    simp only [afterFlush_encOut, same_dec, active, ne_eq, not_true_eq_false, false_and, or_false, true_and, and_comm]
  · have fails : sequenceFails .encFlush s = true := by simpa [sequenceFails] using active
    simp [exec_of_sequenceFails rfl fails, active]

/-- DEC_BYTE stops where its walk pushes a symbol and the host does not drain (R86). -/
theorem exec_decByte_fault {s : State} {b : Byte} (r : Fault) :
    exec (.decByte b) s = .fault r ↔
      r = .decOutUndrained ∧ s.host.drainsDec = false ∧ s.dec.active = true ∧
        (s.walkedBy b).decOut.pending ≠ s.decOut.pending := by
  by_cases active : s.dec.active = true
  · rw [exec_decByte_drained active, drained_fault (.inl (walkBits_encOut _ s)), walkedBy_eq, ne_eq, ne_eq, ne_eq,
      walkBits_decOut]
    simp only [walkBits_encOut, active, not_true_eq_false, false_and, false_or, true_and, and_comm]
  · have fails : sequenceFails (.decByte b) s = true := by simpa [sequenceFails] using active
    simp [exec_of_sequenceFails rfl fails, active]

/-- A command that does not stop answers a next state: the drain duty never refuses. -/
theorem exec_answers {i : Instr} {s : State} (no_stop : ∀ r : Fault, exec i s ≠ .fault r) : ∃ t, exec i s = .next t := by
  by_cases fails : sequenceFails i s = true
  · exact ⟨_, exec_of_sequenceFails rfl fails⟩
  cases i with
  | encSym x =>
    have active : s.enc.active = true := by simpa [sequenceFails] using fails
    by_cases absent : s.cg.lenAt x = 0#8
    · exact ⟨_, encSymOfAnAbsentSymbolRaisesLogic s x active absent⟩
    · rw [exec_encSym_drained active absent] at no_stop ⊢
      exact drained_answers _ _ no_stop
  | encFlush =>
    have active : s.enc.active = true := by simpa [sequenceFails] using fails
    rw [exec_encFlush_drained active] at no_stop ⊢
    exact drained_answers _ _ no_stop
  | decByte b =>
    have active : s.dec.active = true := by simpa [sequenceFails] using fails
    rw [exec_decByte_drained active] at no_stop ⊢
    exact drained_answers _ _ no_stop
  | nop | sreset | errClear | tbBuild | cgGen | encBegin | decBegin | decEnd =>
    exact exec_completes_of_no_push s nofun nofun nofun

/-- Settles O49: each of the three commands that push has its law; no other command stops. -/
theorem onlyAnUndrainedPushStops : Obligations.OnlyAnUndrainedPushStops := by
  intro s i
  refine ⟨fun r => ?_, exec_answers⟩
  cases i with
  | encSym x => simp [exec_encSym_fault]
  | encFlush => simp [exec_encFlush_fault]
  | decByte b => simp [exec_decByte_fault]
  | nop | sreset | errClear | tbBuild | cgGen | encBegin | decBegin | decEnd =>
    exact iff_of_false (exec_no_stop_of_no_push nofun nofun nofun) (by simp)

end Sys2Proof.Machine
end

section
/-! PROOFS. The obligations about the engine's turn and the step that takes it (spec/40_control.md R130, R131,
spec/60_exceptions.md R261, R264). -/

namespace Sys2Proof.Machine

/-! ### The turn of a step (log 1) -/

/-- With a turn in the script, the step takes it and moves the script on. -/
theorem step_of_script {s : State} {r : Turn} {rest : List Turn} (script : s.host.script = r :: rest) :
    step s = takeTurn r { s with host := { s.host with script := rest } } := by
  simp only [step, nextTurn, script]

/-- With an empty script the step takes the default turn. -/
theorem step_of_empty_script {s : State} (script : s.host.script = []) : step s = takeTurn (autoTurn s) s := by
  simp only [step, nextTurn, script]

/-- Settles O5: the step is the engine's turn, by the script or by default, and the gate lets the command through. -/
theorem stepRunsTheHeldCommand : Obligations.StepRunsTheHeldCommand := by
  intro s w i held legal hpass
  have passes := hpass.imp_right (passesPendingError_iff i).mpr
  refine ⟨fun rest script => ?_, fun script => ?_⟩
  · rw [step_of_script script]
    exact ⟨fun t => engineTurn_completes held legal passes, fun r => engineTurn_stops held legal passes⟩
  · have default_turn : autoTurn s = .engine := by rw [autoTurn, held]; rfl
    rw [step_of_empty_script script, default_turn]
    exact ⟨fun t => engineTurn_completes held legal passes, fun r => engineTurn_stops held legal passes⟩

/-! ### Retirement (R131, R294) -/

/-- A command completes when the host drains both streams (R290). -/
theorem exec_completes {s : State} (drains : s.Drains) (i : Instr) : ∃ t, exec i s = .next t := by
  obtain ⟨drains_enc, drains_dec⟩ := drains
  refine exec_answers fun r stops => ?_
  obtain ⟨-, undrained, -⟩ | ⟨-, undrained, -⟩ := ((onlyAnUndrainedPushStops s i).1 r).mp stops
  · rw [drains_enc] at undrained
    cases undrained
  · rw [drains_dec] at undrained
    cases undrained

/-- Settles O7: a word is rejected, illegal, or a command that completes; in each case it retires. -/
theorem everyAcceptedCommandRetires : Obligations.EveryAcceptedCommandRetires := by
  intro s w held drains
  by_cases rejected : gateRejects (decode w) s = true
  · exact ⟨_, engineTurn_rejected held rejected, rfl, rfl⟩
  cases legal : decode w with
  | error e =>
    have no_error : s.ctl.errCode = .none := by simpa [legal, gateRejects] using rejected
    exact ⟨_, engineTurn_illegal held no_error legal, rfl, rfl⟩
  | ok i =>
    have passes : s.ctl.errCode = .none ∨ passesPendingError i = true := by
      simpa [legal, gateRejects, ← or_iff_not_imp_left] using rejected
    obtain ⟨t, completes⟩ := exec_completes drains i
    exact ⟨_, engineTurn_completes held legal passes completes, rfl, rfl⟩

/-! ### The error recorded (R258, R261, R264) -/

/-- Settles O12: under a pending error the turn rejects, or runs NOP, SRESET or ERR_CLEAR. -/
theorem errorsDoNotNest : Obligations.ErrorsDoNotNest := by
  intro s t pending turn
  rcases engineTurn_cases turn with
    ⟨-, rfl⟩ | ⟨w, -, ⟨-, rfl⟩ | ⟨no_error, -⟩ | ⟨i, u, -, passes, completes, rfl⟩⟩
  · exact .inl ⟨rfl, rfl⟩
  · exact .inl ⟨rfl, rfl⟩
  · exact absurd no_error pending
  · obtain rfl | rfl | rfl := (passesPendingError_iff i).mp (passes.resolve_left pending) <;> cases completes
    · exact .inl ⟨rfl, rfl⟩
    · exact .inr ⟨rfl, rfl⟩
    · exact .inr ⟨rfl, rfl⟩

/-- Settles O13: the command records what `errorOf` names, with its encoding, which is the held word; SRESET records
nothing. -/
theorem errorRecordedIsTheFirstThatApplies : Obligations.ErrorRecordedIsTheFirstThatApplies := by
  intro s t w i held legal no_error turn
  rw [engineTurn_exec held legal (.inl no_error)] at turn
  rw [← encode_of_decode_ok legal]
  cases completes : exec i s with
  | fault r | refused r =>
    rw [completes] at turn
    cases turn
  | next u =>
    rw [completes] at turn
    cases turn
    by_cases sreset : i = .sreset
    · subst sreset
      cases completes
      exact ⟨fun _ => rfl, nofun⟩
    · exact exec_errorOf (t := u) sreset no_error completes

end Sys2Proof.Machine
end

section
/-! PROOFS. The obligations about the CSR bus and the status word (spec/20_memory.md R72 to R79, spec/10_state.md R25, R30 to
R43, spec/70_reset_and_hazards.md R287). -/

namespace Sys2Proof.Machine

/-! ### Reads of an IDLE block (R73, R74) -/

/-- With the engine IDLE only stale entries are unspecified (R35, R43). -/
theorem csrFree_idle {s : State} (out_of_reset : s.rstN = true) (idle : s.eng = .idle) (r : CsrReg) :
    csrFree r s = staleFree r s := by
  rw [csrFree, if_pos out_of_reset, busyFree_idle r s idle, BitVec.or_zero]

/-- With the engine IDLE a read of what is not stale returns the register's value (R74). -/
theorem csrRead_idle {s : State} (out_of_reset : s.rstN = true) (idle : s.eng = .idle) {a : Addr} {r : CsrReg}
    (register : csrAt a = r) (fresh : ¬ s.stale r) :
    csrRead a s = { s with host := { s.host with reads := s.host.reads ++ [csrValue r s] } } := by
  subst register
  exact csrRead_value ((csrFree_idle out_of_reset idle _).trans ((staleFree_spec _ s).2 fresh))

/-- Code bit i stands in word i div 32 at bit 31 - (i mod 32), word 0 being the most significant (R41). -/
theorem wordAt_getLsbD (r : CodeRegs) (x : Byte) (i : Nat) (h : i / 32 < 8) :
    (r.wordAt x ⟨i / 32, h⟩).getLsbD (31 - i % 32) = r.codeBit x i := by
  have in_word : 31 - i % 32 < 32 := by omega
  have in_bits : i < 256 := by omega
  have position : 32 * (7 - i / 32) + (31 - i % 32) = 256 - 1 - i := by omega
  simp only [CodeRegs.wordAt, CodeRegs.codeBit, BitVec.getLsbD_extractLsb', BitVec.getMsbD, in_word, in_bits, position]

/-- Settles O39: each window address leads to its entry, which is not stale. -/
theorem arrayReadsReturnTheEntries : Obligations.ArrayReadsReturnTheEntries := by
  refine ⟨wordAt_getLsbD, fun s out_of_reset idle => ?_⟩
  have read {a : Addr} {r : CsrReg} := csrRead_idle out_of_reset idle (a := a) (r := r)
  refine ⟨fun x => read (csrAt_freq x) id, fun codes x => read (csrAt_codeLen x) (by simp [State.stale, codes]),
    fun codes x w => read (csrAt_codeBits x w) (by simp [State.stale, codes]), fun tree k in_use => ?_⟩
  have fresh : ¬ (s.tb.valid = false ∨ 2 * s.tb.nleaf.val < k.val + 2) := by simp [tree, in_use]
  refine ⟨?_, read (csrAt_nodeFreqLo k) fresh, read (csrAt_nodeFreqHi k) fresh⟩
  rw [read (csrAt_nodeInfo k) fresh, csrValue, infoWord_eq] <;> rfl

/-- Settles O40: a reserved address reads 0, and each scalar address leads to its register, which is never stale. -/
theorem scalarReadsReturnTheRegisters : Obligations.ScalarReadsReturnTheRegisters := by
  refine ⟨fun s a out_of_reset reserved => ?_, fun s out_of_reset idle => ?_⟩
  · have register := reserved_at a reserved
    rw [csrRead_value (register ▸ reserved_free out_of_reset), register]
    rfl
  · have read {n : Nat} {r : CsrReg} := csrRead_idle out_of_reset idle (a := BitVec.ofNat 16 n) (r := r)
    have root_low : freqLow s.tb.rootFreq =
        if s.tb.valid then (s.tb.at s.tb.root).freq.extractLsb' 0 32 else 0#32 := by
      rw [TreeRegs.rootFreq]; split <;> rfl
    have root_high : freqHigh s.tb.rootFreq =
        if s.tb.valid then ((s.tb.at s.tb.root).freq.extractLsb' 32 8).setWidth 32 else 0#32 := by
      rw [TreeRegs.rootFreq]; split <;> rfl
    rw [← root_low, ← root_high]
    simp only [List.forall_mem_cons, List.not_mem_nil, false_imp_iff, implies_true, and_true]
    exact ⟨read (r := .id) rfl id, read (r := .ctrl) rfl id, read (r := .status) rfl id, read (r := .errInfo) rfl id,
      read (r := .nleaf) rfl id, read (r := .root) rfl id, read (r := .rootFreqLo) rfl id,
      read (r := .rootFreqHi) rfl id, read (r := .maxlen) rfl id, read (r := .encBitcntLo) rfl id,
      read (r := .encBitcntHi) rfl id, read (r := .encSymcntLo) rfl id, read (r := .encSymcntHi) rfl id,
      read (r := .encAcc) rfl id, read (r := .decNbitsLo) rfl id, read (r := .decNbitsHi) rfl id,
      read (r := .decRemainLo) rfl id, read (r := .decRemainHi) rfl id, read (r := .decSymcntLo) rfl id,
      read (r := .decSymcntHi) rfl id, read (r := .decCursor) rfl id⟩

/-- Settles O42: a stale entry is unspecified in every bit, so the read is a draw. -/
theorem staleArrayReadsAreFreeDraws : Obligations.StaleArrayReadsAreFreeDraws := by
  intro s a out_of_reset idle stale_entry
  have stale : s.stale (csrAt a) := by
    obtain ⟨k, register | register | register, old⟩ | ⟨invalid, ⟨x, register⟩ | ⟨x, w, register⟩⟩ := stale_entry
    · rw [register]; exact old
    · rw [register]; exact old
    · rw [register]; exact old
    · rw [register]; exact invalid
    · rw [register]; exact invalid
  exact csrRead_draw ((csrFree_idle out_of_reset idle _).trans ((staleFree_spec _ s).1 stale))

/-! ### What any read does (R74, R78) -/

/-- Settles O44: a read with no unspecified bit returns the value, any other mixes it with a draw by the mask. -/
theorem csrReadHasNoSideEffect : Obligations.CsrReadHasNoSideEffect := by
  intro a s
  by_cases specified : csrFree (csrAt a) s = 0#32
  · refine ⟨csrValue (csrAt a) s, s.draws, csrRead_value specified, fun j _ _ => rfl, fun j _ free => ?_⟩
    simp [specified] at free
  · refine ⟨_, s.draws + 1, if_neg specified, fun j in_word bit => ?_, fun j in_word bit => ?_⟩
    · simp only [BitVec.getLsbD_or, BitVec.getLsbD_and, BitVec.getLsbD_not, bit, in_word, decide_true, Bool.not_false,
        Bool.and_true, Bool.and_false, Bool.or_false]
    · simp only [BitVec.getLsbD_or, BitVec.getLsbD_and, BitVec.getLsbD_not, bit, in_word, decide_true, Bool.not_true,
        Bool.and_true, Bool.and_false, Bool.false_or, true_and]

/-! ### Writes (R75 to R77) -/

/-- Out of reset, a write to a register that is not protected, or with the engine IDLE, stores (R75). -/
theorem csrWrite_stores {s : State} (out_of_reset : s.rstN = true) {a : Addr} {r : CsrReg} (register : csrAt a = r)
    (accepted : s.eng = .idle ∨ r.busyProtected = false) (v : Word) : csrWrite a v s = csrStore r v s := by
  have not_refused : (s.eng.isBusy && r.busyProtected) = false := by
    obtain idle | unprotected := accepted
    · rw [idle]; rfl
    · rw [unprotected, Bool.and_false]
  simp [csrWrite, out_of_reset, register, not_refused]

/-- Out of reset, a write to a protected register is refused while BUSY (R75, R262). -/
theorem csrWrite_refused {s : State} (out_of_reset : s.rstN = true) {a : Addr} {r : CsrReg} (register : csrAt a = r)
    (busy : s.eng ≠ .idle) (protected_reg : r.busyProtected = true) (v : Word) :
    csrWrite a v s = refuseBusyWrite s := by
  have is_busy : s.eng.isBusy = true := by
    cases held : s.eng with
    | idle => exact absurd held busy
    | busy w => rfl
  simp [csrWrite, out_of_reset, register, is_busy, protected_reg]

/-- Settles O45: CTRL and STATUS take a write at any time, FREQ and DEC_NBITS while IDLE. -/
theorem csrWritesHaveTheirEffects : Obligations.CsrWritesHaveTheirEffects := by
  intro s v out_of_reset
  refine ⟨csrWrite_stores out_of_reset (r := .ctrl) rfl (.inr rfl) v, ?_, fun idle => ?_, fun busy => ?_⟩
  · have clear : ∀ old bit : Bool, (old && !bit) = if bit then false else old := by decide
    have stored := csrWrite_stores out_of_reset (a := 0x0008#16) (r := .status) rfl (.inr rfl) v
    simp only [stored, csrStore, clear]
  · exact ⟨fun x => csrWrite_stores out_of_reset (csrAt_freq x) (.inl idle) v,
      csrWrite_stores out_of_reset (r := .decNbitsLo) rfl (.inl idle) v,
      csrWrite_stores out_of_reset (r := .decNbitsHi) rfl (.inl idle) v⟩
  · exact ⟨fun x => csrWrite_refused out_of_reset (csrAt_freq x) busy rfl v,
      csrWrite_refused out_of_reset (r := .decNbitsLo) rfl busy rfl v,
      csrWrite_refused out_of_reset (r := .decNbitsHi) rfl busy rfl v⟩

/-- Beside CTRL, STATUS, DEC_NBITS and the FREQ window no address leads to a register that takes a write (R73, R75). -/
theorem csrAt_not_writable {a : Addr} (not_ctrl : a &&& 0xFFFC#16 ≠ 0x0004#16) (not_status : a &&& 0xFFFC#16 ≠ 0x0008#16)
    (not_nbits_low : a &&& 0xFFFC#16 ≠ 0x0040#16) (not_nbits_high : a &&& 0xFFFC#16 ≠ 0x0044#16)
    (not_freq : a < 0x0400#16 ∨ 0x0800#16 ≤ a) :
    (csrAt a).busyProtected = false ∧ csrAt a ≠ .ctrl ∧ csrAt a ≠ .status := by
  rw [ne_eq, ← BitVec.toNat_inj] at not_ctrl not_status not_nbits_low not_nbits_high
  rw [BitVec.lt_def, BitVec.le_def] at not_freq
  change ¬ wordAddr a = 4 at not_ctrl
  change ¬ wordAddr a = 8 at not_status
  change ¬ wordAddr a = 0x40 at not_nbits_low
  change ¬ wordAddr a = 0x44 at not_nbits_high
  change a.toNat < 0x400 ∨ 0x800 ≤ a.toNat at not_freq
  have word := wordAddr_eq a
  have not_window : wordAddr a < 0x400 ∨ 0x800 ≤ wordAddr a := by omega
  unfold csrAt
  generalize wordAddr a = n at *
  obtain scalar | above := not_window
  · have writable := csrScalar_writable n scalar
    simpa [scalar, not_ctrl, not_status, not_nbits_low, not_nbits_high] using writable
  · rw [if_neg (by omega), if_neg (by omega)]
    split_ifs <;> exact ⟨rfl, nofun, nofun⟩

/-- Settles O46: the address leads to no register that takes a write, so the write is neither refused nor stored. -/
theorem otherCsrWritesHaveNoEffect : Obligations.OtherCsrWritesHaveNoEffect := by
  intro s a v not_ctrl not_status not_nbits_low not_nbits_high not_freq
  obtain ⟨unprotected, no_ctrl, no_status⟩ :=
    csrAt_not_writable not_ctrl not_status not_nbits_low not_nbits_high not_freq
  cases level : s.rstN with
  | false => simp [csrWrite, level]
  | true => rw [csrWrite_stores level rfl (.inr unprotected), csrStore_other v s unprotected no_ctrl no_status]

/-! ### Reads while BUSY (R287) -/

/-- For an illegal word and for one the gate rejects, the error row is unspecified (R287). -/
theorem busyFree_no_command {s : State} {w : Word} (held : s.eng = .busy w)
    (no_command : (∃ e, decode w = .error e) ∨ gateRejects (decode w) s = true) (r : CsrReg) :
    busyFree r s = errorRow r := by
  cases legal : decode w with
  | error e => simp only [busyFree, held, legal]
  | ok i =>
    rw [legal] at no_command
    simp only [busyFree, held, legal, if_pos (no_command.resolve_left nofun)]

/-- For a command the gate lets through, its own row is unspecified, and the error row besides where it raises (R287). -/
theorem busyFree_command {s : State} {w : Word} {i : Instr} (held : s.eng = .busy w) (legal : decode w = .ok i)
    (passes : s.ctl.errCode = .none ∨ passesPendingError i = true) (r : CsrReg) :
    busyFree r s = if (errorOf i s).isSome then errorRow r ||| commandRow i r else commandRow i r := by
  have let_through : gateRejects (.ok i) s = false := by
    obtain no_error | passes := passes
    · simp [gateRejects, no_error]
    · simp [gateRejects, passes]
  simp only [busyFree, held, legal, let_through, Bool.false_eq_true, if_false]

/-- The reads while a command runs, from its row of R287: `P` names the row's registers and `mask` its STATUS bits. -/
theorem rowReads_of_commandRow {s : State} {w : Word} {i : Instr} {mask : Word} {P : CsrReg → Prop}
    (out_of_reset : s.rstN = true) (held : s.eng = .busy w) (legal : decode w = .ok i)
    (passes : s.ctl.errCode = .none ∨ passesPendingError i = true) (some_bit : mask ≠ 0#32)
    (status : commandRow i .status = mask)
    (row : ∀ r, r ≠ .status → (P r → commandRow i r = everyBit) ∧ (¬ P r → commandRow i r = 0#32)) :
    RowReads i s mask P := by
  have free := busyFree_command held legal passes
  refine ⟨fun quiet => ?_, fun raises => ?_⟩
  · simp only [quiet, Option.isSome_none, Bool.false_eq_true, if_false] at free
    exact readsFree_of_busyFree out_of_reset some_bit ((free _).trans status) fun r other => free r ▸ row r other
  · simp only [Option.isSome_iff_ne_none.mpr raises, if_true] at free
    refine readsFree_of_busyFree out_of_reset ?_ ((free _).trans ?_) fun r other => free r ▸ row_or_error row r other
    · exact fun zero => some_bit (BitVec.or_eq_zero_iff.mp zero).2
    · rw [status]; rfl

/-- Settles O43: the free bits are those of the error row for a word that is no command to perform, and of the command's
row otherwise; SRESET, NOP and ERR_CLEAR raise nothing. -/
theorem busyReadsAreDrawsWhereTheCommandWrites : Obligations.BusyReadsAreDrawsWhereTheCommandWrites := by
  refine ⟨fun s w out_of_reset held illegal_or_rejected => ?_, fun s w i out_of_reset held legal hpass => ?_⟩
  · have free := busyFree_no_command held (illegal_or_rejected.imp_right (gateRejects_iff _ s).mpr)
    exact readsFree_of_busyFree out_of_reset (by decide) (free _) fun r other => free r ▸ errorRow_spec r other
  · have reads {mask P} := rowReads_of_commandRow (mask := mask) (P := P) out_of_reset held legal
      (hpass.imp_right (passesPendingError_iff i).mpr)
    refine ⟨?tree, ?codes, ?encode, ?decode, ?reset, ?control⟩
    case tree => rintro rfl; exact reads (by decide) rfl treeRow_spec
    case codes => rintro rfl; exact reads (by decide) rfl codeRow_spec
    case encode => rintro (rfl | ⟨x, rfl⟩ | rfl) <;> exact reads (by decide) rfl encodeRow_spec
    case decode => rintro (rfl | ⟨b, rfl⟩ | rfl) <;> exact reads (by decide) rfl decodeRow_spec
    case reset => rintro rfl; exact (reads (by decide) rfl resetRow_spec).1 rfl
    case control => rintro (rfl | rfl) <;> exact (reads (by decide) rfl errorRow_spec).1 rfl

/-! ### The status word (R25, R250) -/

/-- STATUS with its width written as the sum of its fields' widths. -/
def State.statusFields (s : State) : BitVec (20 + 4 + 1 + 1 + 1 + 1 + 1 + 1 + 1 + 1) := s.statusWord

/-- The bits of a word with one bit put below it. -/
theorem getLsbD_append_ofBool {n : Nat} (x : BitVec n) (b : Bool) (j : Nat) :
    (x ++ BitVec.ofBool b).getLsbD j = if j = 0 then b else x.getLsbD (j - 1) := by
  rcases Nat.eq_zero_or_pos j with rfl | above
  · rw [BitVec.getLsbD_append]
    simp
  · have not_lowest : ¬ j < 1 := by omega
    simp [BitVec.getLsbD_append, not_lowest, above.ne']

/-- A field of a word with one bit put below it. -/
theorem extractLsb'_append_ofBool {n : Nat} (x : BitVec n) (b : Bool) (start len : Nat) :
    (x ++ BitVec.ofBool b).extractLsb' (start + 1) len = x.extractLsb' start len := by
  ext j in_field
  simp only [BitVec.getElem_extractLsb', getLsbD_append_ofBool]
  rw [if_neg (by omega), show start + 1 + j - 1 = start + j by omega]

/-- Settles O41: STATUS is its fields put together, bit by bit. -/
theorem statusBitsAreTheirFields : Obligations.StatusBitsAreTheirFields := by
  intro s
  have busy : s.eng.isBusy = decide (s.eng ≠ .idle) := by cases s.eng <;> rfl
  have midpath : s.decMidpath = (s.dec.active && decide (s.dec.cursor ≠ s.tb.root)) := by
    rw [State.decMidpath, decide_not]; rfl
  rw [← busy, ← midpath]
  have bit : ∀ j, s.statusWord.getLsbD j = s.statusFields.getLsbD j := fun _ => rfl
  have field : ∀ start len, s.statusWord.extractLsb' start len = s.statusFields.extractLsb' start len := fun _ _ => rfl
  simp only [bit, field]
  simp only [State.statusFields, State.statusWord, getLsbD_append_ofBool, extractLsb'_append_ofBool]
  refine ⟨rfl, rfl, rfl, rfl, rfl, rfl, rfl, rfl, ?_, ?_⟩
  · cases s.ctl.errCode <;> rfl
  · cases s.ctl.errCode <;> rfl

end Sys2Proof.Machine
end

section
/-! PROOFS. The obligations about reset and the ports (spec/70_reset_and_hazards.md R280, R282, R285, spec/20_memory.md R84,
spec/10_state.md R22, R55). -/

namespace Sys2Proof.Machine

/-! ### The output streams (R84) -/

/-- A take with a byte waiting moves the oldest one (R84). -/
theorem Stream.take_of_cons {st : Stream} {b : Byte} {rest : List Byte} (waiting : st.pending = b :: rest) :
    st.take = { taken := st.taken ++ [b], pending := rest } := by
  simp only [Stream.take, waiting]

/-- A take with no byte waiting changes nothing (R84). -/
theorem Stream.take_of_nil {st : Stream} (empty : st.pending = []) : st.take = st := by
  simp only [Stream.take, empty]

/-- Settles O60: a take turn is the stream's take, and a valid output is a byte waiting out of reset. -/
theorem takeTurnsMoveTheOldestByte : Obligations.TakeTurnsMoveTheOldestByte := by
  intro s
  refine ⟨fun b rest waiting => ?_, fun b rest waiting => ?_, fun empty => ?_, fun empty => ?_, ?_, ?_⟩
  · rw [takeTurn, Stream.take_of_cons waiting]
  · rw [takeTurn, Stream.take_of_cons waiting]
  · rw [takeTurn, Stream.take_of_nil empty]
  · rw [takeTurn, Stream.take_of_nil empty]
  · simp [State.encOutValid]
  · simp [State.decOutValid]

/-! ### Reset (R55, R280) -/

/-- Settles O50: the state right after reset is the reset of itself. -/
theorem resetStateHoldsTheTable : Obligations.ResetStateHoldsTheTable :=
  ⟨resetFrom_resetBlock State.reset, rfl, rfl, rfl, rfl, rfl, rfl⟩

/-- While rst_n is 0 a write has no effect (R280). -/
theorem csrWrite_in_reset {s : State} (level : s.rstN = false) (a : Addr) (v : Word) : csrWrite a v s = s := by
  simp [csrWrite, level]

/-- While rst_n is 0 a read is a draw (R280). -/
theorem csrFree_in_reset {s : State} (level : s.rstN = false) (r : CsrReg) : csrFree r s = everyBit := by
  simp [csrFree, level]

/-- Settles O51: the fall of rst_n resets the block and leaves the pin at 0, which holds off every access. -/
theorem hardwareResetForcesTheResetState : Obligations.HardwareResetForcesTheResetState := by
  intro s
  have table := resetFrom_resetBlock { s with rstN := false }
  exact ⟨resetBlock { s with rstN := false }, rfl, { table with }, rfl, rfl, rfl, rfl, rfl, csrWrite_in_reset rfl,
    fun a => csrRead_draw (csrFree_in_reset rfl (csrAt a)), rfl⟩

/-! ### The command port (R22, R285) -/

/-- The handshake of a block that is in reset or BUSY changes nothing (R22, R285). -/
theorem acceptTurn_not_ready {s : State} (not_ready : s.rstN = false ∨ s.eng ≠ .idle) : acceptTurn s = s := by
  obtain same | ⟨w, rest, -, level, idle, -⟩ := acceptTurn_cases s
  · exact same
  · obtain in_reset | busy := not_ready
    · rw [level] at in_reset
      cases in_reset
    · exact absurd idle busy

/-- The handshake of a block with no word offered changes nothing (R22). -/
theorem acceptTurn_none_offered {s : State} (none_offered : s.host.offers = []) : acceptTurn s = s := by
  simp only [acceptTurn, none_offered]

/-- The turns of an issued command with no earlier word offered: the offer, the engine's turn on the command under way, the
handshake, the engine's turn (R112, log 21). -/
theorem hostWord_turns {s : State} (none_offered : s.host.offers = []) (w : Word) :
    hostWord w s = andThen (engineTurn { s with host := { s.host with offers := [w] } })
      fun t => engineTurn (acceptTurn t) := by
  have turns : (List.replicate (s.host.offers.length + 1) [Turn.engine, .accept]).flatten = [.engine, .accept] := by
    rw [none_offered]; rfl
  rw [hostWord, turns]
  simp only [List.cons_append, List.nil_append, takeTurns, takeTurn, none_offered, andThen_next, andThen_done]

/-- Settles O48: the handshake by whether the block is ready, and an issue by its four turns. -/
theorem offeredWordWaitsForTheEngine : Obligations.OfferedWordWaitsForTheEngine := by
  refine ⟨fun s w rest offered => ⟨fun level idle => ?_, fun not_ready => ?_⟩, fun s t w level none_offered turn => ?_⟩
  · rw [takeTurn, acceptTurn_ready offered level idle]
    rfl
  · rw [takeTurn, acceptTurn_not_ready not_ready]
  · obtain ⟨idle, same_level, same_host⟩ := engineTurn_ends turn
    have offered : t.host.offers = w :: [] := by rw [same_host]
    refine ⟨idle, ?_⟩
    rw [hostWord_turns none_offered, turn, andThen_next, acceptTurn_ready offered (same_level.trans level) idle]
    rfl

end Sys2Proof.Machine
end

section
/-! PROOFS. The obligations about what a step changes (spec/40_control.md R132, spec/10_state.md R30, spec/20_memory.md R88 to
R91, spec/60_exceptions.md R273). -/

namespace Sys2Proof.Machine

/-- A step is the engine's turn, a reset by the pin, or another turn of the host or the port, in the state with the script
moved on (log 1). -/
theorem step_cases {s t : State} (stepped : step s = .next t) :
    ∃ script,
      ((nextTurn s).1 = .engine ∧ engineTurn { s with host := { s.host with script := script } } = .next t) ∨
      ((nextTurn s).1 = .setRst false ∧
        t = resetBlock { s with rstN := false, host := { s.host with script := script } }) ∨
      ((nextTurn s).1 ≠ .engine ∧ (nextTurn s).1 ≠ .setRst false ∧
        takeTurn (nextTurn s).1 { s with host := { s.host with script := script } } = .next t) := by
  obtain ⟨script, one_turn⟩ := step_turn s
  rw [one_turn] at stepped
  refine ⟨script, ?_⟩
  by_cases engine : (nextTurn s).1 = .engine
  · rw [engine] at stepped
    exact .inl ⟨engine, stepped⟩
  by_cases reset : (nextTurn s).1 = .setRst false
  · rw [reset] at stepped
    cases stepped
    exact .inr (.inl ⟨reset, rfl⟩)
  · exact .inr (.inr ⟨engine, reset, stepped⟩)

/-- A turn of the engine that performs no command moves only the engine, DONE and the error record; any other is the rule
of the command whose word it holds, and retirement (R130, R131). -/
theorem engineTurn_command {s t : State} (turn : engineTurn s = .next t) :
    (∃ eng ctl, t = { s with eng := eng, ctl := ctl }) ∨
      ∃ i u, s.eng = .busy (encode i) ∧ exec i s = .next u ∧ t = retire u := by
  rcases engineTurn_cases turn with
    ⟨-, rfl⟩ | ⟨w, held, ⟨-, rfl⟩ | ⟨-, -, rfl⟩ | ⟨i, u, legal, -, completes, rfl⟩⟩
  · exact .inl ⟨_, _, rfl⟩
  · exact .inl ⟨_, _, rfl⟩
  · exact .inl ⟨_, _, rfl⟩
  · exact .inr ⟨i, u, by rw [held, encode_of_decode_ok legal], completes, rfl⟩

/-! ### The tree and the codes (R91, R132) -/

/-- Settles O54: the tables are written by commands whose precondition fails while something is active. -/
theorem treeAndCodesStayWhileActive : Obligations.TreeAndCodesStayWhileActive := by
  intro s t active stepped no_reset
  obtain ⟨script, ⟨engine, turn⟩ | ⟨reset, -⟩ | ⟨not_engine, not_reset, turn⟩⟩ := step_cases stepped
  · obtain ⟨eng, ctl, rfl⟩ | ⟨i, u, held, completes, rfl⟩ := engineTurn_command turn
    · exact ⟨rfl, rfl⟩
    · obtain rfl | ⟨-, inactive⟩ | same := exec_tables completes
      · exact absurd (.inr ⟨engine, held⟩) no_reset
      · exact absurd inactive active
      · exact same
  · exact absurd (.inl reset) no_reset
  · obtain ⟨same_tree, same_codes, -⟩ := hostTurn_keeps turn not_engine not_reset
    exact ⟨same_tree, same_codes⟩

/-- CG_GEN does not invalidate the codes (R91, R171). -/
theorem cgGen_keeps_valid {s t : State} (completes : exec .cgGen s = .next t) (valid : s.cg.valid = true) :
    t.cg.valid = true := by
  simp only [exec, execCgGen] at completes
  split at completes
  · cases completes
    exact valid
  · cases completes
    exact generatedCodes_valid s.tb

/-- Settles O56: of the commands that write the tables CG_GEN leaves valid codes. -/
theorem onlyABuildInvalidatesTheCodes : Obligations.OnlyABuildInvalidatesTheCodes := by
  intro s t valid stepped invalid
  have not_kept : t.cg.valid ≠ s.cg.valid := by rw [valid, invalid]; nofun
  obtain ⟨script, ⟨engine, turn⟩ | ⟨reset, -⟩ | ⟨not_engine, not_reset, turn⟩⟩ := step_cases stepped
  · obtain ⟨eng, ctl, rfl⟩ | ⟨i, u, held, completes, rfl⟩ := engineTurn_command turn
    · exact absurd rfl not_kept
    · obtain rfl | ⟨rfl | rfl, -⟩ | ⟨-, same_codes⟩ := exec_tables completes
      · exact .inl (.inr ⟨engine, held⟩)
      · exact .inr ⟨engine, held⟩
      · have still_valid := cgGen_keeps_valid completes valid
        rw [retire_cg, still_valid] at invalid
        cases invalid
      · exact absurd (congrArg CodeRegs.valid same_codes) not_kept
  · exact .inl (.inl reset)
  · obtain ⟨-, same_codes, -⟩ := hostTurn_keeps turn not_engine not_reset
    exact absurd (congrArg CodeRegs.valid same_codes) not_kept

/-! ### What a host turn does to FREQ, the engine and DONE (R30, R88, R90) -/

/-- A write moves neither the engine nor rst_n and sets DONE at no address; it changes FREQ only at a FREQ address while
IDLE (R75). -/
theorem csrWrite_frame (a : Addr) (v : Word) (s : State) :
    (csrWrite a v s).eng = s.eng ∧ (csrWrite a v s).rstN = s.rstN ∧
      ((csrWrite a v s).ctl.done = true → s.ctl.done = true) ∧
      ((csrWrite a v s).freq = s.freq ∨ (s.eng = .idle ∧ ∃ x, csrAt a = .freq x)) := by
  unfold csrWrite
  split
  · exact ⟨rfl, rfl, id, .inl rfl⟩
  split
  · exact ⟨rfl, rfl, id, .inl rfl⟩
  · rename_i not_refused
    cases register : csrAt a with
    | freq x =>
      refine ⟨rfl, rfl, id, .inr ⟨?_, x, rfl⟩⟩
      cases held : s.eng with
      | idle => rfl
      | busy w => simp [held, register, Engine.isBusy, CsrReg.busyProtected] at not_refused
    | status => exact ⟨rfl, rfl, fun done => (Bool.and_eq_true_iff.mp done).1, .inl rfl⟩
    | _ => exact ⟨rfl, rfl, id, .inl rfl⟩

/-- A turn of the host or the port, writes and resets apart, leaves FREQ and the decoder, and the pin but for its rise; the
engine and DONE move only by the acceptance (R22, R75, R79, R282). -/
theorem hostTurn_registers {r : Turn} {s t : State} (turn : takeTurn r s = .next t) (not_engine : r ≠ .engine)
    (not_reset : r ≠ .setRst false) (no_write : ∀ a v, r ≠ .csrWrite a v) :
    t.freq = s.freq ∧ t.dec = s.dec ∧ (s.rstN = true → t.rstN = true) ∧
      ((t.eng = s.eng ∧ t.ctl = s.ctl) ∨
        (s.eng = .idle ∧ ∃ w, t.eng = .busy w ∧ t.ctl = { s.ctl with done := false })) := by
  cases r with
  | engine => exact absurd rfl not_engine
  | csrWrite a v => exact absurd rfl (no_write a v)
  | accept =>
    cases turn
    obtain same | ⟨w, rest, -, -, idle, latched⟩ := acceptTurn_cases s
    · rw [same]
      exact ⟨rfl, rfl, id, .inl ⟨rfl, rfl⟩⟩
    · rw [latched]
      exact ⟨rfl, rfl, id, .inr ⟨idle, w, rfl, rfl⟩⟩
  | csrRead a =>
    cases turn
    obtain ⟨v, d, read, -⟩ := csrReadHasNoSideEffect a s
    rw [read]
    exact ⟨rfl, rfl, id, .inl ⟨rfl, rfl⟩⟩
  | setRst level =>
    cases level with
    | false => exact absurd rfl not_reset
    | true =>
      cases turn
      exact ⟨rfl, rfl, fun _ => rfl, .inl ⟨rfl, rfl⟩⟩
  | offer _ | takeEnc | takeDec | drainEnc _ | drainDec _ =>
    cases turn
    exact ⟨rfl, rfl, id, .inl ⟨rfl, rfl⟩⟩

/-- A turn that is neither the engine's nor a reset leaves the engine and does not set DONE, or is the acceptance, which
makes DONE 0; it does not bring the pin down (R22, R88, R90). -/
theorem hostTurn_engine {r : Turn} {s t : State} (turn : takeTurn r s = .next t) (not_engine : r ≠ .engine)
    (not_reset : r ≠ .setRst false) :
    (s.rstN = true → t.rstN = true) ∧
      ((t.eng = s.eng ∧ (t.ctl.done = true → s.ctl.done = true)) ∨ (s.eng = .idle ∧ t.ctl.done = false)) := by
  by_cases write : ∃ a v, r = .csrWrite a v
  · obtain ⟨a, v, rfl⟩ := write
    cases turn
    obtain ⟨same_eng, same_level, not_set, -⟩ := csrWrite_frame a v s
    exact ⟨fun level => same_level.trans level, .inl ⟨same_eng, not_set⟩⟩
  · have no_write : ∀ a v, r ≠ .csrWrite a v := fun a v h => write ⟨a, v, h⟩
    obtain ⟨-, -, level, ⟨same_eng, same_ctl⟩ | ⟨idle, w, -, cleared⟩⟩ :=
      hostTurn_registers turn not_engine not_reset no_write
    · exact ⟨level, .inl ⟨same_eng, fun done => same_ctl ▸ done⟩⟩
    · exact ⟨level, .inr ⟨idle, by rw [cleared]⟩⟩

/-- Settles O55: no command but SRESET writes FREQ, and of the host's turns only a write at a FREQ address does. -/
theorem onlyTheHostWritesFreq : Obligations.OnlyTheHostWritesFreq := by
  intro s t stepped changed
  obtain ⟨script, ⟨engine, turn⟩ | ⟨reset, -⟩ | ⟨not_engine, not_reset, turn⟩⟩ := step_cases stepped
  · obtain ⟨eng, ctl, rfl⟩ | ⟨i, u, held, completes, rfl⟩ := engineTurn_command turn
    · exact absurd rfl changed
    · obtain rfl | frame := exec_frame completes
      · exact .inl (.inr ⟨engine, held⟩)
      · exact absurd frame.freq changed
  · exact .inl (.inl reset)
  · by_cases write : ∃ a v, (nextTurn s).1 = .csrWrite a v
    · obtain ⟨a, v, write⟩ := write
      rw [write] at turn
      cases turn
      obtain ⟨-, -, -, same | ⟨idle, x, register⟩⟩ :=
        csrWrite_frame a v { s with host := { s.host with script := script } }
      · exact absurd same changed
      · exact .inr ⟨a, v, x, write, register, idle⟩
    · have no_write : ∀ a v, (nextTurn s).1 ≠ .csrWrite a v := fun a v h => write ⟨a, v, h⟩
      exact absurd (hostTurn_registers turn not_engine not_reset no_write).1 changed

/-- Settles O58: the engine's turn does nothing while IDLE, and the other turns leave the registers but for the acceptance,
which makes the engine BUSY and DONE 0. -/
theorem idleBlockChangesOnlyByTheHost : Obligations.IdleBlockChangesOnlyByTheHost := by
  refine ⟨fun s idle script none_offered => ?_, fun s t idle stepped no_write no_reset => ?_⟩
  · have default_turn : autoTurn s = .accept := by rw [autoTurn, idle]; rfl
    rw [step_of_empty_script script, default_turn, takeTurn, acceptTurn_none_offered none_offered]
  · obtain ⟨script, ⟨-, turn⟩ | ⟨reset, -⟩ | ⟨not_engine, not_reset, turn⟩⟩ := step_cases stepped
    · rw [engineTurn, idle] at turn
      cases turn
      exact ⟨(if_pos rfl).symm, rfl, rfl, rfl, rfl, rfl⟩
    · exact absurd reset no_reset
    · obtain ⟨same_tree, same_codes, same_enc, -⟩ := hostTurn_keeps turn not_engine not_reset
      obtain ⟨same_freq, same_dec, -, engine⟩ := hostTurn_registers turn not_engine not_reset no_write
      refine ⟨?_, same_freq, same_tree, same_codes, same_enc, same_dec⟩
      obtain ⟨same_eng, same_ctl⟩ | ⟨-, w, busy, done_cleared⟩ := engine
      · rw [if_pos (same_eng.trans idle), same_ctl]
      · rw [if_neg (by rw [busy]; nofun), done_cleared]



/-- What a read at an address of STATUS returns has STATUS's own BUSY and DONE, out of reset (R287). -/
theorem status_read_bits {s : State} {a : Addr} {v : Word} (level : s.rstN = true)
    (address : a &&& 0xFFFC#16 = 0x0008#16) (read : (csrRead a s).host.reads = s.host.reads ++ [v]) :
    v.getLsbD 0 = decide (s.eng ≠ .idle) ∧ v.getLsbD 1 = s.ctl.done := by
  have register : csrAt a = .status := by
    rw [← csrAt_masked, address]; rfl
  obtain ⟨v', d, result, value, -⟩ := csrReadHasNoSideEffect a s
  rw [result] at read
  obtain rfl : v' = v := by simpa using read
  rw [register] at value
  obtain ⟨busy_specified, done_specified⟩ := status_busy_done_specified level
  obtain ⟨busy, done, -⟩ := statusBitsAreTheirFields s
  exact ⟨(value 0 (by decide) busy_specified).trans busy, (value 1 (by decide) done_specified).trans done⟩

/-- Settles O59: no other turn touches a held word, and DONE is 1 only while IDLE by the invariant. -/
theorem heldWordStaysUntilRetirement : Obligations.HeldWordStaysUntilRetirement := by
  refine ⟨fun s t w busy stepped no_engine no_reset => ?_, fun s a v inv level address read shown => ?_,
    fun s inv irq no_error no_refusal => ?_⟩
  · obtain ⟨script, ⟨engine, -⟩ | ⟨reset, -⟩ | ⟨not_engine, not_reset, turn⟩⟩ := step_cases stepped
    · exact absurd engine no_engine
    · exact absurd reset no_reset
    · obtain ⟨-, ⟨same_eng, not_set⟩ | ⟨idle, -⟩⟩ := hostTurn_engine turn not_engine not_reset
      · exact ⟨same_eng.trans busy, not_set⟩
      · rw [busy] at idle
        cases idle
  · obtain ⟨busy_bit, done_bit⟩ := status_read_bits level address read
    obtain done | not_busy := shown
    · exact inv.done_idle (done_bit ▸ done)
    · rw [busy_bit] at not_busy
      simpa using not_busy
  · obtain ⟨-, error | refusal⟩ | ⟨-, done⟩ := (irqIsTheEnabledSources s).mp irq
    · exact absurd no_error error
    · rw [no_refusal] at refusal
      cases refusal
    · exact inv.done_idle done

end Sys2Proof.Machine
end

section
/-! PROOFS. The invariant of the block's state (spec/10_state.md R25 to R55, spec/70_reset_and_hazards.md R280): reset has it
and every step keeps it. -/

namespace Sys2Proof.Machine

/-! ### Reset (R55, R280) -/

/-- What is the reset of some block is its own reset: the untaken bytes are gone (R280). -/
theorem ResetFrom.self {s t : State} (reset : ResetFrom s t) : ResetFrom t t :=
  { reset with
    enc_out := by rw [reset.enc_out]
    dec_out := by rw [reset.dec_out]
    outside := ⟨rfl, rfl⟩ }

/-- A block in its reset state meets the invariant: nothing is valid, active, pending or done (R55). -/
theorem ResetFrom.inv {s : State} (reset : ResetFrom s s) : Inv s := by
  obtain ⟨no_tree, no_leaf, root⟩ := reset.tree
  obtain ⟨no_codes, no_maxlen⟩ := reset.codes
  have enc_idle : s.enc.active = false := by rw [reset.enc]
  have dec_idle : s.dec.active = false := by rw [reset.dec]
  constructor
  case tree => rw [no_tree]; nofun
  case no_tree => exact fun _ => ⟨Fin.ext no_leaf, Fin.ext root⟩
  case codes_need_tree | codes => rw [no_codes]; nofun
  case no_codes => exact fun _ => no_maxlen
  case enc_needs_codes => rw [enc_idle]; nofun
  case dec_needs_tree | cursor => rw [dec_idle]; nofun
  case acc_padded => rw [reset.enc]; exact fun _ _ => BitVec.getLsbD_zero
  case no_error => exact fun _ => reset.error.2
  case no_format => rw [reset.error.1]; nofun
  case done_idle => exact fun _ => reset.eng
  case in_reset => exact fun _ => reset

/-- The reset of a block meets the invariant (R280). -/
theorem inv_resetBlock (s : State) : Inv (resetBlock s) := (resetFrom_resetBlock s).self.inv

/-- Settles O53: the state right after reset is the reset of itself. -/
theorem resetMeetsTheInvariant : Obligations.ResetMeetsTheInvariant := inv_resetBlock State.reset

/-! ### What a command keeps

A command's own rule looks at neither the engine nor the pin, and the frame around it sees to both. So the invariant is
followed through the rule in the state as it would be with the engine IDLE and rst_n at 1. -/

/-- `s` with the engine IDLE and out of reset. -/
def State.settled (s : State) : State := { s with eng := .idle, rstN := true }

theorem Inv.settled {s : State} (inv : Inv s) : Inv s.settled :=
  { inv with
    done_idle := fun _ => rfl
    in_reset := nofun }

/-- Retirement of what a command left (R131). -/
theorem Inv.after_retire {s : State} (inv : Inv s.settled) (level : s.rstN = true) : Inv (retire s) :=
  { inv with
    done_idle := fun _ => rfl
    in_reset := by rw [retire_rstN, level]; nofun }

/-- A recorded error, or an acknowledged one (R26, R256, R258, R263). -/
theorem Inv.withError {s : State} (inv : Inv s.settled) {e : ErrCode} {w : Word} (cleared : e = .none → w = 0#32)
    (not_format : e ≠ .format) : Inv (s.withError e w).settled :=
  { inv with
    no_error := cleared
    no_format := not_format
    in_reset := nofun }

/-- With nothing active any new tables will do that are consistent with each other (R25, R36, R42). -/
theorem Inv.withTables {s : State} (inv : Inv s.settled) (inactive : s.Inactive) {tb : TreeRegs} {cg : CodeRegs}
    (tree : tb.valid = true → TreeOk tb) (no_tree : tb.valid = false → tb.nleaf = 0 ∧ tb.root = 0)
    (codes : cg.valid = true → tb.valid = true ∧ cg = generatedCodes tb)
    (no_codes : cg.valid = false → cg.maxlen = 0#8) : Inv ({ s with tb := tb, cg := cg } : State).settled := by
  obtain ⟨enc_idle, dec_idle⟩ := inactive
  have enc_off : s.enc.active = true → False := by rw [enc_idle]; nofun
  have dec_off : s.dec.active = true → False := by rw [dec_idle]; nofun
  exact
    { inv with
      tree := tree
      no_tree := no_tree
      codes_need_tree := fun valid => (codes valid).1
      codes := fun valid => (codes valid).2
      no_codes := no_codes
      enc_needs_codes := fun active => (enc_off active).elim
      dec_needs_tree := fun active => (dec_off active).elim
      cursor := fun active => (dec_off active).elim
      in_reset := nofun }

/-- New encoder registers and output, active only on valid codes and with ACC 0 below its pending bits (R44, R132). -/
theorem Inv.withEnc {s : State} (inv : Inv s.settled) {enc : EncRegs} {out : Stream}
    (needs_codes : enc.active = true → s.cg.valid = true)
    (padded : ∀ i, i < 8 - enc.accCnt.toNat → enc.acc.getLsbD i = false) :
    Inv ({ s with enc := enc, encOut := out } : State).settled :=
  { inv with
    enc_needs_codes := needs_codes
    acc_padded := padded
    in_reset := nofun }

/-- New decoder registers and output, active only on a valid tree with the cursor on it (R132, R222). -/
theorem Inv.withDec {s : State} (inv : Inv s.settled) {dec : DecRegs} {out : Stream}
    (needs_tree : dec.active = true → s.tb.valid = true)
    (cursor : dec.active = true → CursorOk { s with dec := dec, decOut := out }) :
    Inv ({ s with dec := dec, decOut := out } : State).settled :=
  { inv with
    dec_needs_tree := needs_tree
    cursor := cursor
    in_reset := nofun }

/-! ### The commands, their preconditions met -/

/-- TB_BUILD leaves a valid arena without codes, or, of an empty FREQ, no tree and EMPTY_INPUT (R152, R158, R160). -/
theorem Inv.after_tbBuild {s t : State} (inv : Inv s.settled) (inactive : s.Inactive) (built : exec .tbBuild s = .next t) :
    Inv t.settled := by
  by_cases counted : s.SomeCount
  · have present := (presentSymbols_ne_nil_iff s).mpr counted
    rw [exec_tbBuild inactive present] at built
    cases built
    exact inv.withTables inactive (fun _ => builtTree_ok s present) nofun nofun fun _ => rfl
  · rw [tbBuildOfNoSymbolRaisesEmptyInput s inactive counted] at built
    cases built
    have no_tables := inv.withTables (tb := { s.tb with valid := false, nleaf := 0, root := 0 })
      (cg := { s.cg with valid := false, maxlen := 0#8 }) inactive nofun (fun _ => ⟨rfl, rfl⟩) nofun fun _ => rfl
    exact no_tables.withError nofun nofun

/-- ENC_SYM appends to the packer, or without a code ends the encode and raises LOGIC (R194, R195). -/
theorem Inv.after_encSym {s t : State} (inv : Inv s.settled) {x : Byte} (active : s.enc.active = true)
    (done : exec (.encSym x) s = .next t) : Inv t.settled := by
  by_cases absent : s.cg.lenAt x = 0#8
  · rw [encSymOfAnAbsentSymbolRaisesLogic s x active absent] at done
    cases done
    have ended := inv.withEnc (enc := { s.enc with active := false }) (out := s.encOut) nofun inv.acc_padded
    exact ended.withError nofun nofun
  · rw [exec_encSym_drained active absent] at done
    obtain ⟨acc, cnt, out, frame, -⟩ := emitBits_spec (s.cg.codeOf x) s
    have padded := emitBits_padded (s.cg.codeOf x) s inv.acc_padded
    rw [frame] at done padded
    rw [drained_eq_next done]
    exact inv.withEnc inv.enc_needs_codes padded

/-- ENC_FLUSH ends the encode with an empty packer (R197). -/
theorem Inv.after_encFlush {s t : State} (inv : Inv s.settled) (active : s.enc.active = true)
    (done : exec .encFlush s = .next t) : Inv t.settled := by
  rw [exec_encFlush_drained active] at done
  rw [drained_eq_next done]
  exact inv.withEnc nofun fun _ _ => BitVec.getLsbD_zero

/-- DEC_BYTE keeps the cursor on the tree (R222, R224). -/
theorem Inv.after_decByte {s t : State} (inv : Inv s.settled) {b : Byte} (active : s.dec.active = true)
    (done : exec (.decByte b) s = .next t) : Inv t.settled := by
  rw [exec_decByte_drained active] at done
  have on_tree := walkBits_cursor (bitsMsbFirst b) s (inv.tree (inv.dec_needs_tree active)) (inv.cursor active)
  obtain ⟨rem, cur, cnt, out, frame, -⟩ := walkBits_frame (bitsMsbFirst b) s
  rw [frame] at done on_tree
  rw [drained_eq_next done]
  exact inv.withDec inv.dec_needs_tree fun _ => on_tree

/-- DEC_END ends the decode, cleanly or with TRUNCATED_STREAM (R227, R228). -/
theorem Inv.after_decEnd {s t : State} (inv : Inv s.settled) (active : s.dec.active = true)
    (done : exec .decEnd s = .next t) : Inv t.settled := by
  have ended := inv.withDec (dec := { s.dec with active := false }) (out := s.decOut) nofun nofun
  by_cases clean : s.dec.remain = 0#64 ∧ s.dec.cursor = s.tb.root
  · rw [exec_decEnd active clean.1 clean.2] at done
    cases done
    exact ended
  · rw [exec_decEnd_truncated active (not_and_or.mp clean)] at done
    cases done
    exact ended.withError nofun nofun

/-- Every command keeps the invariant: it raises SEQUENCE, or its precondition is met and its own law says what it leaves. -/
theorem Inv.after_exec {i : Instr} {s t : State} (inv : Inv s.settled) (done : exec i s = .next t) : Inv t.settled := by
  by_cases fails : sequenceFails i s = true
  · rw [exec_of_sequenceFails rfl fails] at done
    cases done
    exact inv.withError nofun nofun
  cases i with
  | nop => cases done; exact inv
  | sreset => cases done; exact (inv_resetBlock s).settled
  | errClear => cases done; exact inv.withError (fun _ => rfl) nofun
  | tbBuild => exact inv.after_tbBuild (by simpa [sequenceFails, State.Inactive] using fails) done
  | cgGen =>
    have met : (s.tb.valid = true ∧ s.enc.active = false) ∧ s.dec.active = false := by
      simpa [sequenceFails] using fails
    obtain ⟨⟨valid, enc_idle⟩, dec_idle⟩ := met
    have inactive : s.Inactive := ⟨enc_idle, dec_idle⟩
    rw [exec_cgGen inactive valid] at done
    cases done
    exact inv.withTables inactive inv.tree inv.no_tree (fun _ => ⟨valid, rfl⟩)
      (by rw [generatedCodes_valid]; nofun)
  | encBegin =>
    have met : s.cg.valid = true ∧ s.enc.active = false := by simpa [sequenceFails] using fails
    rw [exec_encBegin met.1 met.2] at done
    cases done
    exact inv.withEnc (fun _ => met.1) fun _ _ => BitVec.getLsbD_zero
  | encSym x => exact inv.after_encSym (by simpa [sequenceFails] using fails) done
  | encFlush => exact inv.after_encFlush (by simpa [sequenceFails] using fails) done
  | decBegin =>
    have met : s.tb.valid = true ∧ s.dec.active = false := by simpa [sequenceFails] using fails
    rw [exec_decBegin met.1 met.2] at done
    cases done
    exact inv.withDec (fun _ => met.1) fun _ => .inl rfl
  | decByte b => exact inv.after_decByte (by simpa [sequenceFails] using fails) done
  | decEnd => exact inv.after_decEnd (by simpa [sequenceFails] using fails) done

/-! ### What a turn keeps -/

/-- The engine's turn keeps the invariant: while BUSY the block is out of reset, and a turn that completes ends IDLE. -/
theorem Inv.after_engineTurn {s t : State} (inv : Inv s) (turn : engineTurn s = .next t) : Inv t := by
  obtain ⟨-, same_level, -⟩ := engineTurn_ends turn
  have busy_level {w : Word} (held : s.eng = .busy w) : s.rstN = true := by
    by_contra in_reset
    have idle := (inv.in_reset (by simpa using in_reset)).eng
    rw [held] at idle
    cases idle
  rcases engineTurn_cases turn with
    ⟨-, rfl⟩ | ⟨w, held, ⟨-, rfl⟩ | ⟨-, -, rfl⟩ | ⟨i, u, -, -, completes, rfl⟩⟩
  · exact inv
  · exact inv.settled.after_retire (busy_level held)
  · have raised := inv.settled.withError (e := .illegalCmd) (w := w) nofun nofun
    exact raised.after_retire (busy_level held)
  · exact (inv.settled.after_exec completes).after_retire (same_level.trans (busy_level held))

/-- While rst_n is 0 no turn of the host or the port moves anything of the block (R280). -/
theorem hostTurn_in_reset {r : Turn} {s t : State} (level : s.rstN = false) (reset : ResetFrom s s)
    (turn : takeTurn r s = .next t) (not_engine : r ≠ .engine) (not_reset : r ≠ .setRst false) :
    ∃ rst host draws, t = { s with rstN := rst, host := host, draws := draws } := by
  cases r with
  | engine => exact absurd rfl not_engine
  | accept =>
    cases turn
    rw [acceptTurn_not_ready (.inl level)]
    exact ⟨_, _, _, rfl⟩
  | csrRead a =>
    cases turn
    obtain ⟨v, d, read, -⟩ := csrReadHasNoSideEffect a s
    exact ⟨_, _, _, read⟩
  | csrWrite a v =>
    cases turn
    exact ⟨_, _, _, csrWrite_in_reset level a v⟩
  | takeEnc =>
    cases turn
    rw [Stream.take_of_nil (by rw [reset.enc_out])]
    exact ⟨_, _, _, rfl⟩
  | takeDec =>
    cases turn
    rw [Stream.take_of_nil (by rw [reset.dec_out])]
    exact ⟨_, _, _, rfl⟩
  | setRst up =>
    cases up with
    | false => exact absurd rfl not_reset
    | true =>
      cases turn
      exact ⟨_, _, _, rfl⟩
  | offer _ | drainEnc _ | drainDec _ =>
    cases turn
    exact ⟨_, _, _, rfl⟩

/-- A turn of the host or the port keeps the invariant: of what it speaks of, only DONE, the engine and the pin move. -/
theorem Inv.after_hostTurn {r : Turn} {s t : State} (inv : Inv s) (turn : takeTurn r s = .next t)
    (not_engine : r ≠ .engine) (not_reset : r ≠ .setRst false) : Inv t := by
  obtain ⟨same_tree, same_codes, same_enc, ⟨n, dec⟩, same_code, same_info, -⟩ :=
    hostTurn_keeps turn not_engine not_reset
  obtain ⟨level, engine⟩ := hostTurn_engine turn not_engine not_reset
  have on_tree : CursorOk t ↔ CursorOk s := by rw [CursorOk, CursorOk, dec, same_tree]
  constructor
  case tree => rw [same_tree]; exact inv.tree
  case no_tree => rw [same_tree]; exact inv.no_tree
  case codes_need_tree => rw [same_tree, same_codes]; exact inv.codes_need_tree
  case codes => rw [same_tree, same_codes]; exact inv.codes
  case no_codes => rw [same_codes]; exact inv.no_codes
  case enc_needs_codes => rw [same_enc, same_codes]; exact inv.enc_needs_codes
  case dec_needs_tree => rw [dec, same_tree]; exact inv.dec_needs_tree
  case cursor => rw [dec, on_tree]; exact inv.cursor
  case acc_padded => rw [same_enc]; exact inv.acc_padded
  case no_error => rw [same_code, same_info]; exact inv.no_error
  case no_format => rw [same_code]; exact inv.no_format
  case done_idle =>
    intro done
    obtain ⟨same_eng, not_set⟩ | ⟨-, cleared⟩ := engine
    · exact same_eng.trans (inv.done_idle (not_set done))
    · rw [cleared] at done
      cases done
  case in_reset =>
    intro down
    have was_down : s.rstN = false := by
      by_contra up
      rw [level (by simpa using up)] at down
      cases down
    have reset := inv.in_reset was_down
    obtain ⟨rst, host, draws, rfl⟩ := hostTurn_in_reset was_down reset turn not_engine not_reset
    exact reset.withHost rst host draws

/-- Settles O52: the engine's turn, the reset by the pin and the other turns keep the invariant, and so does moving the
script on. -/
theorem stepKeepsTheInvariant : Obligations.StepKeepsTheInvariant := by
  intro s t inv stepped
  obtain ⟨script, turn⟩ := step_cases stepped
  have moved : Inv { s with host := { s.host with script := script } } :=
    { inv with in_reset := fun level => (inv.in_reset level).withHost s.rstN _ s.draws }
  obtain ⟨-, turn⟩ | ⟨-, rfl⟩ | ⟨not_engine, not_reset, turn⟩ := turn
  · exact moved.after_engineTurn turn
  · exact inv_resetBlock _
  · exact moved.after_hostTurn turn not_engine not_reset

end Sys2Proof.Machine
end
